-- ==== Sys2Proof/Word.lean ====
section
/-! DEFINITION. The word types of the machine (spec 00_scope.md R8, R14). -/

namespace Sys2Proof

/-- A byte of memory (10_state.md R36). -/
abbrev Byte := BitVec 8

/-- A 32-bit register value, virtual address or instruction word (R8: XLEN = 32). -/
abbrev Word := BitVec 32

/-- A 64-bit counter or timer (10_state.md R40). -/
abbrev DWord := BitVec 64

/-- A physical address as the memory interface carries it, 36 bits (20_memory.md R100). -/
abbrev PAddr := BitVec 36

/-- An index into the general registers: a plain 5-bit field (30_encoding.md R173). -/
abbrev Reg := BitVec 5

/-- The number of a control and status register, 12 bits (10_state.md R36). -/
abbrev CsrNum := BitVec 12

end Sys2Proof
end

