-- ==== Sys2Proof/Config.lean ====
section
/-! DEFINITION. What the platform fixes (the open parameters of spec 00_scope.md R9), the constants of the
machine, and the free values.  A platform is an argument of the model: it stands in `State.platform`, so that
a statement about every state holds for every platform. -/

namespace Sys2Proof

/-- What backs a region (20_memory.md R102): a byte buffer (RAM, ROM) or a device's callbacks. -/
inductive Backing where
  | buffer
  | device
  deriving DecidableEq, Repr

/-- A region of the physical-memory map (20_memory.md R102).  RAM is a writable buffer, ROM a buffer that is
not writable (R106). -/
structure Region where
  start    : Nat
  size     : Nat
  writable : Bool
  backing  : Backing
  deriving DecidableEq, Repr

/-- The region covers the physical address. -/
def Region.covers (r : Region) (a : Nat) : Bool := decide (r.start ≤ a ∧ a < r.start + r.size)

/-- A RAM region: only RAM has frames and `valid` bits (20_memory.md R105). -/
def Region.isRam (r : Region) : Bool := r.writable && decide (r.backing = .buffer)

/-- The open parameters of 00_scope.md R9, but for `HARTID` (the register `mhartid`) and `TIME_DELTA` (an
input of each tick). -/
structure Platform where
  resetPc        : Word
  mtimeAddr      : Word
  mtimecmpAddr   : Word
  scyclecmpCsr   : CsrNum
  hpmInStandby   : Bool
  regions        : List Region
  deriving DecidableEq, Repr

/-- A region's own constraints (20_memory.md R102, decision D33). -/
abbrev Region.wf (r : Region) : Prop :=
  r.start % 4 = 0 ∧ r.size % 4 = 0 ∧ r.start + r.size ≤ 2 ^ 36 ∧
    (r.isRam = true → r.start % 4096 = 0 ∧ r.size % 4096 = 0)

/-- Two regions do not overlap (20_memory.md R102). -/
abbrev Region.apart (r q : Region) : Prop := r.start + r.size ≤ q.start ∨ q.start + q.size ≤ r.start

/-- The constraints 00_scope.md R9 and 20_memory.md R102 put on the parameters: `RESET_PC` a multiple of 4,
the two timer addresses multiples of 8 with disjoint ranges below 2^32 (a multiple of 8 leaves no room to
wrap), `SCYCLECMP_CSR` in an S-level read/write range, regions well formed and pairwise apart. -/
abbrev Platform.wf (p : Platform) : Prop :=
  p.resetPc.toNat % 4 = 0 ∧ p.mtimeAddr.toNat % 8 = 0 ∧ p.mtimecmpAddr.toNat % 8 = 0 ∧
    p.mtimeAddr ≠ p.mtimecmpAddr ∧
    p.scyclecmpCsr.extractLsb' 8 2 = 1#2 ∧ p.scyclecmpCsr.extractLsb' 10 2 ≠ 3#2 ∧
    (∀ r ∈ p.regions, r.wf) ∧ p.regions.Pairwise Region.apart

/-- One side-effecting call the core made to a device (20_memory.md R104, R107): a read with `noisy = true`,
or a write.  `State.deviceCalls` keeps them, newest first. -/
inductive DeviceCall where
  | read  (phys : Nat) (bytes : Nat)
  | write (phys : Nat) (bytes : Nat) (value : Word) (noisy : Bool)
  deriving DecidableEq, Repr

namespace Config

/-- FREE VALUE.  `TIME_DELTA(t)` (60_exceptions.md R402): the host wall-clock delta of tick `t`, any unsigned
64-bit value.  No body: nothing can be proved of it.  Used when the tick has no scheduled input (log 4). -/
opaque timeDelta : Nat → DWord

/-- FREE VALUE.  What a device answers (93_implementation_defined.md I22): any function of the tick, of the
side-effecting calls made so far, of the address, of the width in bytes and of `noisy` (log 5). -/
opaque deviceRead : Nat → List DeviceCall → Nat → Nat → Bool → Word

/-- `misa`, a constant (10_state.md R44). -/
def misa : Word := 0x40141101#32

/-- The page and frame size (00_scope.md R8). -/
def frameSize : Nat := 4096

/-- The platform of `State.reset`: the defaults of 00_scope.md R9; `REGIONS` and `RESET_PC` have none, and
take the values the spec's own vectors start from (95_test_vectors.md section 0).  DESIGN CHOICE (log 1). -/
def platform : Platform where
  resetPc      := 0x00001000#32
  mtimeAddr    := 0xFF000000#32
  mtimecmpAddr := 0xFF000008#32
  scyclecmpCsr := 0x5C0#12
  hpmInStandby := true
  regions      := [{ start := 0, size := 0x10000, writable := true, backing := .buffer }]

/-- `HARTID` of `State.reset` (00_scope.md R9 gives no default).  DESIGN CHOICE (log 1). -/
def hartId : Word := 0#32

/-- What a byte of memory that the host did not load reads as (93_implementation_defined.md I8 leaves it
open).  DESIGN CHOICE (log 3). -/
def unloadedByte : Byte := 0#8

end Config

end Sys2Proof
end

