-- ==== Sys2Proof/Machine/State.lean ====
section
/-! DEFINITION. The state of the machine, plain data: everything spec 10_state.md gives the hart, the shared memory and
decode cache, the platform's parameters, and the model's own bookkeeping of the outside world.  INVENTORY.md,
'## State', lists each field with its rule. -/

namespace Sys2Proof.Machine

/-- Privilege modes (10_state.md R26). -/
inductive Mode where
  | u
  | s
  | m
  deriving DecidableEq, Repr

/-- Widths of a data access (20_memory.md R112). -/
inductive Width where
  | byte
  | half
  | word
  deriving DecidableEq, Repr

/-- What a translation is for (20_memory.md R120). -/
inductive Intent where
  | read
  | write
  | fetch
  deriving DecidableEq, Repr

/-- The exceptions the core raises (60_exceptions.md R420); codes 1, 5, 7, 10 and 14 are never raised. -/
inductive Exception where
  | instructionAddressMisaligned
  | illegalInstruction
  | breakpoint
  | loadAddressMisaligned
  | storeAmoAddressMisaligned
  | environmentCallFromU
  | environmentCallFromS
  | environmentCallFromM
  | instructionPageFault
  | loadPageFault
  | storeAmoPageFault
  deriving DecidableEq, Repr

/-- The interrupts (60_exceptions.md R431). -/
inductive Interrupt where
  | ssi
  | msi
  | sti
  | mti
  | sei
  | mei
  deriving DecidableEq, Repr

/-- What a trap is taken for (60_exceptions.md R411, the arguments `code` and `interrupt`). -/
inductive Trap where
  | exception (e : Exception)
  | interrupt (i : Interrupt)
  deriving DecidableEq, Repr

/-- Why the machine stops: the fatal host errors of 60_exceptions.md R416, after which there is no next state. -/
inductive Fault where
  /-- Trap entry through an `mtvec` or `stvec` whose mode field is 2 or 3 (60_exceptions.md R413, R416).  Raised by
  `enterM` and `enterS`.  SAFE: the spec says the simulation ends there. -/
  | badTvecMode
  /-- `cpu_set_pc` with a value that is not a multiple of 4 (70_reset_and_hazards.md R502).  Raised by `cpuSetPc`.
  SAFE: the spec says it is fatal. -/
  | misalignedSetPc
  /-- The host cannot allocate a decode-cache entry (20_memory.md R162, 60_exceptions.md R416).  Raised by `phase1`
  when the tick's input says so.  SAFE: the spec says it is fatal. -/
  | dicAllocation
  deriving DecidableEq, Repr

/-- Why the model gives no answer. -/
inductive Refusal where
  /-- An instruction with no meaning yet, by its mnemonic.  Raised by `exec` alone.  SAFE. -/
  | notModelled (mnemonic : String)
  /-- An operation or a tick after `cpu_done` (70_reset_and_hazards.md R501: none may be applied).  Raised by
  `applyHostOp` and `tickWith`.  SAFE. -/
  | hartDone
  deriving DecidableEq, Repr

/-- Physical memory: the bytes of the RAM and ROM buffers by physical address, in the canonical form
`Memory.wf` (Machine/Memory.lean). -/
abbrev Memory := List Host.Cell

/-- A decoded-instruction cache entry (10_state.md R35).  A decoded slot is a pure function of the word at its place at
decode time, so the entry keeps the frame's bytes as they were then (`image`) and slot k is the decoding of
word k of them (log 8). -/
structure DicEntry where
  frame : Nat
  image : Memory
  deriving DecidableEq, Repr

/-- The CSR block of the hart (10_state.md R40), with the hidden items of R31 and R32. -/
structure CsrBlock where
  mstatus       : Word
  mie           : Word
  mip           : Word
  mtvec         : Word
  mepc          : Word
  mcause        : Word
  mtval         : Word
  medeleg       : Word
  mideleg       : Word
  satp          : Word
  stvec         : Word
  sepc          : Word
  scause        : Word
  stval         : Word
  mscratch      : Word
  sscratch      : Word
  mcounteren    : Word
  scounteren    : Word
  mcountinhibit : Word
  mhartid       : Word
  scyclecmp     : Word
  mtime         : DWord
  mtimecmp      : DWord
  cycle         : DWord
  instret       : DWord
  hpmcounters   : Vector DWord 29
  hpmevents     : Vector Word 29
  externalSeip  : Bool
  tvalNext      : Word
  deriving DecidableEq, Repr

/-- What the outside can do to the hart between two ticks: the host operations of 00_scope.md R10, and a physical write
by another hart, a device or the host (20_memory.md R152). -/
inductive HostOp where
  /-- `cpu_init(cpu, hartid)` (70_reset_and_hazards.md R500) -/
  | init (hartid : Word)
  /-- `cpu_done(cpu)` (R501) -/
  | done
  /-- `cpu_set_pc(cpu, value)` (R502) -/
  | setPc (value : Word)
  /-- `read_mem{8,16,32}(cpu, virt, &out, fetch, noisy)` (R504, R505) -/
  | readMem (virt : Word) (width : Width) (fetch noisy : Bool)
  /-- `write_mem{8,16,32}(cpu, virt, val, noisy)` (R506) -/
  | writeMem (virt : Word) (width : Width) (value : Word) (noisy : Bool)
  /-- `interrupt_up(cpu, code)` (60_exceptions.md R440) -/
  | interruptUp (code : Nat)
  /-- `interrupt_down(cpu, code)` (60_exceptions.md R441) -/
  | interruptDown (code : Nat)
  /-- `sc_access(cpu, phys)` (20_memory.md R151) -/
  | scAccess (phys : PAddr)
  /-- a write through physical memory by any other agent (20_memory.md R103, R152) -/
  | physWrite (phys : PAddr) (width : Width) (value : Word)
  deriving DecidableEq, Repr

/-- What the outside supplies for one tick: the operations it performs before it, in order, the clock delta
`TIME_DELTA(t)` of it (00_scope.md R12), and whether the host cannot allocate a decode-cache entry during it. -/
structure TickInput where
  ops        : List HostOp
  timeDelta  : DWord
  allocFails : Bool
  deriving DecidableEq, Repr

/-- The state of the machine. -/
structure State where
  /-- `regs[0..31]` (10_state.md R20) -/
  regs          : Vector Word 32
  /-- `pc` (R23) -/
  pc            : Word
  /-- `pc_next` (R23) -/
  pcNext        : Word
  /-- `priv_mode` (R26) -/
  priv          : Mode
  /-- `stdby` (R27) -/
  stdby         : Bool
  /-- `reserved_addr` (R28) -/
  reservedAddr  : PAddr
  /-- `reserved_valid` (R28) -/
  reservedValid : Bool
  /-- the CSR block (R40) -/
  csr           : CsrBlock
  /-- physical memory (20_memory.md R101) -/
  mem           : Memory
  /-- the addresses of the RAM frames whose `valid` bit is true, rising (10_state.md R34) -/
  valid         : List Nat
  /-- the decoded-instruction cache, in scan order (R35) -/
  dic           : List DicEntry
  /-- the open parameters (00_scope.md R9), constant -/
  platform      : Platform
  /-- the model's own: `exc` of the tick (60_exceptions.md R400), none between ticks (log 6) -/
  exc           : Option Exception
  /-- the model's own: the index of the tick (log 4) -/
  tick          : Nat
  /-- the model's own: side-effecting device calls so far, newest first (log 5) -/
  deviceCalls   : List DeviceCall
  /-- the model's own: what the outside supplies for the coming ticks (log 4) -/
  inputs        : List TickInput
  /-- the model's own: `cpu_done` has been called (log 15) -/
  finished      : Bool
  deriving DecidableEq, Repr

/-- The CSR block after `cpu_init` with `hartid` = `Config.hartId` (10_state.md R90). -/
def CsrBlock.reset : CsrBlock where
  mstatus := 0#32
  mie := 0#32
  mip := 0#32
  mtvec := 0#32
  mepc := 0#32
  mcause := 0#32
  mtval := 0#32
  medeleg := 0#32
  mideleg := 0#32
  satp := 0#32
  stvec := 0#32
  sepc := 0#32
  scause := 0#32
  stval := 0#32
  mscratch := 0#32
  sscratch := 0#32
  mcounteren := 0#32
  scounteren := 0#32
  mcountinhibit := 0#32
  mhartid := Config.hartId
  scyclecmp := 0#32
  mtime := 0#64
  mtimecmp := 0#64
  cycle := 0#64
  instret := 0#64
  hpmcounters := Vector.replicate 29 0#64
  hpmevents := Vector.replicate 29 0#32
  externalSeip := false
  tvalNext := 0#32

/-- The machine right after reset (10_state.md R90, 70_reset_and_hazards.md R500, R510). -/
def State.reset : State where
  regs := Vector.replicate 32 0#32
  pc := Config.platform.resetPc
  pcNext := Config.platform.resetPc + 4#32
  priv := .m
  stdby := false
  reservedAddr := 0#36
  reservedValid := false
  csr := CsrBlock.reset
  mem := []
  valid := []
  dic := []
  platform := Config.platform
  exc := none
  tick := 0
  deviceCalls := []
  inputs := []
  finished := false

end Sys2Proof.Machine
end

