-- ==== Sys2Proof/Machine/Bits.lean ====
section
/-! DEFINITION. Bit fields: the codes of modes, widths, exceptions and interrupts, masks, and the fields of `mstatus`,
`satp` and page-table entries (spec 10_state.md R42, R57; 20_memory.md R122; 60_exceptions.md R420, R431). -/

namespace Sys2Proof.Machine

-- ---- words and masks ----

/-- `w` with bit `i` made `b`. -/
def setBit (w : Word) (i : Nat) (b : Bool) : Word :=
  if b then w ||| (1#32 <<< i) else w &&& ~~~(1#32 <<< i)

/-- `old` with the bits of `mask` replaced by those of `new`: the shape of every masked write of 10_state.md. -/
def maskedWrite (mask old new : Word) : Word := (old &&& ~~~mask) ||| (new &&& mask)

/-- Sign extension to 32 bits, `sext_N` (00_scope.md R14). -/
def sext {n : Nat} (v : BitVec n) : Word := v.signExtend 32

/-- Zero extension to 32 bits, `zext_N` (00_scope.md R14). -/
def zext {n : Nat} (v : BitVec n) : Word := v.setWidth 32

/-- The low and high halves of a 64-bit counter (10_state.md R60). -/
def lowHalf (d : DWord) : Word := d.extractLsb' 0 32
def highHalf (d : DWord) : Word := d.extractLsb' 32 32

/-- A CSR write replaces one 32-bit half (10_state.md R60). -/
def withLowHalf (d : DWord) (v : Word) : DWord := highHalf d ++ v
def withHighHalf (d : DWord) (v : Word) : DWord := v ++ lowHalf d

-- ---- widths ----

/-- Bytes of an access (20_memory.md R112). -/
def bytesOf : Width → Nat
  | .byte => 1
  | .half => 2
  | .word => 4

/-- The all-ones value of a width: what a read of no region gives (20_memory.md R101). -/
def onesOf : Width → Word
  | .byte => 0x000000FF#32
  | .half => 0x0000FFFF#32
  | .word => 0xFFFFFFFF#32

/-- An address is naturally aligned for the width (20_memory.md R111). -/
def isAligned (a : Word) (n : Width) : Bool := a.toNat % bytesOf n == 0

-- ---- modes ----

/-- The number of a mode: U = 0, S = 1, M = 3 (10_state.md R26). -/
def modeNum : Mode → Nat
  | .u => 0
  | .s => 1
  | .m => 3

/-- A mode as MPP holds it (10_state.md R42). -/
def modeBits : Mode → BitVec 2
  | .u => 0#2
  | .s => 1#2
  | .m => 3#2

/-- The mode an MPP field names.  The value 2 is never held (10_state.md R26, R42); the function is total and gives U there (log 11). -/
def modeOfBits (b : BitVec 2) : Mode :=
  if b = 3#2 then .m else if b = 1#2 then .s else .u

-- ---- codes ----

/-- Exception codes (60_exceptions.md R420). -/
def exceptionCode : Exception → Nat
  | .instructionAddressMisaligned => 0
  | .illegalInstruction => 2
  | .breakpoint => 3
  | .loadAddressMisaligned => 4
  | .storeAmoAddressMisaligned => 6
  | .environmentCallFromU => 8
  | .environmentCallFromS => 9
  | .environmentCallFromM => 11
  | .instructionPageFault => 12
  | .loadPageFault => 13
  | .storeAmoPageFault => 15

/-- Interrupt codes, which are bit indices in `mip`, `mie`, `mideleg` (60_exceptions.md R431). -/
def interruptCode : Interrupt → Nat
  | .ssi => 1
  | .msi => 3
  | .sti => 5
  | .mti => 7
  | .sei => 9
  | .mei => 11

/-- What `mcause` or `scause` receives (10_state.md R55): bit 31 marks an interrupt. -/
def causeWord : Trap → Word
  | .exception e => BitVec.ofNat 32 (exceptionCode e)
  | .interrupt i => 0x80000000#32 ||| BitVec.ofNat 32 (interruptCode i)

/-- ECALL's exception by mode: code 8 + priv (46_system.md R342). -/
def ecallException : Mode → Exception
  | .u => .environmentCallFromU
  | .s => .environmentCallFromS
  | .m => .environmentCallFromM

-- ---- mstatus (10_state.md R42) ----

def mstatusSie (w : Word) : Bool := w.getLsbD 1
def mstatusMie (w : Word) : Bool := w.getLsbD 3
def mstatusSpie (w : Word) : Bool := w.getLsbD 5
def mstatusMpie (w : Word) : Bool := w.getLsbD 7
def mstatusSpp (w : Word) : Bool := w.getLsbD 8
def mstatusMppBits (w : Word) : BitVec 2 := w.extractLsb' 11 2
def mstatusMpp (w : Word) : Mode := modeOfBits (mstatusMppBits w)
def mstatusMprv (w : Word) : Bool := w.getLsbD 17
def mstatusSum (w : Word) : Bool := w.getLsbD 18
def mstatusMxr (w : Word) : Bool := w.getLsbD 19

/-- `w` with the MPP field naming the mode. -/
def withMpp (w : Word) (p : Mode) : Word := maskedWrite 0x00001800#32 w (zext (modeBits p) <<< 11)

/-- The bits a CSR write of `mstatus` replaces (R42). -/
def mstatusMask : Word := 0x000E19AA#32

/-- The S-visible bits of `mstatus` (10_state.md R43). -/
def sstatusMask : Word := 0x000C0122#32

/-- A CSR write to `mstatus` (R42, decision D9): the bits of the mask are replaced, but a written MPP of 2 leaves MPP as
it was. -/
def writeMstatus (old v : Word) : Word :=
  if mstatusMppBits v = 2#2 then maskedWrite 0x000E01AA#32 old v else maskedWrite mstatusMask old v

-- ---- satp (10_state.md R57) ----

def satpMode (w : Word) : Bool := w.getLsbD 31
def satpPpn (w : Word) : BitVec 22 := w.extractLsb' 0 22

-- ---- page-table entries (20_memory.md R122) ----

def pteV (p : Word) : Bool := p.getLsbD 0
def pteR (p : Word) : Bool := p.getLsbD 1
def pteW (p : Word) : Bool := p.getLsbD 2
def pteX (p : Word) : Bool := p.getLsbD 3
def pteU (p : Word) : Bool := p.getLsbD 4
def ptePpn (p : Word) : BitVec 22 := p.extractLsb' 10 22
def ptePpn0 (p : Word) : BitVec 10 := p.extractLsb' 10 10
def ptePpn1 (p : Word) : BitVec 12 := p.extractLsb' 20 12

/-- The entry with A set, and D too for a write (20_memory.md R125). -/
def pteTouched (p : Word) (intent : Intent) : Word :=
  match intent with
  | .write => setBit (setBit p 6 true) 7 true
  | .read | .fetch => setBit p 6 true

end Sys2Proof.Machine
end

