-- ==== Sys2Proof/Machine/Operands.lean ====
section
/-! DEFINITION. The operand forms: register operands, immediates, effective addresses and jump targets
(spec 10_state.md R21; 30_encoding.md R173; 42_rv32i_loadstore.md R250; 41_rv32i_control.md R230). -/

namespace Sys2Proof.Machine

/-- `x[i]` (00_scope.md R15): `x[0]` reads 0 (10_state.md R21). -/
def State.x (s : State) (i : Reg) : Word := if i = 0#5 then 0#32 else s.regs[i.toFin]

/-- `x[i] <- v` (00_scope.md R15): a write to `x[0]` is discarded (10_state.md R21). -/
def State.setX (s : State) (i : Reg) (v : Word) : State :=
  if i = 0#5 then s else { s with regs := s.regs.set i.toNat v i.isLt }

/-- `pc_next <- target` (10_state.md R23). -/
def State.setPcNext (s : State) (target : Word) : State := { s with pcNext := target }

/-- The CSR block replaced. -/
def State.setCsr (s : State) (c : CsrBlock) : State := { s with csr := c }

/-- The privilege mode replaced. -/
def State.setPriv (s : State) (p : Mode) : State := { s with priv := p }

/-- `stdby` replaced. -/
def State.setStdby (s : State) (b : Bool) : State := { s with stdby := b }

/-- The reservation replaced (10_state.md R28). -/
def State.setReservation (s : State) (a : PAddr) (v : Bool) : State :=
  { s with reservedAddr := a, reservedValid := v }

/-- `reserved_valid <- false`. -/
def State.dropReservation (s : State) : State := { s with reservedValid := false }

/-- The second operand of SLL, SRL, SRA: the low 5 bits (40_rv32i_alu.md R201). -/
def shiftAmount (v : Word) : Nat := v.toNat % 32

/-- A sign-extended 12-bit immediate (30_encoding.md R173, I and S). -/
def immOf (imm : BitVec 12) : Word := sext imm

/-- The U-immediate: 20 bits above 12 zeros (30_encoding.md R173, U). -/
def upperOf (imm : BitVec 20) : Word := imm ++ 0#12

/-- The CSR immediate, zero-extended (30_encoding.md R173). -/
def uimmOf (u : BitVec 5) : Word := zext u

/-- The effective address of a load or store, `x[rs1] + sext_12(imm)` modulo 2^32 (42_rv32i_loadstore.md R250). -/
def effAddr (rs1 : Reg) (imm : BitVec 12) (s : State) : Word := s.x rs1 + immOf imm

/-- The target of a taken branch, `pc + imm` modulo 2^32 (41_rv32i_control.md R234). -/
def branchTarget (off : BitVec 13) (s : State) : Word := s.pc + sext off

/-- The target of JAL (41_rv32i_control.md R232). -/
def jalTarget (off : BitVec 21) (s : State) : Word := s.pc + sext off

/-- The target of JALR: bit 0 of the sum cleared (41_rv32i_control.md R233). -/
def jalrTarget (rs1 : Reg) (imm : BitVec 12) (s : State) : Word := (s.x rs1 + immOf imm) &&& 0xFFFFFFFE#32

end Sys2Proof.Machine
end

