-- ==== Sys2Proof/Machine/Csr.lean ====
section
/-! DEFINITION. The CSR file (spec 10_state.md section 7; 45_zicsr.md R321, R322): the number map, the access check,
reads, writes and the base of a read-modify-write. -/

namespace Sys2Proof.Machine

/-- The registers the CSR number map names (10_state.md R41).  Counter index i is architectural counter i + 3. -/
inductive CsrReg where
  | sstatus | sie | stvec | scounteren | sscratch | sepc | scause | stval | sip | satp
  | scyclecmp
  | mstatus | misa | medeleg | mideleg | mie | mtvec | mcounteren | mcountinhibit
  | mhpmevent (i : Fin 29)
  | mscratch | mepc | mcause | mtval | mip
  | mcycle | minstret | mhpmcounter (i : Fin 29)
  | mcycleh | minstreth | mhpmcounterh (i : Fin 29)
  | cycle | time | instret | hpmcounter (i : Fin 29)
  | cycleh | timeh | instreth | hpmcounterh (i : Fin 29)
  | mvendorid | marchid | mimpid | mhartid
  deriving DecidableEq, Repr

/-- Position of `n` in the 29 numbers that start at `base` (the `+ i` rows of 10_state.md R41). -/
def hpmIndex (base n : Nat) : Option (Fin 29) :=
  if h : base ≤ n ∧ n - base < 29 then some ⟨n - base, h.2⟩ else none

/-- The registers with one number each (10_state.md R41). -/
def fixedCsrs : List (CsrNum × CsrReg) :=
  [(0x100#12, .sstatus), (0x104#12, .sie), (0x105#12, .stvec), (0x106#12, .scounteren),
   (0x140#12, .sscratch), (0x141#12, .sepc), (0x142#12, .scause), (0x143#12, .stval),
   (0x144#12, .sip), (0x180#12, .satp)] ++
  [(0x300#12, .mstatus), (0x301#12, .misa), (0x302#12, .medeleg), (0x303#12, .mideleg),
   (0x304#12, .mie), (0x305#12, .mtvec), (0x306#12, .mcounteren), (0x320#12, .mcountinhibit),
   (0x340#12, .mscratch), (0x341#12, .mepc), (0x342#12, .mcause), (0x343#12, .mtval),
   (0x344#12, .mip)] ++
  [(0xB00#12, .mcycle), (0xB02#12, .minstret), (0xB80#12, .mcycleh), (0xB82#12, .minstreth),
   (0xC00#12, .cycle), (0xC01#12, .time), (0xC02#12, .instret),
   (0xC80#12, .cycleh), (0xC81#12, .timeh), (0xC82#12, .instreth),
   (0xF11#12, .mvendorid), (0xF12#12, .marchid), (0xF13#12, .mimpid), (0xF14#12, .mhartid)]

/-- The register a number names among the `+ i` rows of 10_state.md R41. -/
def hpmCsrOf (n : CsrNum) : Option CsrReg :=
  ((hpmIndex 0x323 n.toNat).map .mhpmevent) <|>
  ((hpmIndex 0xB03 n.toNat).map .mhpmcounter) <|>
  ((hpmIndex 0xB83 n.toNat).map .mhpmcounterh) <|>
  ((hpmIndex 0xC03 n.toNat).map .hpmcounter) <|>
  ((hpmIndex 0xC83 n.toNat).map .hpmcounterh)

/-- The register a CSR number names (10_state.md R41); `none` is an unimplemented number (R69).  Where `SCYCLECMP_CSR` is a
number that another row of the map uses, which no rule excludes, that row wins and `scyclecmp` has no number: the model's
choice.  DESIGN CHOICE (log 25). -/
def csrOf (p : Platform) (n : CsrNum) : Option CsrReg :=
  ((fixedCsrs.find? fun e => e.1 == n).map (·.2)) <|> hpmCsrOf n <|>
    (if n = p.scyclecmpCsr then some .scyclecmp else none)

-- ---- the access check (45_zicsr.md R321) ----

/-- Bits 9:8 of the number: the lowest mode that may use it (10_state.md R41). -/
def csrMinPriv (n : CsrNum) : Nat := (n.extractLsb' 8 2).toNat

/-- Bits 11:10 of the number are 11: read-only (10_state.md R41). -/
def csrReadOnly (n : CsrNum) : Bool := n.extractLsb' 10 2 == 3#2

/-- A user-level counter shadow, 0xC00..0xC1F or 0xC80..0xC9F (10_state.md R65). -/
def csrIsShadow (n : CsrNum) : Bool := n.extractLsb' 5 7 == 0b1100000#7 || n.extractLsb' 5 7 == 0b1100100#7

/-- The counter-enable condition (45_zicsr.md R321 item 4, 10_state.md R65). -/
def counterEnabled (n : CsrNum) (s : State) : Bool :=
  let bit := (n.extractLsb' 0 5).toNat
  match s.priv with
  | .m => true
  | .s => s.csr.mcounteren.getLsbD bit
  | .u => s.csr.mcounteren.getLsbD bit && s.csr.scounteren.getLsbD bit

/-- The access check: the register, or `none` where the access is illegal (45_zicsr.md R321). -/
def csrCheck (n : CsrNum) (writes : Bool) (s : State) : Option CsrReg :=
  match csrOf s.platform n with
  | none => none
  | some r =>
    if modeNum s.priv < csrMinPriv n then none
    else if writes && csrReadOnly n then none
    else if csrIsShadow n && !counterEnabled n s then none
    else some r

-- ---- reads (45_zicsr.md R322) ----

/-- `mip` as it is observed: SEIP is OR-ed with the external line (10_state.md R49, R32). -/
def effectiveMip (c : CsrBlock) : Word := c.mip ||| (if c.externalSeip then 0x00000200#32 else 0#32)

/-- The S-level interrupt bits (10_state.md R48, R50; 60_exceptions.md R430). -/
def sIntMask : Word := 0x00000222#32

/-- `ReadCSR` (45_zicsr.md R322; 10_state.md R42 to R68). -/
def readCsr (r : CsrReg) (c : CsrBlock) : Word :=
  match r with
  | .sstatus => c.mstatus &&& sstatusMask
  | .sie => c.mie &&& sIntMask
  | .stvec => c.stvec
  | .scounteren => c.scounteren
  | .sscratch => c.sscratch
  | .sepc => c.sepc
  | .scause => c.scause
  | .stval => c.stval
  | .sip => effectiveMip c &&& sIntMask
  | .satp => c.satp
  | .scyclecmp => c.scyclecmp
  | .mstatus => c.mstatus
  | .misa => Config.misa
  | .medeleg => c.medeleg
  | .mideleg => c.mideleg
  | .mie => c.mie
  | .mtvec => c.mtvec
  | .mcounteren => c.mcounteren
  | .mcountinhibit => c.mcountinhibit
  | .mhpmevent i => c.hpmevents[i]
  | .mscratch => c.mscratch
  | .mepc => c.mepc
  | .mcause => c.mcause
  | .mtval => c.mtval
  | .mip => effectiveMip c
  | .mcycle | .cycle => lowHalf c.cycle
  | .minstret | .instret => lowHalf c.instret
  | .mhpmcounter i | .hpmcounter i => lowHalf c.hpmcounters[i]
  | .mcycleh | .cycleh => highHalf c.cycle
  | .minstreth | .instreth => highHalf c.instret
  | .mhpmcounterh i | .hpmcounterh i => highHalf c.hpmcounters[i]
  | .time => lowHalf c.mtime
  | .timeh => highHalf c.mtime
  | .mvendorid | .marchid | .mimpid => 0#32
  | .mhartid => c.mhartid

/-- `RmwBase` (45_zicsr.md R322): the read value, but for `mip` and `sip` the stored word without the external line. -/
def rmwBase (r : CsrReg) (c : CsrBlock) : Word :=
  match r with
  | .mip => c.mip
  | .sip => c.mip &&& sIntMask
  | r => readCsr r c

-- ---- writes (45_zicsr.md R322) ----

/-- `WriteCSR` (45_zicsr.md R322; write masks of 10_state.md R42 to R65).  The read-only registers are never written
(R321 item 3 refuses it first).  `satp` stores all 32 bits, as R57 and decision D37 say; 93_implementation_defined.md I12
says that its bits 30:22 are stuck at 0, and is not followed.  DESIGN CHOICE between the two (log 26). -/
def writeCsr (r : CsrReg) (v : Word) (c : CsrBlock) : CsrBlock :=
  match r with
  | .sstatus => { c with mstatus := maskedWrite sstatusMask c.mstatus v }
  | .sie => { c with mie := maskedWrite sIntMask c.mie v }
  | .stvec => { c with stvec := v }
  | .scounteren => { c with scounteren := v }
  | .sscratch => { c with sscratch := v }
  | .sepc => { c with sepc := v &&& 0xFFFFFFFC#32 }
  | .scause => { c with scause := v }
  | .stval => { c with stval := v }
  | .sip => { c with mip := maskedWrite 0x00000002#32 c.mip v }
  | .satp => { c with satp := v }
  | .scyclecmp => { c with scyclecmp := v }
  | .mstatus => { c with mstatus := writeMstatus c.mstatus v }
  | .misa => c
  | .medeleg => { c with medeleg := v &&& 0x0000B3FF#32 }
  | .mideleg => { c with mideleg := v &&& 0x00000222#32 }
  | .mie => { c with mie := v &&& 0x00000AAA#32 }
  | .mtvec => { c with mtvec := v }
  | .mcounteren => { c with mcounteren := v }
  | .mcountinhibit => { c with mcountinhibit := v &&& 0xFFFFFFFD#32 }
  | .mhpmevent i => { c with hpmevents := c.hpmevents.set i v }
  | .mscratch => { c with mscratch := v }
  | .mepc => { c with mepc := v &&& 0xFFFFFFFC#32 }
  | .mcause => { c with mcause := v }
  | .mtval => { c with mtval := v }
  | .mip => { c with mip := maskedWrite 0x00000222#32 c.mip v }
  | .mcycle => { c with cycle := withLowHalf c.cycle v }
  | .minstret => { c with instret := withLowHalf c.instret v }
  | .mhpmcounter i => { c with hpmcounters := c.hpmcounters.set i (withLowHalf c.hpmcounters[i] v) }
  | .mcycleh => { c with cycle := withHighHalf c.cycle v }
  | .minstreth => { c with instret := withHighHalf c.instret v }
  | .mhpmcounterh i => { c with hpmcounters := c.hpmcounters.set i (withHighHalf c.hpmcounters[i] v) }
  | .cycle | .time | .instret | .hpmcounter _ | .cycleh | .timeh | .instreth | .hpmcounterh _
  | .mvendorid | .marchid | .mimpid | .mhartid => c

end Sys2Proof.Machine
end

