-- ==== Sys2Proof/Machine/Flags.lean ====
section
/-! DEFINITION. Comparisons.  The hardware has no status flags (spec 10_state.md R29): a comparison gives 0 or 1 in a
register (40_rv32i_alu.md R201) or the direction of a branch (41_rv32i_control.md R234 to R239), and there is
no other flag computation. -/

namespace Sys2Proof.Machine

/-- `<s`: two's-complement comparison (00_scope.md R14). -/
def ltSigned (a b : Word) : Bool := decide (a.toInt < b.toInt)

/-- `<u`: unsigned comparison (00_scope.md R14). -/
def ltUnsigned (a b : Word) : Bool := decide (a.toNat < b.toNat)

/-- The register result of a comparison: exactly 0 or 1 (40_rv32i_alu.md R205). -/
def boolWord (c : Bool) : Word := if c then 1#32 else 0#32

end Sys2Proof.Machine
end

