-- ==== Sys2Proof/Machine/Memory.lean ====
section
/-! DEFINITION. Physical memory as the core sees it (spec 20_memory.md sections 1, 2, 6): bytes in canonical form, the
region list, `PMRead`, `PMWrite`, the frame `valid` bits and the reservation probe. -/

namespace Sys2Proof.Machine

-- ---- bytes ----

/-- The canonical form: addresses strictly rising, and no entry equal to what an unlisted address reads as, so that equal
memories are equal data. -/
abbrev Memory.wf (m : Memory) : Prop :=
  m.Pairwise (fun c d => c.1 < d.1) ∧ ∀ c ∈ m, c.2 ≠ Config.unloadedByte

/-- The byte at an address; an unlisted address reads as `Config.unloadedByte` (log 3). -/
def Memory.read : Memory → Nat → Byte
  | [], _ => Config.unloadedByte
  | (k, b) :: m, a => if k = a then b else Memory.read m a

/-- The memory with one byte replaced, in canonical form. -/
def Memory.write : Memory → Nat → Byte → Memory
  | [], a, b => if b = Config.unloadedByte then [] else [(a, b)]
  | (k, c) :: m, a, b =>
    if a < k then (if b = Config.unloadedByte then (k, c) :: m else (a, b) :: (k, c) :: m)
    else if a = k then (if b = Config.unloadedByte then m else (a, b) :: m)
    else (k, c) :: Memory.write m a b

/-- The little-endian value of the bytes at `a` (20_memory.md R110), zero-extended. -/
def Memory.readValue (m : Memory) (a : Nat) : Width → Word
  | .byte => zext (m.read a)
  | .half => zext (m.read (a + 1) ++ m.read a)
  | .word => m.read (a + 3) ++ m.read (a + 2) ++ m.read (a + 1) ++ m.read a

/-- The low bytes of `v` stored little-endian at `a` (20_memory.md R103, R110). -/
def Memory.writeValue (m : Memory) (a : Nat) (v : Word) : Width → Memory
  | .byte => m.write a (v.extractLsb' 0 8)
  | .half => (m.write a (v.extractLsb' 0 8)).write (a + 1) (v.extractLsb' 8 8)
  | .word =>
    (((m.write a (v.extractLsb' 0 8)).write (a + 1) (v.extractLsb' 8 8)).write (a + 2)
      (v.extractLsb' 16 8)).write (a + 3) (v.extractLsb' 24 8)

-- ---- regions and frames ----

/-- The region covering a physical address, by linear scan (20_memory.md R102). -/
def State.regionAt (s : State) (phys : PAddr) : Option Region :=
  s.platform.regions.find? (·.covers phys.toNat)

/-- The address lies in RAM, that is `find_frame` is not null (20_memory.md R105). -/
def State.inRam (s : State) (phys : PAddr) : Bool :=
  match s.regionAt phys with
  | some r => r.isRam
  | none   => false

/-- `align_down(phys, 4096)`: the address of the frame (20_memory.md R160). -/
def frameOf (a : Nat) : Nat := a - a % Config.frameSize

/-- `align_down(phys, 4)`: the reservation granule (20_memory.md R150). -/
def granuleOf (phys : PAddr) : PAddr := phys &&& ~~~3#36

/-- The frame holds one of the `n` bytes at `a`. -/
def frameTouched (f a n : Nat) : Bool := decide (f < a + n ∧ a < f + Config.frameSize)

/-- The `valid` bits after a write of `n` bytes at `a`: cleared for every frame written (20_memory.md R103). -/
def clearValid (valid : List Nat) (a n : Nat) : List Nat := valid.filter fun f => !frameTouched f a n

/-- The `valid` bits with that of frame `f` set (20_memory.md R161). -/
def markValid : List Nat → Nat → List Nat
  | [], f => [f]
  | g :: gs, f => if f < g then f :: g :: gs else if f = g then g :: gs else g :: markValid gs f

-- ---- the reservation probe (20_memory.md R151) ----

/-- The probe of `sc_access` hits: the reservation is held on the word of `phys`. -/
def reservationHit (phys : PAddr) (s : State) : Bool :=
  s.reservedValid && decide (s.reservedAddr = granuleOf phys)

/-- `sc_access(phys)` (20_memory.md R151): the answer, and the state with a reservation that was hit dropped. -/
def scAccess (phys : PAddr) (s : State) : Bool × State :=
  if reservationHit phys s then (true, s.dropReservation) else (false, s)

-- ---- PMRead, PMWrite ----

/-- The value of `PMRead(phys, n, noisy)` (20_memory.md R101): buffer bytes, a device's answer (a free value, log 5), or
all ones where no region covers the address. -/
def pmValue (phys : PAddr) (n : Width) (noisy : Bool) (s : State) : Word :=
  match s.regionAt phys with
  | none => onesOf n
  | some r =>
    match r.backing with
    | .buffer => s.mem.readValue phys.toNat n
    | .device => Config.deviceRead s.tick s.deviceCalls phys.toNat (bytesOf n) noisy &&& onesOf n

/-- The state after `PMRead`: only a noisy read of a device leaves a trace (20_memory.md R107). -/
def pmReadState (phys : PAddr) (n : Width) (noisy : Bool) (s : State) : State :=
  match s.regionAt phys with
  | none => s
  | some r =>
    match r.backing, noisy with
    | .device, true => { s with deviceCalls := .read phys.toNat (bytesOf n) :: s.deviceCalls }
    | .device, false | .buffer, _ => s

/-- `PMRead(phys, n, noisy)` (20_memory.md R101). -/
def pmRead (phys : PAddr) (n : Width) (noisy : Bool) (s : State) : Word × State :=
  (pmValue phys n noisy s, pmReadState phys n noisy s)

/-- `PMWrite` succeeds: a writable region maps the address (20_memory.md R103). -/
def pmWritable (phys : PAddr) (s : State) : Bool :=
  match s.regionAt phys with
  | some r => r.writable
  | none   => false

/-- What a successful `PMWrite` stores: RAM bytes, with the `valid` bit of the frame cleared, or a call of the device's
`write` (20_memory.md R103).  The core's writes are naturally aligned and lie in one region (R102); of a misaligned write by another
agent the first byte's region decides, every byte is stored at its address, beyond the region's end too, and every frame touched
loses its `valid` bit.  DESIGN CHOICE (log 18, log 27). -/
def pmStore (phys : PAddr) (n : Width) (v : Word) (noisy : Bool) (s : State) : State :=
  if s.inRam phys then
    { s with mem := s.mem.writeValue phys.toNat v n
             valid := clearValid s.valid phys.toNat (bytesOf n) }
  else { s with deviceCalls := .write phys.toNat (bytesOf n) (v &&& onesOf n) noisy :: s.deviceCalls }

/-- `PMWrite(phys, n, v, noisy)` (20_memory.md R103): the result, and the state; a successful write probes the reservation
(R152), a refused one changes nothing. -/
def pmWrite (phys : PAddr) (n : Width) (v : Word) (noisy : Bool) (s : State) : Bool × State :=
  if pmWritable phys s then (true, (scAccess phys (pmStore phys n v noisy s)).2) else (false, s)

end Sys2Proof.Machine
end

