-- ==== Sys2Proof/Machine/Translate.lean ====
section
/-! DEFINITION. Sv32 translation (spec 20_memory.md section 3).  `translation` is the walk of R120 as a pure function
(its page-table reads have no side effect, R107); `translate` adds the accessed/dirty write-back of R125. -/

namespace Sys2Proof.Machine

/-- What an operation raises (00_scope.md R15): an exception, with a trap value where the rule gives one. -/
structure Raised where
  exception : Exception
  tval      : Option Word
  deriving DecidableEq, Repr

/-- The result of an operation that may raise: a value, or what is raised, each with the state then. -/
inductive Res (α : Type) where
  | ok     (v : α) (s : State)
  | raised (e : Raised) (s : State)
  deriving DecidableEq, Repr

/-- Effective privilege (20_memory.md R121): `mstatus.MPP` when MPRV is set and the access is not a fetch. -/
def effPriv (intent : Intent) (s : State) : Mode :=
  match intent with
  | .fetch => s.priv
  | .read | .write => if mstatusMprv s.csr.mstatus then mstatusMpp s.csr.mstatus else s.priv

/-- The page fault of an intent (20_memory.md R127). -/
def pageFaultOf : Intent → Exception
  | .fetch => .instructionPageFault
  | .read  => .loadPageFault
  | .write => .storeAmoPageFault

/-- `Valid(pte)` (20_memory.md R123). -/
def pteValid (p : Word) : Bool := pteV p && !(pteW p && !pteR p)

/-- The entry is a leaf: one of R, W, X is 1 (20_memory.md R120). -/
def pteLeaf (p : Word) : Bool := pteR p || pteW p || pteX p

/-- The intent's own permission: the first three lines of 20_memory.md R124. -/
def intentAllowed (p : Word) (intent : Intent) (mstatus : Word) : Bool :=
  match intent with
  | .write => pteW p
  | .fetch => pteX p
  | .read  => pteR p || (mstatusMxr mstatus && pteX p)

/-- The user-page rule: the last two lines of 20_memory.md R124 (`eff = M` never reaches the check). -/
def userAllowed (p : Word) (intent : Intent) (eff : Mode) (mstatus : Word) : Bool :=
  match eff with
  | .u => pteU p
  | .s =>
    if pteU p then
      match intent with
      | .fetch => false
      | .read | .write => mstatusSum mstatus
    else true
  | .m => true

/-- `Allowed(pte, intent, eff)` (20_memory.md R124). -/
def pteAllowed (p : Word) (intent : Intent) (eff : Mode) (mstatus : Word) : Bool :=
  intentAllowed p intent mstatus && userAllowed p intent eff mstatus

/-- The fields of a virtual address (20_memory.md R120). -/
def vpn1 (v : Word) : BitVec 10 := v.extractLsb' 22 10
def vpn0 (v : Word) : BitVec 10 := v.extractLsb' 12 10
def pageOff (v : Word) : BitVec 12 := v.extractLsb' 0 12

/-- The address of entry `vpn` of the table whose page number is `ppn`: `(ppn << 12) + vpn*4` (20_memory.md R120). -/
def pteAddr (ppn : BitVec 22) (vpn : BitVec 10) : PAddr :=
  (ppn.setWidth 36 <<< 12) + (vpn.setWidth 36 <<< 2)

/-- The physical address of a megapage: `{PPN1, vpn0, off}` (20_memory.md R126). -/
def megaAddr (p v : Word) : PAddr := (ptePpn1 p ++ vpn0 v ++ pageOff v).setWidth 36

/-- The physical address of a 4 KiB page: `{PPN, off}` (20_memory.md R126). -/
def pageAddr (p v : Word) : PAddr := (ptePpn p ++ pageOff v).setWidth 36

/-- The leaf a walk ends in: where it lies, its word as read, and the physical address it gives. -/
structure Leaf where
  addr : PAddr
  pte  : Word
  phys : PAddr
  deriving DecidableEq, Repr

/-- A page-table entry as the walk reads it: `PMRead(addr, 4, noisy=false)` (20_memory.md R120). -/
def pteAt (addr : PAddr) (s : State) : Word := pmValue addr .word false s

/-- The leaf of a virtual address (20_memory.md R120), before the permission check; `none` is the page fault. -/
def findLeaf (v : Word) (s : State) : Option Leaf :=
  let addr1 := pteAddr (satpPpn s.csr.satp) (vpn1 v)
  let pte1 := pteAt addr1 s
  if !pteValid pte1 then none
  else if pteLeaf pte1 then
    if ptePpn0 pte1 ≠ 0#10 then none else some { addr := addr1, pte := pte1, phys := megaAddr pte1 v }
  else
    let addr0 := pteAddr (ptePpn pte1) (vpn0 v)
    let pte0 := pteAt addr0 s
    if !pteValid pte0 then none
    else if pteLeaf pte0 then some { addr := addr0, pte := pte0, phys := pageAddr pte0 v }
    else none

/-- What a successful translation gives: the physical address, and the entry to write back, if a table was walked. -/
structure Translation where
  phys      : PAddr
  writeBack : Option (PAddr × Word)
  deriving DecidableEq, Repr

/-- Translation is active: satp not bare and effective privilege below M (20_memory.md R120). -/
def translationActive (intent : Intent) (s : State) : Bool :=
  satpMode s.csr.satp && decide (effPriv intent s ≠ .m)

/-- The walk of 20_memory.md R120 without its write-back; `none` is the page fault of R127. -/
def translation (v : Word) (intent : Intent) (s : State) : Option Translation :=
  if translationActive intent s then
    match findLeaf v s with
    | none => none
    | some l =>
      if pteAllowed l.pte intent (effPriv intent s) s.csr.mstatus then
        some { phys := l.phys, writeBack := some (l.addr, pteTouched l.pte intent) }
      else none
  else some { phys := v.setWidth 36, writeBack := none }

/-- The state after the accessed/dirty write-back: one `PMWrite` of the leaf, its result ignored (20_memory.md R125). -/
def writeBackState (wb : Option (PAddr × Word)) (s : State) : State :=
  match wb with
  | none => s
  | some (addr, pte) => (pmWrite addr .word pte true s).2

/-- `Translate(virt, intent, noisy)` (20_memory.md R120, R125, R127). -/
def translate (v : Word) (intent : Intent) (noisy : Bool) (s : State) : Res PAddr :=
  match translation v intent s with
  | none => .raised { exception := pageFaultOf intent, tval := some v } s
  | some t => .ok t.phys (if noisy then writeBackState t.writeBack s else s)

end Sys2Proof.Machine
end

