-- ==== Sys2Proof/Machine/Ops.lean ====
section
/-! DEFINITION. The operations instructions are made of: the timer window and the access pipelines (spec 20_memory.md
sections 4, 5), taking a trap and returning from one (60_exceptions.md section 2, 46_system.md section 3), and the
shapes in which an instruction completes or raises. -/

namespace Sys2Proof.Machine

/-- The answer of a meaning. -/
abbrev Out := Host.Outcome State Fault Refusal

-- ---- the memory-mapped timers (20_memory.md R140, R141) ----

/-- Which timer register an access hits. -/
inductive Timer where
  | mtime
  | mtimecmp
  deriving DecidableEq, Repr

/-- The address lies in the eight bytes at `base`. -/
def inTimerRange (base v : Word) : Bool := decide (base.toNat ≤ v.toNat ∧ v.toNat < base.toNat + 8)

/-- `TimerHit(virt, n)` (20_memory.md R140): effective privilege M, naturally aligned, in one of the two ranges. -/
def timerHit (v : Word) (n : Width) (s : State) : Option Timer :=
  if effPriv .read s = .m ∧ isAligned v n = true then
    if inTimerRange s.platform.mtimeAddr v then some .mtime
    else if inTimerRange s.platform.mtimecmpAddr v then some .mtimecmp
    else none
  else none

/-- The 64-bit register that was hit. -/
def timerValue (t : Timer) (c : CsrBlock) : DWord :=
  match t with
  | .mtime => c.mtime
  | .mtimecmp => c.mtimecmp

/-- The bit offset `(virt mod 8)*8` (20_memory.md R141). -/
def timerShift (v : Word) : Nat := (v.toNat % 8) * 8

/-- `TimerRead` (20_memory.md R141). -/
def timerRead (t : Timer) (v : Word) (n : Width) (s : State) : Word :=
  (timerValue t s.csr >>> timerShift v).setWidth 32 &&& onesOf n

/-- The register after `TimerWrite` (20_memory.md R141). -/
def timerInsert (reg : DWord) (v : Word) (n : Width) (val : Word) : DWord :=
  let m : DWord := (onesOf n).setWidth 64
  (reg &&& ~~~(m <<< timerShift v)) ||| ((val.setWidth 64 &&& m) <<< timerShift v)

/-- `TimerWrite` (20_memory.md R141). -/
def timerWrite (t : Timer) (v : Word) (n : Width) (val : Word) (s : State) : State :=
  match t with
  | .mtime => s.setCsr { s.csr with mtime := timerInsert s.csr.mtime v n val }
  | .mtimecmp => s.setCsr { s.csr with mtimecmp := timerInsert s.csr.mtimecmp v n val }

-- ---- the access pipelines (20_memory.md R130, R131, R133) ----

/-- The misaligned-address exception of an intent (20_memory.md R111). -/
def misalignedOf : Intent → Exception
  | .fetch => .instructionAddressMisaligned
  | .read  => .loadAddressMisaligned
  | .write => .storeAmoAddressMisaligned

/-- Translation and then the alignment check (20_memory.md R130 steps 2 and 3, R131, R133): the page fault comes first, and
the page-table write-back of a misaligned access has happened.  Where that write-back hits the reserved word it ends the
reservation, as any physical write does (R125, R152), although 44_rv32a.md R291, R292 and 60_exceptions.md R407 say that an
instruction that raises leaves the reservation as it was.  DESIGN CHOICE between the two (log 28). -/
def translateAligned (v : Word) (n : Width) (intent : Intent) (noisy : Bool) (s : State) : Res PAddr :=
  match translate v intent noisy s with
  | .raised e s1 => .raised e s1
  | .ok phys s1 =>
    if isAligned v n then .ok phys s1
    else .raised { exception := misalignedOf intent, tval := some v } s1

/-- `read_mem{8,16,32}` (70_reset_and_hazards.md R504, R505): with `fetch = false` and `noisy = true` the `MemRead` of
20_memory.md R130. -/
def readMem (v : Word) (n : Width) (fetch noisy : Bool) (s : State) : Res Word :=
  match (if fetch then none else timerHit v n s) with
  | some t => .ok (timerRead t v n s) s
  | none =>
    match translateAligned v n (if fetch then .fetch else .read) noisy s with
    | .raised e s1 => .raised e s1
    | .ok phys s1 => .ok (pmRead phys n noisy s1).1 (pmRead phys n noisy s1).2

/-- `write_mem{8,16,32}` (70_reset_and_hazards.md R506): with `noisy = true` the `MemWrite` of 20_memory.md R131.  The
result of `PMWrite` is ignored. -/
def writeMem (v : Word) (n : Width) (val : Word) (noisy : Bool) (s : State) : Res Unit :=
  match timerHit v n s with
  | some t => .ok () (timerWrite t v n val s)
  | none =>
    match translateAligned v n .write noisy s with
    | .raised e s1 => .raised e s1
    | .ok phys s1 => .ok () (pmWrite phys n val noisy s1).2

/-- `MemRead(virt, n)` of a load (20_memory.md R130). -/
def memRead (v : Word) (n : Width) (s : State) : Res Word := readMem v n false true s

/-- `MemWrite(virt, n, v)` of a store (20_memory.md R131). -/
def memWrite (v : Word) (n : Width) (val : Word) (s : State) : Res Unit := writeMem v n val true s

-- ---- taking a trap (60_exceptions.md R410 to R413) ----

/-- `Vector(tvec, code, interrupt)` (60_exceptions.md R413); `none` is the fatal mode 2 or 3. -/
def trapVector (tvec : Word) (t : Trap) : Option Word :=
  let base := tvec &&& 0xFFFFFFFC#32
  match (tvec.extractLsb' 0 2).toNat, t with
  | 0, _ => some base
  | 1, .exception _ => some base
  | 1, .interrupt i => some (base + BitVec.ofNat 32 (4 * interruptCode i))
  | _, _ => none

/-- The pc a trap saves: of the raising instruction, or of the next one for an interrupt (60_exceptions.md R411). -/
def savedPc (t : Trap) (s : State) : Word :=
  match t with
  | .exception _ => s.pc
  | .interrupt _ => s.pcNext

/-- `mstatus` after M-trap entry (60_exceptions.md R411): MPIE takes MIE, MIE is 0, MPP the old mode. -/
def mstatusEnterM (w : Word) (p : Mode) : Word :=
  withMpp (setBit (setBit w 7 (mstatusMie w)) 3 false) p

/-- `mstatus` after S-trap entry (60_exceptions.md R412): SPIE takes SIE, SIE is 0, SPP the old mode. -/
def mstatusEnterS (w : Word) (p : Mode) : Word :=
  setBit (setBit (setBit w 5 (mstatusSie w)) 1 false) 8 (decide (p = .s))

/-- `MTrap(code, interrupt)` (60_exceptions.md R411). -/
def enterM (t : Trap) (s : State) : Out :=
  match trapVector s.csr.mtvec t with
  | none => .fault .badTvecMode
  | some target =>
    .next { s with
      csr := { s.csr with
        mepc := savedPc t s
        mcause := causeWord t
        mtval := s.csr.tvalNext
        mstatus := mstatusEnterM s.csr.mstatus s.priv }
      priv := .m
      stdby := false
      pcNext := target }

/-- `STrap(code, interrupt)` (60_exceptions.md R412). -/
def enterS (t : Trap) (s : State) : Out :=
  match trapVector s.csr.stvec t with
  | none => .fault .badTvecMode
  | some target =>
    .next { s with
      csr := { s.csr with
        sepc := savedPc t s
        scause := causeWord t
        stval := s.csr.tvalNext
        mstatus := mstatusEnterS s.csr.mstatus s.priv }
      priv := .s
      stdby := false
      pcNext := target }

/-- The exception goes to S: delegated, and not raised in M (60_exceptions.md R410). -/
def delegated (e : Exception) (s : State) : Bool :=
  decide (s.priv ≠ .m) && s.csr.medeleg.getLsbD (exceptionCode e)

/-- `HandleException(code)` (60_exceptions.md R410). -/
def handleException (e : Exception) (s : State) : Out :=
  if delegated e s then enterS (.exception e) s else enterM (.exception e) s

/-- The tick's record that an exception was raised, and its trap value in `tval_next` where the rule gives one
(00_scope.md R15; 10_state.md R31; 60_exceptions.md R400). -/
def noteRaised (e : Raised) (s : State) : State :=
  { s with
    exc := some e.exception
    csr := { s.csr with tvalNext := e.tval.getD s.csr.tvalNext } }

/-- TAKING AN EXCEPTION: the one operation by which an instruction or a fetch that raises enters its handler
(60_exceptions.md R400 phase 3, R410).  The accounting of the tick is done around it (log 6). -/
def takeException (e : Raised) (s : State) : Out := handleException e.exception (noteRaised e s)

/-- Raise illegal_instruction with the instruction word as trap value (30_encoding.md R182, 60_exceptions.md R422). -/
def takeIllegal (word : Word) (s : State) : Out :=
  takeException { exception := .illegalInstruction, tval := some word } s

-- ---- returning from a trap (46_system.md R344, R345) ----

/-- `mstatus` after MRET (46_system.md R344): MIE takes MPIE, MPIE is 1, MPP is U, MPRV is cleared unless the new mode is M. -/
def mstatusReturnM (w : Word) : Word :=
  let w1 := withMpp (setBit (setBit w 3 (mstatusMpie w)) 7 true) .u
  if mstatusMpp w = .m then w1 else setBit w1 17 false

/-- The mode SPP names (46_system.md R345). -/
def sppMode (w : Word) : Mode := if mstatusSpp w then .s else .u

/-- `mstatus` after SRET (46_system.md R345): SIE takes SPIE, SPIE is 1, SPP is U, MPRV is cleared. -/
def mstatusReturnS (w : Word) : Word :=
  setBit (setBit (setBit (setBit w 1 (mstatusSpie w)) 5 true) 8 false) 17 false

/-- The state after MRET in M-mode (46_system.md R344). -/
def returnM (s : State) : State :=
  { s with
    csr := { s.csr with mstatus := mstatusReturnM s.csr.mstatus }
    priv := mstatusMpp s.csr.mstatus
    pcNext := s.csr.mepc }

/-- The state after SRET in S- or M-mode (46_system.md R345). -/
def returnS (s : State) : State :=
  { s with
    csr := { s.csr with mstatus := mstatusReturnS s.csr.mstatus }
    priv := sppMode s.csr.mstatus
    pcNext := s.csr.sepc }

-- ---- shapes of instructions ----

/-- An instruction that writes one register and nothing else (40_rv32i_alu.md R200, 43_rv32m.md R270). -/
def writeReg (rd : Reg) (v : Word) (s : State) : Out := .next (s.setX rd v)

/-- A control transfer to `target`: misaligned raises, else `link` runs and `pc_next` is the target
(41_rv32i_control.md R230; a target is misaligned exactly when its bit 1 is 1). -/
def jumpTo (target : Word) (link : State → State) (s : State) : Out :=
  if target.getLsbD 1 then
    takeException { exception := .instructionAddressMisaligned, tval := some target } s
  else .next ((link s).setPcNext target)

/-- A conditional branch (41_rv32i_control.md R230, R234). -/
def branchIf (taken : Bool) (off : BitVec 13) (s : State) : Out :=
  if taken then jumpTo (branchTarget off s) id s else .next s

/-- A load: `MemRead` at the effective address, then the register (42_rv32i_loadstore.md R250, R251). -/
def loadOp (rd rs1 : Reg) (imm : BitVec 12) (n : Width) (extend : Word → Word) (s : State) : Out :=
  match memRead (effAddr rs1 imm s) n s with
  | .raised e s1 => takeException e s1
  | .ok v s1 => .next (s1.setX rd (extend v))

/-- A store: `MemWrite` of the low bytes of `x[rs2]` at the effective address (42_rv32i_loadstore.md R250, R251). -/
def storeOp (rs1 rs2 : Reg) (imm : BitVec 12) (n : Width) (s : State) : Out :=
  match memWrite (effAddr rs1 imm s) n (s.x rs2) s with
  | .raised e s1 => takeException e s1
  | .ok () s1 => .next s1

/-- AMO common operation (44_rv32a.md R293). -/
def amoOp (rd rs1 rs2 : Reg) (f : Word → Word → Word) (s : State) : Out :=
  match translateAligned (s.x rs1) .word .write true s with
  | .raised e s1 => takeException e s1
  | .ok phys s1 =>
    let old := (pmRead phys .word true s1).1
    let s2 := (pmRead phys .word true s1).2
    .next ((pmWrite phys .word (f old (s.x rs2)) true s2).2.setX rd old)

/-- A CSR instruction (45_zicsr.md R320): the check, the read, the write of `new base` if it writes, then `x[rd]`.  `word` is
the instruction's own word, the trap value of a refused access. -/
def csrOp (word : Word) (rd : Reg) (n : CsrNum) (writes : Bool) (new : Word → Word) (s : State) : Out :=
  match csrCheck n writes s with
  | none => takeIllegal word s
  | some r =>
    let old := readCsr r s.csr
    let s1 := if writes then s.setCsr (writeCsr r (new (rmwBase r s.csr)) s.csr) else s
    .next (s1.setX rd old)

end Sys2Proof.Machine
end

