-- ==== Sys2Proof/Machine/Alu.lean ====
section
/-! DEFINITION. RV32I integer computation (spec 40_rv32i_alu.md): each reads its sources, writes `x[rd]`, and touches
nothing else (R200). -/

namespace Sys2Proof.Machine

/-- LUI (R202): the immediate above 12 zeros. -/
def execLui (rd : Reg) (imm : BitVec 20) (s : State) : Out :=
  writeReg rd (upperOf imm) s

/-- AUIPC (R203): the pc of the instruction plus the upper immediate, modulo 2^32. -/
def execAuipc (rd : Reg) (imm : BitVec 20) (s : State) : Out :=
  writeReg rd (s.pc + upperOf imm) s

/-- ADDI (R204): sum modulo 2^32. -/
def execAddi (rd rs1 : Reg) (imm : BitVec 12) (s : State) : Out :=
  writeReg rd (s.x rs1 + immOf imm) s

/-- SLTI (R205): 1 iff less, signed. -/
def execSlti (rd rs1 : Reg) (imm : BitVec 12) (s : State) : Out :=
  writeReg rd (boolWord (ltSigned (s.x rs1) (immOf imm))) s

/-- SLTIU (R206): 1 iff less, the sign-extended immediate taken as unsigned. -/
def execSltiu (rd rs1 : Reg) (imm : BitVec 12) (s : State) : Out :=
  writeReg rd (boolWord (ltUnsigned (s.x rs1) (immOf imm))) s

/-- XORI (R207): bitwise exclusive or. -/
def execXori (rd rs1 : Reg) (imm : BitVec 12) (s : State) : Out :=
  writeReg rd (s.x rs1 ^^^ immOf imm) s

/-- ORI (R208): bitwise or. -/
def execOri (rd rs1 : Reg) (imm : BitVec 12) (s : State) : Out :=
  writeReg rd (s.x rs1 ||| immOf imm) s

/-- ANDI (R209): bitwise and. -/
def execAndi (rd rs1 : Reg) (imm : BitVec 12) (s : State) : Out :=
  writeReg rd (s.x rs1 &&& immOf imm) s

/-- SLLI (R210): left shift, zeros in. -/
def execSlli (rd rs1 : Reg) (shamt : BitVec 5) (s : State) : Out :=
  writeReg rd (s.x rs1 <<< shamt.toNat) s

/-- SRLI (R211): logical right shift. -/
def execSrli (rd rs1 : Reg) (shamt : BitVec 5) (s : State) : Out :=
  writeReg rd (s.x rs1 >>> shamt.toNat) s

/-- SRAI (R212): arithmetic right shift. -/
def execSrai (rd rs1 : Reg) (shamt : BitVec 5) (s : State) : Out :=
  writeReg rd ((s.x rs1).sshiftRight shamt.toNat) s

/-- ADD (R213): sum modulo 2^32. -/
def execAdd (rd rs1 rs2 : Reg) (s : State) : Out :=
  writeReg rd (s.x rs1 + s.x rs2) s

/-- SUB (R214): difference modulo 2^32. -/
def execSub (rd rs1 rs2 : Reg) (s : State) : Out :=
  writeReg rd (s.x rs1 - s.x rs2) s

/-- SLL (R215): left shift by the low 5 bits. -/
def execSll (rd rs1 rs2 : Reg) (s : State) : Out :=
  writeReg rd (s.x rs1 <<< shiftAmount (s.x rs2)) s

/-- SLT (R216): 1 iff less, signed. -/
def execSlt (rd rs1 rs2 : Reg) (s : State) : Out :=
  writeReg rd (boolWord (ltSigned (s.x rs1) (s.x rs2))) s

/-- SLTU (R217): 1 iff less, unsigned. -/
def execSltu (rd rs1 rs2 : Reg) (s : State) : Out :=
  writeReg rd (boolWord (ltUnsigned (s.x rs1) (s.x rs2))) s

/-- XOR (R218): bitwise exclusive or. -/
def execXor (rd rs1 rs2 : Reg) (s : State) : Out :=
  writeReg rd (s.x rs1 ^^^ s.x rs2) s

/-- SRL (R219): logical right shift by the low 5 bits. -/
def execSrl (rd rs1 rs2 : Reg) (s : State) : Out :=
  writeReg rd (s.x rs1 >>> shiftAmount (s.x rs2)) s

/-- SRA (R220): arithmetic right shift by the low 5 bits. -/
def execSra (rd rs1 rs2 : Reg) (s : State) : Out :=
  writeReg rd ((s.x rs1).sshiftRight (shiftAmount (s.x rs2))) s

/-- OR (R221): bitwise or. -/
def execOr (rd rs1 rs2 : Reg) (s : State) : Out :=
  writeReg rd (s.x rs1 ||| s.x rs2) s

/-- AND (R222): bitwise and. -/
def execAnd (rd rs1 rs2 : Reg) (s : State) : Out :=
  writeReg rd (s.x rs1 &&& s.x rs2) s


end Sys2Proof.Machine
end

