-- ==== Sys2Proof/Machine/Atomic.lean ====
section
/-! DEFINITION. A extension (spec 44_rv32a.md).  The atomics translate once and act on the physical address; they never see the
memory-mapped timers (R290, 20_memory.md R133). -/

namespace Sys2Proof.Machine

/-- LR.W (R291): the word, and the reservation on its physical address.  `aq` and `rl` have no effect (R290). -/
def execLrW (rd rs1 : Reg) (_aq _rl : BitVec 1) (s : State) : Out :=
  match translateAligned (s.x rs1) .word .read true s with
  | .raised e s1 => takeException e s1
  | .ok phys s1 =>
    .next (((pmRead phys .word true s1).2.setX rd (pmRead phys .word true s1).1).setReservation
      (granuleOf phys) true)

/-- SC.W (R292): 0 and the store when the reservation is held on the word, else 1; the reservation ends either way.
The reservation is looked at after the translation, whose write-back may have ended it (20_memory.md R152). -/
def execScW (rd rs1 rs2 : Reg) (_aq _rl : BitVec 1) (s : State) : Out :=
  match translateAligned (s.x rs1) .word .write true s with
  | .raised e s1 => takeException e s1
  | .ok phys s1 =>
    if reservationHit phys s1 then
      .next (((pmWrite phys .word (s.x rs2) true s1).2.setX rd 0#32).dropReservation)
    else .next ((s1.setX rd 1#32).dropReservation)

/-- AMOSWAP.W (R294, R293): the word becomes the source; `x[rd]` takes the old word. -/
def execAmoswapW (rd rs1 rs2 : Reg) (_aq _rl : BitVec 1) (s : State) : Out :=
  amoOp rd rs1 rs2 (fun _ src => src) s

/-- AMOADD.W (R295, R293): the word becomes the sum modulo 2^32; `x[rd]` takes the old word. -/
def execAmoaddW (rd rs1 rs2 : Reg) (_aq _rl : BitVec 1) (s : State) : Out :=
  amoOp rd rs1 rs2 (fun old src => old + src) s

/-- AMOXOR.W (R296, R293): the word becomes exclusive or; `x[rd]` takes the old word. -/
def execAmoxorW (rd rs1 rs2 : Reg) (_aq _rl : BitVec 1) (s : State) : Out :=
  amoOp rd rs1 rs2 (fun old src => old ^^^ src) s

/-- AMOAND.W (R297, R293): the word becomes and; `x[rd]` takes the old word. -/
def execAmoandW (rd rs1 rs2 : Reg) (_aq _rl : BitVec 1) (s : State) : Out :=
  amoOp rd rs1 rs2 (fun old src => old &&& src) s

/-- AMOOR.W (R298, R293): the word becomes or; `x[rd]` takes the old word. -/
def execAmoorW (rd rs1 rs2 : Reg) (_aq _rl : BitVec 1) (s : State) : Out :=
  amoOp rd rs1 rs2 (fun old src => old ||| src) s

/-- AMOMIN.W (R299, R293): the word becomes the lesser, signed; `x[rd]` takes the old word. -/
def execAmominW (rd rs1 rs2 : Reg) (_aq _rl : BitVec 1) (s : State) : Out :=
  amoOp rd rs1 rs2 (fun old src => if ltSigned old src then old else src) s

/-- AMOMAX.W (R300, R293): the word becomes the greater, signed; `x[rd]` takes the old word. -/
def execAmomaxW (rd rs1 rs2 : Reg) (_aq _rl : BitVec 1) (s : State) : Out :=
  amoOp rd rs1 rs2 (fun old src => if ltSigned src old then old else src) s

/-- AMOMINU.W (R301, R293): the word becomes the lesser, unsigned; `x[rd]` takes the old word. -/
def execAmominuW (rd rs1 rs2 : Reg) (_aq _rl : BitVec 1) (s : State) : Out :=
  amoOp rd rs1 rs2 (fun old src => if ltUnsigned old src then old else src) s

/-- AMOMAXU.W (R302, R293): the word becomes the greater, unsigned; `x[rd]` takes the old word. -/
def execAmomaxuW (rd rs1 rs2 : Reg) (_aq _rl : BitVec 1) (s : State) : Out :=
  amoOp rd rs1 rs2 (fun old src => if ltUnsigned src old then old else src) s


end Sys2Proof.Machine
end

