-- ==== Sys2Proof/Machine/Control.lean ====
section
/-! DEFINITION. RV32I control transfer (spec 41_rv32i_control.md). -/

namespace Sys2Proof.Machine

/-- `x[rd] <- pc + 4`, the link of JAL and JALR (41_rv32i_control.md R232). -/
def linkTo (rd : Reg) (s : State) : State := s.setX rd (s.pc + 4#32)

/-- JAL (R232). -/
def execJal (rd : Reg) (off : BitVec 21) (s : State) : Out :=
  jumpTo (jalTarget off s) (linkTo rd) s

/-- JALR (R233): the target is computed before the link is written. -/
def execJalr (rd rs1 : Reg) (imm : BitVec 12) (s : State) : Out :=
  jumpTo (jalrTarget rs1 imm s) (linkTo rd) s

/-- BEQ (R234): taken iff equal. -/
def execBeq (rs1 rs2 : Reg) (off : BitVec 13) (s : State) : Out :=
  branchIf (s.x rs1 == s.x rs2) off s

/-- BNE (R235): taken iff not equal. -/
def execBne (rs1 rs2 : Reg) (off : BitVec 13) (s : State) : Out :=
  branchIf (s.x rs1 != s.x rs2) off s

/-- BLT (R236): taken iff less, signed. -/
def execBlt (rs1 rs2 : Reg) (off : BitVec 13) (s : State) : Out :=
  branchIf (ltSigned (s.x rs1) (s.x rs2)) off s

/-- BGE (R237): taken iff not less, signed. -/
def execBge (rs1 rs2 : Reg) (off : BitVec 13) (s : State) : Out :=
  branchIf (!ltSigned (s.x rs1) (s.x rs2)) off s

/-- BLTU (R238): taken iff less, unsigned. -/
def execBltu (rs1 rs2 : Reg) (off : BitVec 13) (s : State) : Out :=
  branchIf (ltUnsigned (s.x rs1) (s.x rs2)) off s

/-- BGEU (R239): taken iff not less, unsigned. -/
def execBgeu (rs1 rs2 : Reg) (off : BitVec 13) (s : State) : Out :=
  branchIf (!ltUnsigned (s.x rs1) (s.x rs2)) off s


end Sys2Proof.Machine
end

