-- ==== Sys2Proof/Syntax.lean ====
section
/-! DEFINITION. The instructions: one constructor per row of spec/opcode_table.json, with every bit of the word
that is not fixed by the row kept as an operand (30_encoding.md R170 to R187).  A field that the machine
ignores (`aq`, `rl`, the fields of FENCE and FENCE.I) is an operand all the same, so that an instruction
determines its word. -/

namespace Sys2Proof

/-- The 70 instructions of 30_encoding.md R170.  Branch and jump offsets are the byte offsets of R173
(13 and 21 bits, bit 0 always 0: see `Instr.wf`). -/
inductive Instr where
  -- upper immediate (40_rv32i_alu.md section 2)
  | lui      (rd : Reg) (imm : BitVec 20)
  | auipc    (rd : Reg) (imm : BitVec 20)
  -- register-immediate (40_rv32i_alu.md section 3)
  | addi     (rd rs1 : Reg) (imm : BitVec 12)
  | slti     (rd rs1 : Reg) (imm : BitVec 12)
  | sltiu    (rd rs1 : Reg) (imm : BitVec 12)
  | xori     (rd rs1 : Reg) (imm : BitVec 12)
  | ori      (rd rs1 : Reg) (imm : BitVec 12)
  | andi     (rd rs1 : Reg) (imm : BitVec 12)
  | slli     (rd rs1 : Reg) (shamt : BitVec 5)
  | srli     (rd rs1 : Reg) (shamt : BitVec 5)
  | srai     (rd rs1 : Reg) (shamt : BitVec 5)
  -- register-register (40_rv32i_alu.md section 4)
  | add      (rd rs1 rs2 : Reg)
  | sub      (rd rs1 rs2 : Reg)
  | sll      (rd rs1 rs2 : Reg)
  | slt      (rd rs1 rs2 : Reg)
  | sltu     (rd rs1 rs2 : Reg)
  | xor      (rd rs1 rs2 : Reg)
  | srl      (rd rs1 rs2 : Reg)
  | sra      (rd rs1 rs2 : Reg)
  | or       (rd rs1 rs2 : Reg)
  | and      (rd rs1 rs2 : Reg)
  -- control transfer (41_rv32i_control.md)
  | jal      (rd : Reg) (off : BitVec 21)
  | jalr     (rd rs1 : Reg) (imm : BitVec 12)
  | beq      (rs1 rs2 : Reg) (off : BitVec 13)
  | bne      (rs1 rs2 : Reg) (off : BitVec 13)
  | blt      (rs1 rs2 : Reg) (off : BitVec 13)
  | bge      (rs1 rs2 : Reg) (off : BitVec 13)
  | bltu     (rs1 rs2 : Reg) (off : BitVec 13)
  | bgeu     (rs1 rs2 : Reg) (off : BitVec 13)
  -- loads and stores (42_rv32i_loadstore.md)
  | lb       (rd rs1 : Reg) (imm : BitVec 12)
  | lh       (rd rs1 : Reg) (imm : BitVec 12)
  | lw       (rd rs1 : Reg) (imm : BitVec 12)
  | lbu      (rd rs1 : Reg) (imm : BitVec 12)
  | lhu      (rd rs1 : Reg) (imm : BitVec 12)
  | sb       (rs1 rs2 : Reg) (imm : BitVec 12)
  | sh       (rs1 rs2 : Reg) (imm : BitVec 12)
  | sw       (rs1 rs2 : Reg) (imm : BitVec 12)
  -- multiply and divide (43_rv32m.md)
  | mul      (rd rs1 rs2 : Reg)
  | mulh     (rd rs1 rs2 : Reg)
  | mulhsu   (rd rs1 rs2 : Reg)
  | mulhu    (rd rs1 rs2 : Reg)
  | div      (rd rs1 rs2 : Reg)
  | divu     (rd rs1 rs2 : Reg)
  | rem      (rd rs1 rs2 : Reg)
  | remu     (rd rs1 rs2 : Reg)
  -- atomics (44_rv32a.md)
  | lrW      (rd rs1 : Reg) (aq rl : BitVec 1)
  | scW      (rd rs1 rs2 : Reg) (aq rl : BitVec 1)
  | amoswapW (rd rs1 rs2 : Reg) (aq rl : BitVec 1)
  | amoaddW  (rd rs1 rs2 : Reg) (aq rl : BitVec 1)
  | amoxorW  (rd rs1 rs2 : Reg) (aq rl : BitVec 1)
  | amoandW  (rd rs1 rs2 : Reg) (aq rl : BitVec 1)
  | amoorW   (rd rs1 rs2 : Reg) (aq rl : BitVec 1)
  | amominW  (rd rs1 rs2 : Reg) (aq rl : BitVec 1)
  | amomaxW  (rd rs1 rs2 : Reg) (aq rl : BitVec 1)
  | amominuW (rd rs1 rs2 : Reg) (aq rl : BitVec 1)
  | amomaxuW (rd rs1 rs2 : Reg) (aq rl : BitVec 1)
  -- CSR access (45_zicsr.md)
  | csrrw    (rd : Reg) (csr : CsrNum) (rs1 : Reg)
  | csrrs    (rd : Reg) (csr : CsrNum) (rs1 : Reg)
  | csrrc    (rd : Reg) (csr : CsrNum) (rs1 : Reg)
  | csrrwi   (rd : Reg) (csr : CsrNum) (uimm : BitVec 5)
  | csrrsi   (rd : Reg) (csr : CsrNum) (uimm : BitVec 5)
  | csrrci   (rd : Reg) (csr : CsrNum) (uimm : BitVec 5)
  -- fences, environment calls, trap return, wait (46_system.md)
  | fence    (fm pred succ : BitVec 4) (rs1 rd : Reg)
  | fenceI   (imm : BitVec 12) (rs1 rd : Reg)
  | ecall
  | ebreak
  | mret
  | sret
  | wfi
  | sfenceVma (rs1 rs2 : Reg)
  deriving DecidableEq, Repr

end Sys2Proof
end

