-- ==== Sys2Proof/WellFormed.lean ====
section
/-! DEFINITION. Which terms of `Instr` are instructions.  The only operand whose type holds more than the encoding
does is a branch or jump offset: bit 0 is no part of the word and is 0 (30_encoding.md R173). -/

namespace Sys2Proof

/-- A B-immediate is even (30_encoding.md R173, B). -/
abbrev branchOffsetWf (off : BitVec 13) : Prop := off.getLsbD 0 = false

/-- A J-immediate is even (30_encoding.md R173, J). -/
abbrev jumpOffsetWf (off : BitVec 21) : Prop := off.getLsbD 0 = false

/-- The instruction has a word (30_encoding.md R172, R173). -/
def Instr.wf : Instr → Bool
  | .jal _ off => decide (jumpOffsetWf off)
  | .beq _ _ off | .bne _ _ off | .blt _ _ off | .bge _ _ off | .bltu _ _ off | .bgeu _ _ off =>
    decide (branchOffsetWf off)
  | .lui .. | .auipc .. | .addi .. | .slti .. | .sltiu .. | .xori .. | .ori .. | .andi ..
  | .slli .. | .srli .. | .srai .. | .add .. | .sub .. | .sll .. | .slt .. | .sltu .. | .xor ..
  | .srl .. | .sra .. | .or .. | .and .. | .jalr .. | .lb .. | .lh .. | .lw .. | .lbu .. | .lhu ..
  | .sb .. | .sh .. | .sw .. | .mul .. | .mulh .. | .mulhsu .. | .mulhu .. | .div .. | .divu ..
  | .rem .. | .remu .. | .lrW .. | .scW .. | .amoswapW .. | .amoaddW .. | .amoxorW .. | .amoandW ..
  | .amoorW .. | .amominW .. | .amomaxW .. | .amominuW .. | .amomaxuW .. | .csrrw .. | .csrrs ..
  | .csrrc .. | .csrrwi .. | .csrrsi .. | .csrrci .. | .fence .. | .fenceI .. | .ecall | .ebreak
  | .mret | .sret | .wfi | .sfenceVma .. => true

end Sys2Proof
end

