-- ==== Sys2Proof/Decode.lean ====
section
/-! DEFINITION. Decoding and encoding (spec 30_encoding.md).  The decoder reads the (mask, match) pairs of R181; the
encoder builds the word from the format tables R172 to R180, so the two are independent readings of the spec. -/

namespace Sys2Proof

-- ---- the fields of a word (R172, R173) ----

def fOpcode (w : Word) : BitVec 7 := w.extractLsb' 0 7
def fRd (w : Word) : Reg := w.extractLsb' 7 5
def fFunct3 (w : Word) : BitVec 3 := w.extractLsb' 12 3
def fRs1 (w : Word) : Reg := w.extractLsb' 15 5
def fRs2 (w : Word) : Reg := w.extractLsb' 20 5
def fFunct7 (w : Word) : BitVec 7 := w.extractLsb' 25 7
/-- Shift amount, `inst[24:20]`. -/
def fShamt (w : Word) : BitVec 5 := w.extractLsb' 20 5
/-- CSR immediate, `inst[19:15]`. -/
def fUimm (w : Word) : BitVec 5 := w.extractLsb' 15 5
/-- CSR number, `inst[31:20]`. -/
def fCsr (w : Word) : CsrNum := w.extractLsb' 20 12
def fAq (w : Word) : BitVec 1 := w.extractLsb' 26 1
def fRl (w : Word) : BitVec 1 := w.extractLsb' 25 1
def fFm (w : Word) : BitVec 4 := w.extractLsb' 28 4
def fPred (w : Word) : BitVec 4 := w.extractLsb' 24 4
def fSucc (w : Word) : BitVec 4 := w.extractLsb' 20 4
/-- I-immediate, `inst[31:20]`. -/
def fImmI (w : Word) : BitVec 12 := w.extractLsb' 20 12
/-- S-immediate, `{inst[31:25], inst[11:7]}`. -/
def fImmS (w : Word) : BitVec 12 := w.extractLsb' 25 7 ++ w.extractLsb' 7 5
/-- B-immediate, `{inst[31], inst[7], inst[30:25], inst[11:8], 0}`. -/
def fImmB (w : Word) : BitVec 13 :=
  w.extractLsb' 31 1 ++ w.extractLsb' 7 1 ++ w.extractLsb' 25 6 ++ w.extractLsb' 8 4 ++ 0#1
/-- U-immediate, `inst[31:12]`. -/
def fImmU (w : Word) : BitVec 20 := w.extractLsb' 12 20
/-- J-immediate, `{inst[31], inst[19:12], inst[20], inst[30:21], 0}`. -/
def fImmJ (w : Word) : BitVec 21 :=
  w.extractLsb' 31 1 ++ w.extractLsb' 12 8 ++ w.extractLsb' 20 1 ++ w.extractLsb' 21 10 ++ 0#1

-- ---- the opcode table (R181) ----

/-- A row of the opcode table: the word is the row's instruction iff `w &&& mask = pat` (R181); `build` extracts
the operand fields. -/
structure OpRow where
  mask  : Word
  pat   : Word
  build : Word → Instr

/-- The word is the row's instruction (R181). -/
def OpRow.hits (r : OpRow) (w : Word) : Bool := (w &&& r.mask) == r.pat

/-- the upper-immediate instructions (R174). -/
def upperRows : List OpRow :=
  [
   { mask := 0x0000007F#32, pat := 0x00000037#32, build := fun w => .lui (fRd w) (fImmU w) },
   { mask := 0x0000007F#32, pat := 0x00000017#32, build := fun w => .auipc (fRd w) (fImmU w) }
  ]

/-- OP-IMM (R175). -/
def immRows : List OpRow :=
  [
   { mask := 0x0000707F#32, pat := 0x00000013#32, build := fun w => .addi (fRd w) (fRs1 w) (fImmI w) },
   { mask := 0x0000707F#32, pat := 0x00002013#32, build := fun w => .slti (fRd w) (fRs1 w) (fImmI w) },
   { mask := 0x0000707F#32, pat := 0x00003013#32, build := fun w => .sltiu (fRd w) (fRs1 w) (fImmI w) },
   { mask := 0x0000707F#32, pat := 0x00004013#32, build := fun w => .xori (fRd w) (fRs1 w) (fImmI w) },
   { mask := 0x0000707F#32, pat := 0x00006013#32, build := fun w => .ori (fRd w) (fRs1 w) (fImmI w) },
   { mask := 0x0000707F#32, pat := 0x00007013#32, build := fun w => .andi (fRd w) (fRs1 w) (fImmI w) },
   { mask := 0xFE00707F#32, pat := 0x00001013#32, build := fun w => .slli (fRd w) (fRs1 w) (fShamt w) },
   { mask := 0xFE00707F#32, pat := 0x00005013#32, build := fun w => .srli (fRd w) (fRs1 w) (fShamt w) },
   { mask := 0xFE00707F#32, pat := 0x40005013#32, build := fun w => .srai (fRd w) (fRs1 w) (fShamt w) }
  ]

/-- OP with funct7 0000000 and 0100000 (R176). -/
def regRows : List OpRow :=
  [
   { mask := 0xFE00707F#32, pat := 0x00000033#32, build := fun w => .add (fRd w) (fRs1 w) (fRs2 w) },
   { mask := 0xFE00707F#32, pat := 0x40000033#32, build := fun w => .sub (fRd w) (fRs1 w) (fRs2 w) },
   { mask := 0xFE00707F#32, pat := 0x00001033#32, build := fun w => .sll (fRd w) (fRs1 w) (fRs2 w) },
   { mask := 0xFE00707F#32, pat := 0x00002033#32, build := fun w => .slt (fRd w) (fRs1 w) (fRs2 w) },
   { mask := 0xFE00707F#32, pat := 0x00003033#32, build := fun w => .sltu (fRd w) (fRs1 w) (fRs2 w) },
   { mask := 0xFE00707F#32, pat := 0x00004033#32, build := fun w => .xor (fRd w) (fRs1 w) (fRs2 w) },
   { mask := 0xFE00707F#32, pat := 0x00005033#32, build := fun w => .srl (fRd w) (fRs1 w) (fRs2 w) },
   { mask := 0xFE00707F#32, pat := 0x40005033#32, build := fun w => .sra (fRd w) (fRs1 w) (fRs2 w) },
   { mask := 0xFE00707F#32, pat := 0x00006033#32, build := fun w => .or (fRd w) (fRs1 w) (fRs2 w) },
   { mask := 0xFE00707F#32, pat := 0x00007033#32, build := fun w => .and (fRd w) (fRs1 w) (fRs2 w) }
  ]

/-- JAL, JALR and BRANCH (R174, R177). -/
def controlRows : List OpRow :=
  [
   { mask := 0x0000007F#32, pat := 0x0000006F#32, build := fun w => .jal (fRd w) (fImmJ w) },
   { mask := 0x0000707F#32, pat := 0x00000067#32, build := fun w => .jalr (fRd w) (fRs1 w) (fImmI w) },
   { mask := 0x0000707F#32, pat := 0x00000063#32, build := fun w => .beq (fRs1 w) (fRs2 w) (fImmB w) },
   { mask := 0x0000707F#32, pat := 0x00001063#32, build := fun w => .bne (fRs1 w) (fRs2 w) (fImmB w) },
   { mask := 0x0000707F#32, pat := 0x00004063#32, build := fun w => .blt (fRs1 w) (fRs2 w) (fImmB w) },
   { mask := 0x0000707F#32, pat := 0x00005063#32, build := fun w => .bge (fRs1 w) (fRs2 w) (fImmB w) },
   { mask := 0x0000707F#32, pat := 0x00006063#32, build := fun w => .bltu (fRs1 w) (fRs2 w) (fImmB w) },
   { mask := 0x0000707F#32, pat := 0x00007063#32, build := fun w => .bgeu (fRs1 w) (fRs2 w) (fImmB w) }
  ]

/-- LOAD (R177). -/
def loadRows : List OpRow :=
  [
   { mask := 0x0000707F#32, pat := 0x00000003#32, build := fun w => .lb (fRd w) (fRs1 w) (fImmI w) },
   { mask := 0x0000707F#32, pat := 0x00001003#32, build := fun w => .lh (fRd w) (fRs1 w) (fImmI w) },
   { mask := 0x0000707F#32, pat := 0x00002003#32, build := fun w => .lw (fRd w) (fRs1 w) (fImmI w) },
   { mask := 0x0000707F#32, pat := 0x00004003#32, build := fun w => .lbu (fRd w) (fRs1 w) (fImmI w) },
   { mask := 0x0000707F#32, pat := 0x00005003#32, build := fun w => .lhu (fRd w) (fRs1 w) (fImmI w) }
  ]

/-- STORE (R177). -/
def storeRows : List OpRow :=
  [
   { mask := 0x0000707F#32, pat := 0x00000023#32, build := fun w => .sb (fRs1 w) (fRs2 w) (fImmS w) },
   { mask := 0x0000707F#32, pat := 0x00001023#32, build := fun w => .sh (fRs1 w) (fRs2 w) (fImmS w) },
   { mask := 0x0000707F#32, pat := 0x00002023#32, build := fun w => .sw (fRs1 w) (fRs2 w) (fImmS w) }
  ]

/-- OP with funct7 0000001 (R176). -/
def mulDivRows : List OpRow :=
  [
   { mask := 0xFE00707F#32, pat := 0x02000033#32, build := fun w => .mul (fRd w) (fRs1 w) (fRs2 w) },
   { mask := 0xFE00707F#32, pat := 0x02001033#32, build := fun w => .mulh (fRd w) (fRs1 w) (fRs2 w) },
   { mask := 0xFE00707F#32, pat := 0x02002033#32, build := fun w => .mulhsu (fRd w) (fRs1 w) (fRs2 w) },
   { mask := 0xFE00707F#32, pat := 0x02003033#32, build := fun w => .mulhu (fRd w) (fRs1 w) (fRs2 w) },
   { mask := 0xFE00707F#32, pat := 0x02004033#32, build := fun w => .div (fRd w) (fRs1 w) (fRs2 w) },
   { mask := 0xFE00707F#32, pat := 0x02005033#32, build := fun w => .divu (fRd w) (fRs1 w) (fRs2 w) },
   { mask := 0xFE00707F#32, pat := 0x02006033#32, build := fun w => .rem (fRd w) (fRs1 w) (fRs2 w) },
   { mask := 0xFE00707F#32, pat := 0x02007033#32, build := fun w => .remu (fRd w) (fRs1 w) (fRs2 w) }
  ]

/-- AMO (R180). -/
def atomicRows : List OpRow :=
  [
   { mask := 0xF9F0707F#32, pat := 0x1000202F#32, build := fun w => .lrW (fRd w) (fRs1 w) (fAq w) (fRl w) },
   { mask := 0xF800707F#32, pat := 0x1800202F#32, build := fun w => .scW (fRd w) (fRs1 w) (fRs2 w) (fAq w) (fRl w) },
   { mask := 0xF800707F#32, pat := 0x0800202F#32, build := fun w => .amoswapW (fRd w) (fRs1 w) (fRs2 w) (fAq w) (fRl w) },
   { mask := 0xF800707F#32, pat := 0x0000202F#32, build := fun w => .amoaddW (fRd w) (fRs1 w) (fRs2 w) (fAq w) (fRl w) },
   { mask := 0xF800707F#32, pat := 0x2000202F#32, build := fun w => .amoxorW (fRd w) (fRs1 w) (fRs2 w) (fAq w) (fRl w) },
   { mask := 0xF800707F#32, pat := 0x6000202F#32, build := fun w => .amoandW (fRd w) (fRs1 w) (fRs2 w) (fAq w) (fRl w) },
   { mask := 0xF800707F#32, pat := 0x4000202F#32, build := fun w => .amoorW (fRd w) (fRs1 w) (fRs2 w) (fAq w) (fRl w) },
   { mask := 0xF800707F#32, pat := 0x8000202F#32, build := fun w => .amominW (fRd w) (fRs1 w) (fRs2 w) (fAq w) (fRl w) },
   { mask := 0xF800707F#32, pat := 0xA000202F#32, build := fun w => .amomaxW (fRd w) (fRs1 w) (fRs2 w) (fAq w) (fRl w) },
   { mask := 0xF800707F#32, pat := 0xC000202F#32, build := fun w => .amominuW (fRd w) (fRs1 w) (fRs2 w) (fAq w) (fRl w) },
   { mask := 0xF800707F#32, pat := 0xE000202F#32, build := fun w => .amomaxuW (fRd w) (fRs1 w) (fRs2 w) (fAq w) (fRl w) }
  ]

/-- SYSTEM with funct3 not 000 (R179). -/
def csrRows : List OpRow :=
  [
   { mask := 0x0000707F#32, pat := 0x00001073#32, build := fun w => .csrrw (fRd w) (fCsr w) (fRs1 w) },
   { mask := 0x0000707F#32, pat := 0x00002073#32, build := fun w => .csrrs (fRd w) (fCsr w) (fRs1 w) },
   { mask := 0x0000707F#32, pat := 0x00003073#32, build := fun w => .csrrc (fRd w) (fCsr w) (fRs1 w) },
   { mask := 0x0000707F#32, pat := 0x00005073#32, build := fun w => .csrrwi (fRd w) (fCsr w) (fUimm w) },
   { mask := 0x0000707F#32, pat := 0x00006073#32, build := fun w => .csrrsi (fRd w) (fCsr w) (fUimm w) },
   { mask := 0x0000707F#32, pat := 0x00007073#32, build := fun w => .csrrci (fRd w) (fCsr w) (fUimm w) }
  ]

/-- MISC-MEM (R178) and the privileged group of SYSTEM (R179). -/
def systemRows : List OpRow :=
  [
   { mask := 0x0000707F#32, pat := 0x0000000F#32, build := fun w => .fence (fFm w) (fPred w) (fSucc w) (fRs1 w) (fRd w) },
   { mask := 0x0000707F#32, pat := 0x0000100F#32, build := fun w => .fenceI (fImmI w) (fRs1 w) (fRd w) },
   { mask := 0xFFFFFFFF#32, pat := 0x00000073#32, build := fun _ => .ecall },
   { mask := 0xFFFFFFFF#32, pat := 0x00100073#32, build := fun _ => .ebreak },
   { mask := 0xFFFFFFFF#32, pat := 0x30200073#32, build := fun _ => .mret },
   { mask := 0xFFFFFFFF#32, pat := 0x10200073#32, build := fun _ => .sret },
   { mask := 0xFFFFFFFF#32, pat := 0x10500073#32, build := fun _ => .wfi },
   { mask := 0xFE007FFF#32, pat := 0x12000073#32, build := fun w => .sfenceVma (fRs1 w) (fRs2 w) }
  ]

/-- The whole table (R181): a word is the instruction of a row iff `w &&& mask = pat`. -/
def opcodeTable : List OpRow :=
  upperRows ++
  immRows ++
  regRows ++
  controlRows ++
  loadRows ++
  storeRows ++
  mulDivRows ++
  atomicRows ++
  csrRows ++
  systemRows

/-- The instruction of a 32-bit word, `none` for an illegal encoding (R181, R182).  Total. -/
def decodeWord (w : Word) : Option Instr := (opcodeTable.find? (·.hits w)).map (·.build w)

/-- Why a sequence of bytes is no instruction. -/
inductive DecodeError where
  /-- Fewer than the four bytes every instruction has (R171, R184). -/
  | tooFewBytes
  /-- The word matches no row: the illegal executor of R182, with the word for the trap value. -/
  | illegalEncoding (w : Word)
  deriving DecidableEq, Repr

/-- The word that four bytes in address order make: little-endian (R171, 20_memory.md R110). -/
def wordOfBytes (b0 b1 b2 b3 : Byte) : Word := b3 ++ b2 ++ b1 ++ b0

/-- The bytes of a word in address order. -/
def bytesOfWord (w : Word) : List Byte :=
  [w.extractLsb' 0 8, w.extractLsb' 8 8, w.extractLsb' 16 8, w.extractLsb' 24 8]

/-- Decoding of bytes in address order: the instruction and the bytes after it, or the reason by name. -/
def decode : List Byte → Except DecodeError (Instr × List Byte)
  | b0 :: b1 :: b2 :: b3 :: rest =>
    match decodeWord (wordOfBytes b0 b1 b2 b3) with
    | some i => .ok (i, rest)
    | none   => .error (.illegalEncoding (wordOfBytes b0 b1 b2 b3))
  | _ => .error .tooFewBytes

/-- What `decode` gives for the table word `w` of `nbits` bits, laid out as the hardware stores it. -/
def decodeTableWord (nbits w : Nat) : Option Instr :=
  match decode (bytesOfWord (BitVec.ofNat 32 (w % 2 ^ nbits))) with
  | .ok (i, _) => some i
  | .error _   => none

-- ---- the encoder (R172 to R180) ----

/-- R format (R172). -/
def encR (funct7 : BitVec 7) (rs2 rs1 : Reg) (funct3 : BitVec 3) (rd : Reg) (opcode : BitVec 7) : Word :=
  funct7 ++ rs2 ++ rs1 ++ funct3 ++ rd ++ opcode

/-- I format (R172). -/
def encI (imm : BitVec 12) (rs1 : Reg) (funct3 : BitVec 3) (rd : Reg) (opcode : BitVec 7) : Word :=
  imm ++ rs1 ++ funct3 ++ rd ++ opcode

/-- S format (R172): `imm[11:5]` in `inst[31:25]`, `imm[4:0]` in `inst[11:7]`. -/
def encS (imm : BitVec 12) (rs2 rs1 : Reg) (funct3 : BitVec 3) (opcode : BitVec 7) : Word :=
  imm.extractLsb' 5 7 ++ rs2 ++ rs1 ++ funct3 ++ imm.extractLsb' 0 5 ++ opcode

/-- B format (R172): `inst[31] = imm[12]`, `inst[30:25] = imm[10:5]`, `inst[11:8] = imm[4:1]`, `inst[7] = imm[11]`. -/
def encB (off : BitVec 13) (rs2 rs1 : Reg) (funct3 : BitVec 3) (opcode : BitVec 7) : Word :=
  off.extractLsb' 12 1 ++ off.extractLsb' 5 6 ++ rs2 ++ rs1 ++ funct3 ++
    off.extractLsb' 1 4 ++ off.extractLsb' 11 1 ++ opcode

/-- U format (R172). -/
def encU (imm : BitVec 20) (rd : Reg) (opcode : BitVec 7) : Word := imm ++ rd ++ opcode

/-- J format (R172): `inst[31] = imm[20]`, `inst[30:21] = imm[10:1]`, `inst[20] = imm[11]`,
`inst[19:12] = imm[19:12]`. -/
def encJ (off : BitVec 21) (rd : Reg) (opcode : BitVec 7) : Word :=
  off.extractLsb' 20 1 ++ off.extractLsb' 1 10 ++ off.extractLsb' 11 1 ++ off.extractLsb' 12 8 ++ rd ++ opcode

/-- R-amo format (R172): `funct5`, `aq`, `rl` in place of `funct7`; funct3 010, opcode AMO (R180). -/
def encAmo (funct5 : BitVec 5) (aq rl : BitVec 1) (rs2 rs1 rd : Reg) : Word :=
  funct5 ++ aq ++ rl ++ rs2 ++ rs1 ++ 0b010#3 ++ rd ++ 0b0101111#7

/-- Major opcodes (R174). -/
def opLoad    : BitVec 7 := 0b0000011#7
def opMiscMem : BitVec 7 := 0b0001111#7
def opImm     : BitVec 7 := 0b0010011#7
def opAuipc   : BitVec 7 := 0b0010111#7
def opStore   : BitVec 7 := 0b0100011#7
def opOp      : BitVec 7 := 0b0110011#7
def opLui     : BitVec 7 := 0b0110111#7
def opBranch  : BitVec 7 := 0b1100011#7
def opJalr    : BitVec 7 := 0b1100111#7
def opJal     : BitVec 7 := 0b1101111#7
def opSystem  : BitVec 7 := 0b1110011#7

/-- The word of an instruction (R172 to R180): every operand field in its place, every fixed field at its value. -/
def encode : Instr → Word
  -- U format (R174)
  | .lui rd imm           => encU imm rd opLui
  | .auipc rd imm         => encU imm rd opAuipc
  -- OP-IMM (R175)
  | .addi rd rs1 imm      => encI imm rs1 0b000#3 rd opImm
  | .slti rd rs1 imm      => encI imm rs1 0b010#3 rd opImm
  | .sltiu rd rs1 imm     => encI imm rs1 0b011#3 rd opImm
  | .xori rd rs1 imm      => encI imm rs1 0b100#3 rd opImm
  | .ori rd rs1 imm       => encI imm rs1 0b110#3 rd opImm
  | .andi rd rs1 imm      => encI imm rs1 0b111#3 rd opImm
  | .slli rd rs1 shamt    => encR 0b0000000#7 shamt rs1 0b001#3 rd opImm
  | .srli rd rs1 shamt    => encR 0b0000000#7 shamt rs1 0b101#3 rd opImm
  | .srai rd rs1 shamt    => encR 0b0100000#7 shamt rs1 0b101#3 rd opImm
  -- OP, funct7 0000000 and 0100000 (R176)
  | .add rd rs1 rs2       => encR 0b0000000#7 rs2 rs1 0b000#3 rd opOp
  | .sub rd rs1 rs2       => encR 0b0100000#7 rs2 rs1 0b000#3 rd opOp
  | .sll rd rs1 rs2       => encR 0b0000000#7 rs2 rs1 0b001#3 rd opOp
  | .slt rd rs1 rs2       => encR 0b0000000#7 rs2 rs1 0b010#3 rd opOp
  | .sltu rd rs1 rs2      => encR 0b0000000#7 rs2 rs1 0b011#3 rd opOp
  | .xor rd rs1 rs2       => encR 0b0000000#7 rs2 rs1 0b100#3 rd opOp
  | .srl rd rs1 rs2       => encR 0b0000000#7 rs2 rs1 0b101#3 rd opOp
  | .sra rd rs1 rs2       => encR 0b0100000#7 rs2 rs1 0b101#3 rd opOp
  | .or rd rs1 rs2        => encR 0b0000000#7 rs2 rs1 0b110#3 rd opOp
  | .and rd rs1 rs2       => encR 0b0000000#7 rs2 rs1 0b111#3 rd opOp
  -- JAL, JALR, BRANCH (R174, R177)
  | .jal rd off           => encJ off rd opJal
  | .jalr rd rs1 imm      => encI imm rs1 0b000#3 rd opJalr
  | .beq rs1 rs2 off      => encB off rs2 rs1 0b000#3 opBranch
  | .bne rs1 rs2 off      => encB off rs2 rs1 0b001#3 opBranch
  | .blt rs1 rs2 off      => encB off rs2 rs1 0b100#3 opBranch
  | .bge rs1 rs2 off      => encB off rs2 rs1 0b101#3 opBranch
  | .bltu rs1 rs2 off     => encB off rs2 rs1 0b110#3 opBranch
  | .bgeu rs1 rs2 off     => encB off rs2 rs1 0b111#3 opBranch
  -- LOAD, STORE (R177)
  | .lb rd rs1 imm        => encI imm rs1 0b000#3 rd opLoad
  | .lh rd rs1 imm        => encI imm rs1 0b001#3 rd opLoad
  | .lw rd rs1 imm        => encI imm rs1 0b010#3 rd opLoad
  | .lbu rd rs1 imm       => encI imm rs1 0b100#3 rd opLoad
  | .lhu rd rs1 imm       => encI imm rs1 0b101#3 rd opLoad
  | .sb rs1 rs2 imm       => encS imm rs2 rs1 0b000#3 opStore
  | .sh rs1 rs2 imm       => encS imm rs2 rs1 0b001#3 opStore
  | .sw rs1 rs2 imm       => encS imm rs2 rs1 0b010#3 opStore
  -- OP, funct7 0000001 (R176)
  | .mul rd rs1 rs2       => encR 0b0000001#7 rs2 rs1 0b000#3 rd opOp
  | .mulh rd rs1 rs2      => encR 0b0000001#7 rs2 rs1 0b001#3 rd opOp
  | .mulhsu rd rs1 rs2    => encR 0b0000001#7 rs2 rs1 0b010#3 rd opOp
  | .mulhu rd rs1 rs2     => encR 0b0000001#7 rs2 rs1 0b011#3 rd opOp
  | .div rd rs1 rs2       => encR 0b0000001#7 rs2 rs1 0b100#3 rd opOp
  | .divu rd rs1 rs2      => encR 0b0000001#7 rs2 rs1 0b101#3 rd opOp
  | .rem rd rs1 rs2       => encR 0b0000001#7 rs2 rs1 0b110#3 rd opOp
  | .remu rd rs1 rs2      => encR 0b0000001#7 rs2 rs1 0b111#3 rd opOp
  -- AMO (R180)
  | .lrW rd rs1 aq rl          => encAmo 0b00010#5 aq rl 0#5 rs1 rd
  | .scW rd rs1 rs2 aq rl      => encAmo 0b00011#5 aq rl rs2 rs1 rd
  | .amoswapW rd rs1 rs2 aq rl => encAmo 0b00001#5 aq rl rs2 rs1 rd
  | .amoaddW rd rs1 rs2 aq rl  => encAmo 0b00000#5 aq rl rs2 rs1 rd
  | .amoxorW rd rs1 rs2 aq rl  => encAmo 0b00100#5 aq rl rs2 rs1 rd
  | .amoandW rd rs1 rs2 aq rl  => encAmo 0b01100#5 aq rl rs2 rs1 rd
  | .amoorW rd rs1 rs2 aq rl   => encAmo 0b01000#5 aq rl rs2 rs1 rd
  | .amominW rd rs1 rs2 aq rl  => encAmo 0b10000#5 aq rl rs2 rs1 rd
  | .amomaxW rd rs1 rs2 aq rl  => encAmo 0b10100#5 aq rl rs2 rs1 rd
  | .amominuW rd rs1 rs2 aq rl => encAmo 0b11000#5 aq rl rs2 rs1 rd
  | .amomaxuW rd rs1 rs2 aq rl => encAmo 0b11100#5 aq rl rs2 rs1 rd
  -- SYSTEM, funct3 not 000 (R179)
  | .csrrw rd csr rs1     => encI csr rs1 0b001#3 rd opSystem
  | .csrrs rd csr rs1     => encI csr rs1 0b010#3 rd opSystem
  | .csrrc rd csr rs1     => encI csr rs1 0b011#3 rd opSystem
  | .csrrwi rd csr uimm   => encI csr uimm 0b101#3 rd opSystem
  | .csrrsi rd csr uimm   => encI csr uimm 0b110#3 rd opSystem
  | .csrrci rd csr uimm   => encI csr uimm 0b111#3 rd opSystem
  -- MISC-MEM (R178) and the privileged group (R179)
  | .fence fm pred succ rs1 rd => encI (fm ++ pred ++ succ) rs1 0b000#3 rd opMiscMem
  | .fenceI imm rs1 rd    => encI imm rs1 0b001#3 rd opMiscMem
  | .ecall                => 0x00000073#32
  | .ebreak               => 0x00100073#32
  | .mret                 => 0x30200073#32
  | .sret                 => 0x10200073#32
  | .wfi                  => 0x10500073#32
  | .sfenceVma rs1 rs2    => encR 0b0001001#7 rs2 rs1 0b000#3 0#5 opSystem

end Sys2Proof
end

