-- ==== Sys2Proof/Machine/CsrInstr.lean ====
section
/-! DEFINITION. CSR access instructions (spec 45_zicsr.md).  The trap value of a refused access is the instruction's own word, `encode` of
it (R321; log 17). -/

namespace Sys2Proof.Machine

/-- CSRRW (R323): always writes. -/
def execCsrrw (rd : Reg) (csr : CsrNum) (rs1 : Reg) (s : State) : Out :=
  csrOp (encode (.csrrw rd csr rs1)) rd csr true (fun _ => s.x rs1) s

/-- CSRRS (R324): writes iff the register number rs1 is not 0. -/
def execCsrrs (rd : Reg) (csr : CsrNum) (rs1 : Reg) (s : State) : Out :=
  csrOp (encode (.csrrs rd csr rs1)) rd csr (rs1 != 0#5) (fun base => base ||| s.x rs1) s

/-- CSRRC (R325): writes iff the register number rs1 is not 0. -/
def execCsrrc (rd : Reg) (csr : CsrNum) (rs1 : Reg) (s : State) : Out :=
  csrOp (encode (.csrrc rd csr rs1)) rd csr (rs1 != 0#5) (fun base => base &&& ~~~(s.x rs1)) s

/-- CSRRWI (R326): always writes. -/
def execCsrrwi (rd : Reg) (csr : CsrNum) (uimm : BitVec 5) (s : State) : Out :=
  csrOp (encode (.csrrwi rd csr uimm)) rd csr true (fun _ => uimmOf uimm) s

/-- CSRRSI (R327): writes iff the immediate is not 0. -/
def execCsrrsi (rd : Reg) (csr : CsrNum) (uimm : BitVec 5) (s : State) : Out :=
  csrOp (encode (.csrrsi rd csr uimm)) rd csr (uimm != 0#5) (fun base => base ||| uimmOf uimm) s

/-- CSRRCI (R328): writes iff the immediate is not 0. -/
def execCsrrci (rd : Reg) (csr : CsrNum) (uimm : BitVec 5) (s : State) : Out :=
  csrOp (encode (.csrrci rd csr uimm)) rd csr (uimm != 0#5) (fun base => base &&& ~~~(uimmOf uimm)) s


end Sys2Proof.Machine
end

