-- ==== Sys2Proof/Machine/LoadStore.lean ====
section
/-! DEFINITION. RV32I loads and stores (spec 42_rv32i_loadstore.md). -/

namespace Sys2Proof.Machine

/-- Sign extension of a byte and of a halfword (42_rv32i_loadstore.md R252, R253). -/
def signByte (v : Word) : Word := sext (v.extractLsb' 0 8)
def signHalf (v : Word) : Word := sext (v.extractLsb' 0 16)

/-- Zero extension of a byte and of a halfword (R255, R256). -/
def zeroByte (v : Word) : Word := zext (v.extractLsb' 0 8)
def zeroHalf (v : Word) : Word := zext (v.extractLsb' 0 16)

/-- LB (R252): a byte, sign-extended. -/
def execLb (rd rs1 : Reg) (imm : BitVec 12) (s : State) : Out :=
  loadOp rd rs1 imm .byte signByte s

/-- LH (R253): a halfword, sign-extended. -/
def execLh (rd rs1 : Reg) (imm : BitVec 12) (s : State) : Out :=
  loadOp rd rs1 imm .half signHalf s

/-- LW (R254): a word. -/
def execLw (rd rs1 : Reg) (imm : BitVec 12) (s : State) : Out :=
  loadOp rd rs1 imm .word id s

/-- LBU (R255): a byte, zero-extended. -/
def execLbu (rd rs1 : Reg) (imm : BitVec 12) (s : State) : Out :=
  loadOp rd rs1 imm .byte zeroByte s

/-- LHU (R256): a halfword, zero-extended. -/
def execLhu (rd rs1 : Reg) (imm : BitVec 12) (s : State) : Out :=
  loadOp rd rs1 imm .half zeroHalf s

/-- SB (R257): stores the low byte of `x[rs2]`. -/
def execSb (rs1 rs2 : Reg) (imm : BitVec 12) (s : State) : Out :=
  storeOp rs1 rs2 imm .byte s

/-- SH (R258): stores the low halfword of `x[rs2]`. -/
def execSh (rs1 rs2 : Reg) (imm : BitVec 12) (s : State) : Out :=
  storeOp rs1 rs2 imm .half s

/-- SW (R259): stores the word of `x[rs2]`. -/
def execSw (rs1 rs2 : Reg) (imm : BitVec 12) (s : State) : Out :=
  storeOp rs1 rs2 imm .word s


end Sys2Proof.Machine
end

