-- ==== Sys2Proof/Machine/MulDiv.lean ====
section
/-! DEFINITION. M extension (spec 43_rv32m.md): no exception, in particular none for a division by zero (R270). -/

namespace Sys2Proof.Machine

/-- The high half of an exact product, as a 64-bit two's-complement number (R271, R273). -/
def highProduct (a b : Int) : Word := highHalf (BitVec.ofInt 64 (a * b))

/-- DIV's result (R276, R271): toward zero; -1 for divisor 0; the dividend on signed overflow. -/
def divSigned (a b : Word) : Word :=
  if b = 0#32 then 0xFFFFFFFF#32
  else if a = 0x80000000#32 ∧ b = 0xFFFFFFFF#32 then 0x80000000#32
  else BitVec.ofInt 32 (a.toInt.tdiv b.toInt)

/-- DIVU's result (R277, R271). -/
def divUnsigned (a b : Word) : Word :=
  if b = 0#32 then 0xFFFFFFFF#32 else BitVec.ofNat 32 (a.toNat / b.toNat)

/-- REM's result (R278, R271): the sign of the dividend; the dividend for divisor 0; 0 on signed overflow. -/
def remSigned (a b : Word) : Word :=
  if b = 0#32 then a
  else if a = 0x80000000#32 ∧ b = 0xFFFFFFFF#32 then 0#32
  else BitVec.ofInt 32 (a.toInt - b.toInt * a.toInt.tdiv b.toInt)

/-- REMU's result (R279, R271). -/
def remUnsigned (a b : Word) : Word :=
  if b = 0#32 then a else BitVec.ofNat 32 (a.toNat % b.toNat)

/-- MUL (R272): low half of the product. -/
def execMul (rd rs1 rs2 : Reg) (s : State) : Out :=
  writeReg rd (s.x rs1 * s.x rs2) s

/-- MULH (R273): high half, signed by signed. -/
def execMulh (rd rs1 rs2 : Reg) (s : State) : Out :=
  writeReg rd (highProduct (s.x rs1).toInt (s.x rs2).toInt) s

/-- MULHSU (R274): high half, signed by unsigned. -/
def execMulhsu (rd rs1 rs2 : Reg) (s : State) : Out :=
  writeReg rd (highProduct (s.x rs1).toInt (s.x rs2).toNat) s

/-- MULHU (R275): high half, unsigned by unsigned. -/
def execMulhu (rd rs1 rs2 : Reg) (s : State) : Out :=
  writeReg rd (highProduct (s.x rs1).toNat (s.x rs2).toNat) s

/-- DIV (R276): signed quotient. -/
def execDiv (rd rs1 rs2 : Reg) (s : State) : Out :=
  writeReg rd (divSigned (s.x rs1) (s.x rs2)) s

/-- DIVU (R277): unsigned quotient. -/
def execDivu (rd rs1 rs2 : Reg) (s : State) : Out :=
  writeReg rd (divUnsigned (s.x rs1) (s.x rs2)) s

/-- REM (R278): signed remainder. -/
def execRem (rd rs1 rs2 : Reg) (s : State) : Out :=
  writeReg rd (remSigned (s.x rs1) (s.x rs2)) s

/-- REMU (R279): unsigned remainder. -/
def execRemu (rd rs1 rs2 : Reg) (s : State) : Out :=
  writeReg rd (remUnsigned (s.x rs1) (s.x rs2)) s


end Sys2Proof.Machine
end

