-- ==== Sys2Proof/Machine/System.lean ====
section
/-! DEFINITION. Fences, environment calls, trap return and WFI (spec 46_system.md). -/

namespace Sys2Proof.Machine

/-- FENCE (R340): nothing, in every mode. -/
def execFence (_fm _pred _succ : BitVec 4) (_rs1 _rd : Reg) (s : State) : Out :=
  .next s

/-- FENCE.I (R341): nothing, in every mode. -/
def execFenceI (_imm : BitVec 12) (_rs1 _rd : Reg) (s : State) : Out :=
  .next s

/-- SFENCE.VMA (R347): illegal in U-mode, else nothing. -/
def execSfenceVma (rs1 rs2 : Reg) (s : State) : Out :=
  if s.priv = .u then takeIllegal (encode (.sfenceVma rs1 rs2)) s else .next s

/-- ECALL (R342): environment_call of the mode; `tval_next` is not written. -/
def execEcall (s : State) : Out :=
  takeException { exception := ecallException s.priv, tval := none } s

/-- EBREAK (R343): breakpoint; `tval_next` is not written. -/
def execEbreak (s : State) : Out :=
  takeException { exception := .breakpoint, tval := none } s

/-- MRET (R344): illegal below M-mode. -/
def execMret (s : State) : Out :=
  if s.priv = .m then .next (returnM s) else takeIllegal (encode .mret) s

/-- SRET (R345): illegal in U-mode. -/
def execSret (s : State) : Out :=
  if s.priv = .u then takeIllegal (encode .sret) s else .next (returnS s)

/-- WFI (R346): enters standby, in every mode. -/
def execWfi (s : State) : Out :=
  .next (s.setStdby true)


end Sys2Proof.Machine
end

