-- ==== Sys2Proof/Machine/Fetch.lean ====
section
/-! DEFINITION. The decoded-instruction cache controller (spec 20_memory.md section 8): `DIC.fetch` as the controller
works.  That it always gives the word now in memory (R165) is a theorem about it. -/

namespace Sys2Proof.Machine

/-- The bytes of memory that lie in the frame at `f`. -/
def frameImage (m : Memory) (f : Nat) : Memory :=
  m.filter fun c => decide (f ≤ c.1 ∧ c.1 < f + Config.frameSize)

/-- The frame at `f` decoded now (20_memory.md R161): its words as memory holds them. -/
def decodedNow (f : Nat) (s : State) : DicEntry := { frame := f, image := frameImage s.mem f }

/-- The word of the slot `(phys mod 4096)/4` of an entry (20_memory.md R160). -/
def slotWord (e : DicEntry) (phys : PAddr) : Word := e.image.readValue (granuleOf phys).toNat .word

/-- The cache with the entry of the same frame replaced. -/
def replaceEntry (dic : List DicEntry) (e : DicEntry) : List DicEntry :=
  dic.map fun d => if d.frame = e.frame then e else d

/-- The entry of a frame, by linear scan (20_memory.md R160). -/
def dicFind (f : Nat) (s : State) : Option DicEntry := s.dic.find? fun e => e.frame == f

/-- `DIC.fetch(cpu, phys)` (20_memory.md R160 to R162): the raw word of the slot, which the executor is the decoding of, and
the state; `none` when a new entry is needed and the host cannot allocate it. -/
def dicFetch (allocFails : Bool) (phys : PAddr) (s : State) : Option (Word × State) :=
  let f := frameOf phys.toNat
  let e := decodedNow f s
  match dicFind f s with
  | some hit =>
    if s.valid.contains f then some (slotWord hit phys, s)
    else some (slotWord e phys, { s with dic := replaceEntry s.dic e, valid := markValid s.valid f })
  | none =>
    if s.inRam phys then
      if allocFails then none
      else some (slotWord e phys, { s with dic := s.dic ++ [e], valid := markValid s.valid f })
    else some (pmValue (granuleOf phys) .word false s, s)

end Sys2Proof.Machine
end

