-- ==== Sys2Proof/Machine/HostOps.lean ====
section
/-! DEFINITION. The host-facing operations (spec 70_reset_and_hazards.md section 1; 60_exceptions.md R440, R441;
20_memory.md R151, R152), each a transformation of the state between two ticks. -/

namespace Sys2Proof.Machine

/-- `cpu_init(cpu, hartid)` (70_reset_and_hazards.md R500; 10_state.md R90): a full reset of the hart; memory, devices, the
platform and the outside's schedule are untouched (log 16). -/
def cpuInit (hartid : Word) (s : State) : State :=
  { State.reset with
    pc := s.platform.resetPc
    pcNext := s.platform.resetPc + 4#32
    csr := { CsrBlock.reset with mhartid := hartid }
    mem := s.mem
    platform := s.platform
    tick := s.tick
    deviceCalls := s.deviceCalls
    inputs := s.inputs
    finished := s.finished }

/-- `cpu_done(cpu)` (70_reset_and_hazards.md R501): the hart's life ends and `clear_all()` empties the decode cache
(20_memory.md R164). -/
def cpuDone (s : State) : State := { s with dic := [], finished := true }

/-- `cpu_set_pc(cpu, value)` (70_reset_and_hazards.md R502): a misaligned value is fatal. -/
def cpuSetPc (value : Word) (s : State) : Out :=
  if isAligned value .word then .next { s with pc := value, pcNext := value + 4#32 }
  else .fault .misalignedSetPc

/-- The bit of `mip` a line code sets, SEI apart: MSI, SSI, MEI their own, any other code MEI (60_exceptions.md R440). -/
def lineBit (code : Nat) : Nat := if code = 3 then 3 else if code = 1 then 1 else 11

/-- An interrupt line driven to `level` (60_exceptions.md R440, R441). -/
def driveLine (code : Nat) (level : Bool) (s : State) : State :=
  if code = 9 then s.setCsr { s.csr with externalSeip := level }
  else s.setCsr { s.csr with mip := setBit s.csr.mip (lineBit code) level }

/-- `interrupt_up(cpu, code)` (60_exceptions.md R440). -/
def interruptUp (code : Nat) (s : State) : State := driveLine code true s

/-- `interrupt_down(cpu, code)` (60_exceptions.md R441). -/
def interruptDown (code : Nat) (s : State) : State := driveLine code false s

/-- What a host call of `read_mem` or `write_mem` leaves: an exception code is returned instead of being raised, so
`tval_next` stays as it was (70_reset_and_hazards.md R504, R506; 00_scope.md R15; log 12). -/
def hostAccessState {α : Type} (r : Res α) : State :=
  match r with
  | .ok _ s => s
  | .raised _ s => s

/-- A write through physical memory by another hart, a device or the host (20_memory.md R103, R152). -/
def physWrite (phys : PAddr) (n : Width) (v : Word) (s : State) : State := (pmWrite phys n v true s).2

/-- One host operation (00_scope.md R10).  After `cpu_done` none may be applied (70_reset_and_hazards.md R501). -/
def applyHostOp (op : HostOp) (s : State) : Out :=
  if s.finished then .refused .hartDone
  else
    match op with
    | .init hartid => .next (cpuInit hartid s)
    | .done => .next (cpuDone s)
    | .setPc value => cpuSetPc value s
    | .readMem v n fetch noisy => .next (hostAccessState (readMem v n fetch noisy s))
    | .writeMem v n val noisy => .next (hostAccessState (writeMem v n val noisy s))
    | .interruptUp code => .next (interruptUp code s)
    | .interruptDown code => .next (interruptDown code s)
    | .scAccess phys => .next (scAccess phys s).2
    | .physWrite phys n v => .next (physWrite phys n v s)

/-- The host operations between two ticks, in order (70_reset_and_hazards.md R507: serialised). -/
def runHostOps : List HostOp → State → Out
  | [], s => .next s
  | op :: ops, s =>
    match applyHostOp op s with
    | .next s1 => runHostOps ops s1
    | .fault r => .fault r
    | .refused r => .refused r

end Sys2Proof.Machine
end

