-- ==== Sys2Proof/Machine/Tick.lean ====
section
/-! DEFINITION. The tick (spec 60_exceptions.md R400): fetch and execute, account, interrupt, advance. -/

namespace Sys2Proof.Machine

-- ---- phase 1: fetch and execute ----

/-- A word at the pc is executed: the decoded instruction, or the illegal executor (30_encoding.md R181, R182). -/
def execWord (w : Word) (s : State) : Out :=
  match decodeWord w with
  | some i => exec i s
  | none => takeIllegal w s

/-- Fetch at the pc and execute (60_exceptions.md R400 phase 1; 20_memory.md R132). -/
def fetchAndExec (allocFails : Bool) (s : State) : Out :=
  match translate s.pc .fetch true s with
  | .raised e s1 => takeException e s1
  | .ok phys s1 =>
    match dicFetch allocFails phys s1 with
    | none => .fault .dicAllocation
    | some (w, s2) => execWord w s2

/-- `exc <- none`. -/
def clearExc (s : State) : State := { s with exc := none }

/-- Phase 1 (60_exceptions.md R400): nothing is fetched in standby. -/
def phase1 (allocFails : Bool) (s : State) : Out :=
  if s.stdby then .next (clearExc s) else fetchAndExec allocFails (clearExc s)

-- ---- phase 2: account ----

/-- `Event(e)` (60_exceptions.md R405, 10_state.md R63). -/
def hpmEvent (inStandby : Bool) (e : Word) (p : Mode) (stdby : Bool) : Bool :=
  if e = 1#32 then decide (p = .u) && (inStandby || !stdby)
  else if e = 2#32 then decide (p = .s) && (inStandby || !stdby)
  else if e = 3#32 then decide (p = .m) && (inStandby || !stdby)
  else if e = 4#32 then stdby
  else false

/-- `d + 1` if `b`, modulo 2^64. -/
def bump (b : Bool) (d : DWord) : DWord := if b then d + 1#64 else d

/-- Hardware performance counter `i` after the accounting (60_exceptions.md R405, 10_state.md R62). -/
def hpmNext (inStandby : Bool) (p : Mode) (stdby : Bool) (c : CsrBlock) (i : Fin 29) : DWord :=
  bump (!c.mcountinhibit.getLsbD (i.val + 3) && hpmEvent inStandby c.hpmevents[i] p stdby) c.hpmcounters[i]

/-- The counters and `mtime` after the accounting (60_exceptions.md R401, R402, R403, R405). -/
def countersNext (inStandby : Bool) (p : Mode) (stdby raised : Bool) (delta : DWord) (c : CsrBlock) : CsrBlock :=
  { c with
    cycle := bump (!c.mcountinhibit.getLsbD 0) c.cycle
    mtime := c.mtime + delta
    instret := bump (!raised && !stdby && !c.mcountinhibit.getLsbD 2) c.instret
    hpmcounters := Vector.ofFn (hpmNext inStandby p stdby c) }

/-- The timer pending bits recomputed (60_exceptions.md R404). -/
def timersPending (c : CsrBlock) : CsrBlock :=
  { c with
    mip := setBit (setBit c.mip 5 (decide (c.scyclecmp.toNat ≤ (lowHalf c.cycle).toNat))) 7
      (decide (c.mtimecmp.toNat ≤ c.mtime.toNat)) }

/-- Phase 2 (60_exceptions.md R400): `p` and `stdby` are the mode and standby flag after the instruction and before any trap
entry of the tick (R405). -/
def account (p : Mode) (stdby : Bool) (delta : DWord) (s : State) : State :=
  s.setCsr (timersPending (countersNext s.platform.hpmInStandby p stdby s.exc.isSome delta s.csr))

-- ---- phase 3: interrupts ----

/-- The order of the M stage (60_exceptions.md R430). -/
def mPriority : List Interrupt := [.mei, .msi, .mti, .sei, .ssi, .sti]

/-- The order of the S stage, whose codes are the S-mask 0x222 (60_exceptions.md R430). -/
def sPriority : List Interrupt := [.sei, .ssi, .sti]

/-- Can trap to M (60_exceptions.md R430). -/
def canTrapM (s : State) : Bool :=
  match s.priv with
  | .m => mstatusMie s.csr.mstatus
  | .s | .u => true

/-- Can trap to S (60_exceptions.md R430). -/
def canTrapS (s : State) : Bool :=
  match s.priv with
  | .m => false
  | .s => mstatusSie s.csr.mstatus
  | .u => true

/-- Active in the M stage: enabled, not delegated, pending (60_exceptions.md R430). -/
def activeM (s : State) (i : Interrupt) : Bool :=
  s.csr.mie.getLsbD (interruptCode i) && !s.csr.mideleg.getLsbD (interruptCode i) &&
    (effectiveMip s.csr).getLsbD (interruptCode i)

/-- Active in the S stage: enabled and pending (60_exceptions.md R430). -/
def activeS (s : State) (i : Interrupt) : Bool :=
  s.csr.mie.getLsbD (interruptCode i) && (effectiveMip s.csr).getLsbD (interruptCode i)

/-- The interrupt the M stage takes. -/
def mStage (s : State) : Option Interrupt := if canTrapM s then mPriority.find? (activeM s) else none

/-- The interrupt the S stage takes. -/
def sStage (s : State) : Option Interrupt := if canTrapS s then sPriority.find? (activeS s) else none

/-- `TryInterrupt()` (60_exceptions.md R430): at most one interrupt is taken. -/
def tryInterrupt (s : State) : Out :=
  match mStage s with
  | some i => enterM (.interrupt i) s
  | none =>
    match sStage s with
    | some i => enterS (.interrupt i) s
    | none => .next s

/-- Phase 3 for interrupts: only when no exception was raised in the tick (60_exceptions.md R400, R406). -/
def interruptPhase (s : State) : Out := if s.exc.isSome then .next s else tryInterrupt s

-- ---- phase 4: advance ----

/-- The pc moves unless the hart is in standby (60_exceptions.md R400 phase 4, 10_state.md R23). -/
def movePc (s : State) : State :=
  if s.stdby then s else { s with pc := s.pcNext, pcNext := s.pcNext + 4#32 }

/-- Phase 4 (60_exceptions.md R400): the pc, then `regs[0] <- 0; tval_next <- 0`; the model's own `exc` and `tick` with it. -/
def advance (s : State) : State :=
  { movePc s with
    regs := (movePc s).regs.set 0 0#32
    csr := { (movePc s).csr with tvalNext := 0#32 }
    exc := none
    tick := s.tick + 1 }

-- ---- the tick ----

/-- Mode and standby flag that the accounting reads, given the states before and after phase 1: where an exception was taken
they are those from before it, which the raising instruction did not change (60_exceptions.md R407; log 6). -/
def accountView (before after : State) : Mode × Bool :=
  if after.exc.isSome then (before.priv, before.stdby) else (after.priv, after.stdby)

/-- Phases 2 to 4 on the state phase 1 left. -/
def finishTick (before after : State) (delta : DWord) : Out :=
  match interruptPhase (account (accountView before after).1 (accountView before after).2 delta after) with
  | .next s => .next (advance s)
  | .fault r => .fault r
  | .refused r => .refused r

/-- One call of `cpu_step` (60_exceptions.md R400, 70_reset_and_hazards.md R503) with the tick's inputs. -/
def tickWith (delta : DWord) (allocFails : Bool) (s : State) : Out :=
  if s.finished then .refused .hartDone
  else
    match phase1 allocFails s with
    | .next s1 => finishTick s s1 delta
    | .fault r => .fault r
    | .refused r => .refused r

-- ---- what the outside supplies ----

/-- The inputs of the next tick: the first scheduled record, or none but a free clock delta (log 4). -/
def nextInput (s : State) : TickInput :=
  match s.inputs with
  | [] => { ops := [], timeDelta := Config.timeDelta s.tick, allocFails := false }
  | i :: _ => i

/-- The schedule with its first record used up. -/
def dropInput (s : State) : State := { s with inputs := s.inputs.tail }

/-- The schedule whose first record has no host operation left. -/
def quietInputs : List TickInput → List TickInput
  | [] => []
  | i :: rest => { i with ops := [] } :: rest

/-- A word stored where the next tick fetches, from outside the machine, with all that takes: the bytes, the frame's `valid`
bit cleared as by any write, the hart out of standby, no host operation before the tick (log 13). -/
def placeWord (w : Word) (s : State) : State :=
  match translation s.pc .fetch s with
  | none => s
  | some t =>
    { s with
      mem := s.mem.writeValue t.phys.toNat w .word
      valid := clearValid s.valid t.phys.toNat 4
      stdby := false
      inputs := quietInputs s.inputs }

end Sys2Proof.Machine
end

