-- ==== Sys2Proof/Machine/Step.lean ====
section
/-! DEFINITION. One step: the host operations scheduled before the tick, then the tick. -/

namespace Sys2Proof.Machine

/-- One step of the machine: the outside's operations, in order, then one tick (spec 60_exceptions.md R400; 20_memory.md
R155; log 23). -/
def step (s : State) : Host.Outcome State Fault Refusal :=
  match runHostOps (nextInput s).ops (dropInput s) with
  | .next s1 => tickWith (nextInput s).timeDelta (nextInput s).allocFails s1
  | .fault r => .fault r
  | .refused r => .refused r

/-- `s` with the instruction word stored where `step` fetches its next instruction. -/
def State.withFetchWord (s : State) (nbits w : Nat) : State := placeWord (BitVec.ofNat 32 (w % 2 ^ nbits)) s

end Sys2Proof.Machine
end

