-- ==== Sys2Proof/Safety.lean ====
section
/-! DEFINITION. What a good state is: the invariants that the spec's rules make hold between two steps. -/

namespace Sys2Proof.Machine

/-- The bits of `w` outside `mask` are 0. -/
abbrev within (mask w : Word) : Prop := w &&& ~~~mask = 0#32

/-- The CSR block holds only values its write rules allow (spec 10_state.md R26, R42, R45 to R49, R54, R64). -/
structure CsrBlock.Legal (c : CsrBlock) : Prop where
  mstatus_mask : within mstatusMask c.mstatus
  mpp_legal    : mstatusMppBits c.mstatus ≠ 2#2
  mie_mask     : within 0x00000AAA#32 c.mie
  mip_mask     : within 0x00000AAA#32 c.mip
  medeleg_mask : within 0x0000B3FF#32 c.medeleg
  mideleg_mask : within 0x00000222#32 c.mideleg
  mepc_aligned : within 0xFFFFFFFC#32 c.mepc
  sepc_aligned : within 0xFFFFFFFC#32 c.sepc
  inhibit_mask : within 0xFFFFFFFD#32 c.mcountinhibit

/-- `pc` is a multiple of 4 and `pc_next` its successor (10_state.md R24, R25). -/
structure PcReady (s : State) : Prop where
  aligned   : within 0xFFFFFFFC#32 s.pc
  successor : s.pcNext = s.pc + 4#32

/-- Between ticks `x0` holds 0, `tval_next` is 0 and no exception is being taken (60_exceptions.md R400 phase 4). -/
structure TickBoundary (s : State) : Prop where
  reg_zero  : s.regs[0] = 0#32
  tval_zero : s.csr.tvalNext = 0#32
  no_exc    : s.exc = none

/-- The reservation address is a multiple of 4 (10_state.md R28). -/
abbrev ReservationAligned (s : State) : Prop := s.reservedAddr &&& 3#36 = 0#36

/-- Below M-mode `mstatus.MPRV` is clear: both returns clear it on leaving M-mode (46_system.md R344, R345), and only M-mode can
set it (10_state.md R43; 45_zicsr.md R321). -/
abbrev MprvClear (s : State) : Prop := s.priv ≠ .m → mstatusMprv s.csr.mstatus = false

/-- The decode cache (20_memory.md R160 to R165): at most one entry a frame, entries of RAM frames only, and an entry whose
frame is valid holds the frame's bytes as memory holds them. -/
structure DicCoherent (s : State) : Prop where
  one_entry : s.dic.Pairwise fun d e => d.frame ≠ e.frame
  ram_only  : ∀ e ∈ s.dic, ∀ phys : PAddr, frameOf phys.toNat = e.frame → s.inRam phys = true
  coherent  : ∀ e ∈ s.dic, e.frame ∈ s.valid → e.image = frameImage s.mem e.frame

/-- What holds of a good state. -/
structure Inv (s : State) : Prop where
  csr_legal     : s.csr.Legal
  pc_ready      : PcReady s
  boundary      : TickBoundary s
  reservation   : ReservationAligned s
  mprv_clear    : MprvClear s
  memory_wf     : s.mem.wf
  platform_wf   : s.platform.wf
  dic_coherent  : DicCoherent s

end Sys2Proof.Machine
end

