-- ==== Sys2Proof/Certificates/Slice0/Obligations.lean ====
section
/-! DEFINITION. The statements for the provers.  `Sys2Proof.Claim` is their vocabulary: what a good outcome is, in
terms of bits, numbers and single bytes rather than of the operations the machine is built from. -/

namespace Sys2Proof.Claim

open Sys2Proof Sys2Proof.Machine

-- ---- registers and memory ----

/-- `a` is `b + d` modulo 2^32. -/
abbrev IsSum (a b : Word) (d : Int) : Prop := (a.toNat : Int) = ((b.toNat : Int) + d) % 2 ^ 32

/-- Byte `k` of a number, the least significant one first (spec 20_memory.md R110). -/
def byteAt (v k : Nat) : Nat := v / 256 ^ k % 256

/-- Every byte of memory reads as before. -/
abbrev SameBytes (s t : State) : Prop := ∀ a, t.mem.read a = s.mem.read a

/-- `x[rd]` took `v`, unless rd is 0; every other register reads as before (10_state.md R21). -/
abbrev RegsAfter (rd : Reg) (v : Word) (s t : State) : Prop :=
  ∀ r : Reg, t.x r = if r = rd ∧ rd ≠ 0#5 then v else s.x r

/-- `i` completes: it puts a value of which `P` holds into `x[rd]` and changes nothing else at all (40_rv32i_alu.md R200). -/
def WritesReg (i : Instr) (rd : Reg) (s : State) (P : Word → Prop) : Prop :=
  ∃ t v, exec i s = .next t ∧ P v ∧ RegsAfter rd v s t ∧ t = { s with regs := t.regs } ∧ SameBytes s t

/-- A region backed by a device covers the address. -/
abbrev IsDevice (phys : PAddr) (s : State) : Prop := ∃ r, s.regionAt phys = some r ∧ r.backing = .device

/-- The device calls after a side-effecting read of `n` bytes at `phys` (20_memory.md R107). -/
abbrev ReadCalls (phys : PAddr) (n : Width) (s t : State) : Prop :=
  (IsDevice phys s → t.deviceCalls = .read phys.toNat (bytesOf n) :: s.deviceCalls) ∧
  (¬IsDevice phys s → t.deviceCalls = s.deviceCalls)

/-- `t` is `w` after one physical write of the low `n` bytes of `v` at `phys` (20_memory.md R103, R152): in RAM the bytes
change and the frame's `valid` bit is cleared, a writable device is called, anything else drops the write; the reservation
ends if the write succeeded on its word; nothing else changes. -/
structure Stored (phys : PAddr) (n : Width) (v : Word) (w t : State) : Prop where
  frame : t = { w with mem := t.mem, valid := t.valid, deviceCalls := t.deviceCalls, reservedValid := t.reservedValid }
  bytes : ∀ a, (t.mem.read a).toNat =
    if w.inRam phys = true ∧ phys.toNat ≤ a ∧ a < phys.toNat + bytesOf n then byteAt v.toNat (a - phys.toNat)
    else (w.mem.read a).toNat
  valid : ∀ f, f ∈ t.valid ↔ f ∈ w.valid ∧ ¬(w.inRam phys = true ∧ f < phys.toNat + bytesOf n ∧ phys.toNat < f + 4096)
  calls : t.deviceCalls =
    if pmWritable phys w = true ∧ w.inRam phys = false then
      .write phys.toNat (bytesOf n) (BitVec.ofNat 32 (v.toNat % 256 ^ bytesOf n)) true :: w.deviceCalls
    else w.deviceCalls
  reservation : t.reservedValid =
    (w.reservedValid && !(pmWritable phys w && decide (w.reservedAddr.toNat = phys.toNat / 4 * 4)))

/-- `w` is `s` after the translation `tr`: the leaf entry is written back, if a table was walked (20_memory.md R125). -/
def AfterTranslation (tr : Translation) (s w : State) : Prop :=
  match tr.writeBack with
  | none => w = s
  | some (a, pte) => Stored a .word pte s w

-- ---- traps ----

/-- `mstatus` after M-trap entry from mode `p` (60_exceptions.md R411). -/
abbrev StatusEnteredM (old new : Word) (p : Mode) : Prop :=
  ∀ k, k < 32 → new.getLsbD k =
    if k = 3 then false else if k = 7 then old.getLsbD 3 else if k = 11 then decide (p ≠ .u)
    else if k = 12 then decide (p = .m) else old.getLsbD k

/-- `mstatus` after S-trap entry from mode `p` (60_exceptions.md R412). -/
abbrev StatusEnteredS (old new : Word) (p : Mode) : Prop :=
  ∀ k, k < 32 → new.getLsbD k =
    if k = 1 then false else if k = 5 then old.getLsbD 1 else if k = 8 then decide (p = .s) else old.getLsbD k

/-- The base address of a trap vector register (60_exceptions.md R413). -/
def handlerBase (tvec : Word) : Word := BitVec.ofNat 32 (tvec.toNat / 4 * 4)

/-- The mode field of a trap vector register is 0 or 1. -/
abbrev VectorOk (tvec : Word) : Prop := tvec.toNat % 4 < 2

/-- `t` is `s` after the M-trap for exception `e` with trap value `tv` (60_exceptions.md R411, R413); `exc` is the model's own
field (log 6). -/
def InHandlerM (e : Exception) (tv : Word) (s t : State) : Prop :=
  ∃ w, StatusEnteredM s.csr.mstatus w s.priv ∧
    t = { s with
      exc := some e, priv := .m, stdby := false, pcNext := handlerBase s.csr.mtvec
      csr := { s.csr with
        mepc := s.pc, mcause := BitVec.ofNat 32 (exceptionCode e), mtval := tv, tvalNext := tv, mstatus := w } }

/-- `t` is `s` after the S-trap for exception `e` with trap value `tv` (60_exceptions.md R412, R413); `exc` is the model's own
field (log 6). -/
def InHandlerS (e : Exception) (tv : Word) (s t : State) : Prop :=
  ∃ w, StatusEnteredS s.csr.mstatus w s.priv ∧
    t = { s with
      exc := some e, priv := .s, stdby := false, pcNext := handlerBase s.csr.stvec
      csr := { s.csr with
        sepc := s.pc, scause := BitVec.ofNat 32 (exceptionCode e), stval := tv, tvalNext := tv, mstatus := w } }

/-- Exception `e` raised in `s` goes to S-mode (60_exceptions.md R410). -/
abbrev GoesToS (e : Exception) (s : State) : Prop :=
  s.priv ≠ .m ∧ s.csr.medeleg.getLsbD (exceptionCode e) = true

/-- The register the trap goes through has a legal mode field. -/
abbrev HandlerReady (e : Exception) (s : State) : Prop :=
  (GoesToS e s → VectorOk s.csr.stvec) ∧ (¬GoesToS e s → VectorOk s.csr.mtvec)

/-- `o` is the outcome of exception `e` with trap value `tv` in `s`: the handler of the level R410 gives, or the fatal error
of a vector whose mode is 2 or 3 (60_exceptions.md R410 to R413, R416). -/
def TakesException (e : Exception) (tv : Word) (s : State) (o : Out) : Prop :=
  (HandlerReady e s → ∃ t, o = .next t ∧ (GoesToS e s → InHandlerS e tv s t) ∧ (¬GoesToS e s → InHandlerM e tv s t)) ∧
  (¬HandlerReady e s → o = .fault .badTvecMode)

-- ---- jumps and branches ----

/-- A branch `i` with offset `off`, taken as `taken` says (41_rv32i_control.md R230, R234). -/
def Branches (i : Instr) (taken : Prop) (off : BitVec 13) (s : State) : Prop :=
  (¬taken → exec i s = .next s) ∧
  ∀ target, IsSum target s.pc off.toInt → taken →
    (target.toNat % 4 = 0 → exec i s = .next { s with pcNext := target }) ∧
    (target.toNat % 4 ≠ 0 → TakesException .instructionAddressMisaligned target s (exec i s))

-- ---- loads, stores and atomics ----

/-- The bytes a timer access of `n` bytes at `v` reads from the 64-bit register (20_memory.md R141). -/
def timerBits (reg : DWord) (v : Word) (n : Width) : Word :=
  BitVec.ofNat 32 (reg.toNat / 256 ^ (v.toNat % 8) % 256 ^ bytesOf n)

/-- A load of `n` bytes at `addr` completes (20_memory.md R130): `x[rd]` takes the extended value. -/
def Loads (i : Instr) (rd : Reg) (addr : Word) (n : Width) (ext : Word → Word) (s : State) : Prop :=
  (∀ tm, timerHit addr n s = some tm → WritesReg i rd s (· = ext (timerBits (timerValue tm s.csr) addr n))) ∧
  (∀ tr, timerHit addr n s = none → translation addr .read s = some tr → addr.toNat % bytesOf n = 0 →
    ∃ w t, AfterTranslation tr s w ∧ exec i s = .next t ∧
      RegsAfter rd (ext (pmValue tr.phys n true w)) s t ∧ ReadCalls tr.phys n w t ∧
      t = { w with regs := t.regs, deviceCalls := t.deviceCalls } ∧ SameBytes w t)

/-- A store of the low `n` bytes of `v` at `addr` completes (20_memory.md R131, R141). -/
def Stores (i : Instr) (addr : Word) (n : Width) (v : Word) (s : State) : Prop :=
  (∀ tm, timerHit addr n s = some tm →
    ∃ t reg, exec i s = .next t ∧ SameBytes s t ∧
      (∀ k, k < 8 → byteAt reg.toNat k =
        if addr.toNat % 8 ≤ k ∧ k < addr.toNat % 8 + bytesOf n then byteAt v.toNat (k - addr.toNat % 8)
        else byteAt (timerValue tm s.csr).toNat k) ∧
      t = { s with csr := match tm with
        | .mtime => { s.csr with mtime := reg }
        | .mtimecmp => { s.csr with mtimecmp := reg } }) ∧
  (∀ tr, timerHit addr n s = none → translation addr .write s = some tr → addr.toNat % bytesOf n = 0 →
    ∃ w t, AfterTranslation tr s w ∧ exec i s = .next t ∧ Stored tr.phys n v w t)

/-- An access of `n` bytes at `addr` traps: a page fault, or the misaligned address after a translation that succeeded and
whose leaf entry has been written back (20_memory.md R111, R127, R130, R131, R133). -/
def AccessTraps (i : Instr) (addr : Word) (n : Width) (intent : Intent) (fault misaligned : Exception) (s : State) : Prop :=
  (translation addr intent s = none → TakesException fault addr s (exec i s)) ∧
  (∀ tr, translation addr intent s = some tr → addr.toNat % bytesOf n ≠ 0 →
    ∃ w, AfterTranslation tr s w ∧ TakesException misaligned addr w (exec i s))

/-- A read-modify-write of the word at `x[rs1]` completes (44_rv32a.md R293); `F old src new` says what is stored. -/
def Amo (i : Instr) (rd rs1 rs2 : Reg) (F : Word → Word → Word → Prop) (s : State) : Prop :=
  ∀ tr, translation (s.x rs1) .write s = some tr → (s.x rs1).toNat % 4 = 0 →
    ∃ w r u t new, AfterTranslation tr s w ∧ exec i s = .next t ∧
      r = { w with deviceCalls := r.deviceCalls } ∧ ReadCalls tr.phys .word w r ∧
      F (pmValue tr.phys .word true w) (s.x rs2) new ∧ Stored tr.phys .word new r u ∧
      t = { u with regs := t.regs } ∧ RegsAfter rd (pmValue tr.phys .word true w) s t ∧ SameBytes u t

-- ---- CSR instructions ----

/-- The access check of 45_zicsr.md R321 passes and `n` names `r`. -/
def CsrGranted (n : CsrNum) (writes : Prop) (s : State) (r : CsrReg) : Prop :=
  csrOf s.platform n = some r ∧ n.toNat / 256 % 4 ≤ modeNum s.priv ∧ ¬(writes ∧ n.toNat / 1024 = 3) ∧
  ((0xC00 ≤ n.toNat ∧ n.toNat ≤ 0xC1F ∨ 0xC80 ≤ n.toNat ∧ n.toNat ≤ 0xC9F) →
    (s.priv ≠ .m → s.csr.mcounteren.getLsbD (n.toNat % 32) = true) ∧
    (s.priv = .u → s.csr.scounteren.getLsbD (n.toNat % 32) = true))

/-- A CSR instruction (45_zicsr.md R320, R322): granted, it reads `n` into `x[rd]` and, if it writes, writes `new base`;
refused, it is an illegal instruction with its own word as trap value. -/
def CsrAccess (i : Instr) (rd : Reg) (n : CsrNum) (writes : Prop) (new : Word → Word) (s : State) : Prop :=
  (∀ r, CsrGranted n writes s r →
    ∃ t, exec i s = .next t ∧ RegsAfter rd (readCsr r s.csr) s t ∧ SameBytes s t ∧
      (writes → t = { s with regs := t.regs, csr := writeCsr r (new (rmwBase r s.csr)) s.csr }) ∧
      (¬writes → t = { s with regs := t.regs })) ∧
  ((∀ r, ¬CsrGranted n writes s r) → TakesException .illegalInstruction (encode i) s (exec i s))

/-- `new` is `old` with the bits of `mask` replaced by those of `v`. -/
abbrev Masked (mask old v new : Word) : Prop :=
  ∀ k, k < 32 → new.getLsbD k = if mask.getLsbD k then v.getLsbD k else old.getLsbD k

/-- The CSR number map, row by row (10_state.md R41), but for the row of `scyclecmp`, whose number is a parameter. -/
def CsrRow (n : Nat) : CsrReg → Prop
  | .sstatus => n = 0x100
  | .sie => n = 0x104
  | .stvec => n = 0x105
  | .scounteren => n = 0x106
  | .sscratch => n = 0x140
  | .sepc => n = 0x141
  | .scause => n = 0x142
  | .stval => n = 0x143
  | .sip => n = 0x144
  | .satp => n = 0x180
  | .scyclecmp => False
  | .mstatus => n = 0x300
  | .misa => n = 0x301
  | .medeleg => n = 0x302
  | .mideleg => n = 0x303
  | .mie => n = 0x304
  | .mtvec => n = 0x305
  | .mcounteren => n = 0x306
  | .mcountinhibit => n = 0x320
  | .mhpmevent i => n = 0x323 + i.val
  | .mscratch => n = 0x340
  | .mepc => n = 0x341
  | .mcause => n = 0x342
  | .mtval => n = 0x343
  | .mip => n = 0x344
  | .mcycle => n = 0xB00
  | .minstret => n = 0xB02
  | .mhpmcounter i => n = 0xB03 + i.val
  | .mcycleh => n = 0xB80
  | .minstreth => n = 0xB82
  | .mhpmcounterh i => n = 0xB83 + i.val
  | .cycle => n = 0xC00
  | .time => n = 0xC01
  | .instret => n = 0xC02
  | .hpmcounter i => n = 0xC03 + i.val
  | .cycleh => n = 0xC80
  | .timeh => n = 0xC81
  | .instreth => n = 0xC82
  | .hpmcounterh i => n = 0xC83 + i.val
  | .mvendorid => n = 0xF11
  | .marchid => n = 0xF12
  | .mimpid => n = 0xF13
  | .mhartid => n = 0xF14

-- ---- interrupts ----

/-- Interrupt `i` is pending and enabled (60_exceptions.md R430): the pending word is `mip` with the external line in bit 9. -/
abbrev PendingEnabled (i : Interrupt) (s : State) : Prop :=
  s.csr.mie.getLsbD (interruptCode i) = true ∧
    (s.csr.mip.getLsbD (interruptCode i) = true ∨ (i = .sei ∧ s.csr.externalSeip = true))

/-- Interrupt `i` may be taken in M-mode (60_exceptions.md R430). -/
abbrev TakableM (i : Interrupt) (s : State) : Prop :=
  PendingEnabled i s ∧ s.csr.mideleg.getLsbD (interruptCode i) = false ∧
    (s.priv = .m → s.csr.mstatus.getLsbD 3 = true)

/-- Interrupt `i` may be taken in S-mode (60_exceptions.md R430). -/
abbrev TakableS (i : Interrupt) (s : State) : Prop :=
  PendingEnabled i s ∧ (i = .ssi ∨ i = .sti ∨ i = .sei) ∧
    (s.priv = .u ∨ s.priv = .s ∧ s.csr.mstatus.getLsbD 1 = true)

/-- The interrupts before `i` in the order of the M stage: MEI, MSI, MTI, SEI, SSI, STI (60_exceptions.md R430). -/
def beforeM : Interrupt → List Interrupt
  | .mei => []
  | .msi => [.mei]
  | .mti => [.mei, .msi]
  | .sei => [.mei, .msi, .mti]
  | .ssi => [.mei, .msi, .mti, .sei]
  | .sti => [.mei, .msi, .mti, .sei, .ssi]

/-- The interrupts before `i` in the order of the S stage: SEI, SSI, STI (60_exceptions.md R430). -/
def beforeS : Interrupt → List Interrupt
  | .ssi => [.sei]
  | .sti => [.sei, .ssi]
  | .sei | .mei | .msi | .mti => []

/-- `i` is the interrupt the M stage takes in `s` (60_exceptions.md R430). -/
abbrev TakenM (i : Interrupt) (s : State) : Prop := TakableM i s ∧ ∀ j ∈ beforeM i, ¬TakableM j s

/-- `i` is the interrupt the S stage takes in `s` (60_exceptions.md R430). -/
abbrev TakenS (i : Interrupt) (s : State) : Prop :=
  (∀ j, ¬TakableM j s) ∧ TakableS i s ∧ ∀ j ∈ beforeS i, ¬TakableS j s

-- ---- translation ----

/-- `Valid` of 20_memory.md R123. -/
abbrev EntryValid (p : Word) : Prop := p.getLsbD 0 = true ∧ ¬(p.getLsbD 2 = true ∧ p.getLsbD 1 = false)

/-- The entry is a leaf (20_memory.md R120). -/
abbrev EntryLeaf (p : Word) : Prop := p.getLsbD 1 = true ∨ p.getLsbD 2 = true ∨ p.getLsbD 3 = true

/-- `Allowed` of 20_memory.md R124. -/
def EntryAllows (p : Word) (intent : Intent) (eff : Mode) (mstatus : Word) : Prop :=
  (intent = .write → p.getLsbD 2 = true) ∧ (intent = .fetch → p.getLsbD 3 = true) ∧
  (intent = .read → p.getLsbD 1 = true ∨ mstatus.getLsbD 19 = true ∧ p.getLsbD 3 = true) ∧
  (eff = .s → p.getLsbD 4 = true → intent ≠ .fetch ∧ mstatus.getLsbD 18 = true) ∧
  (eff = .u → p.getLsbD 4 = true)

/-- The level-1 entry of `v` and where it lies (20_memory.md R120). -/
def entry1Addr (v : Word) (s : State) : PAddr :=
  BitVec.ofNat 36 (s.csr.satp.toNat % 2 ^ 22 * 4096 + v.toNat / 2 ^ 22 * 4)
def entry1 (v : Word) (s : State) : Word := pmValue (entry1Addr v s) .word false s

/-- The level-0 entry of `v` and where it lies (20_memory.md R120). -/
def entry0Addr (v : Word) (s : State) : PAddr :=
  BitVec.ofNat 36 ((entry1 v s).toNat / 1024 * 4096 + v.toNat / 4096 % 1024 * 4)
def entry0 (v : Word) (s : State) : Word := pmValue (entry0Addr v s) .word false s

/-- `new` is the entry `p` with A set, and D for a write (20_memory.md R125). -/
abbrev Touched (p : Word) (intent : Intent) (new : Word) : Prop :=
  ∀ k, k < 32 → new.getLsbD k = (p.getLsbD k || decide (k = 6) || decide (k = 7 ∧ intent = .write))

/-- The walk ends in a megapage leaf that allows the access. -/
abbrev MegaHit (v : Word) (intent : Intent) (s : State) : Prop :=
  EntryValid (entry1 v s) ∧ EntryLeaf (entry1 v s) ∧ (entry1 v s).toNat / 1024 % 1024 = 0 ∧
    EntryAllows (entry1 v s) intent (effPriv intent s) s.csr.mstatus

/-- The walk ends in a 4 KiB leaf that allows the access. -/
abbrev PageHit (v : Word) (intent : Intent) (s : State) : Prop :=
  EntryValid (entry1 v s) ∧ ¬EntryLeaf (entry1 v s) ∧ EntryValid (entry0 v s) ∧ EntryLeaf (entry0 v s) ∧
    EntryAllows (entry0 v s) intent (effPriv intent s) s.csr.mstatus

-- ---- whole-machine properties ----

/-- The access an instruction makes to data memory: its virtual address and its intent (42_rv32i_loadstore.md R250;
44_rv32a.md R290 to R293). -/
def dataAccess (i : Instr) (s : State) : Option (Word × Intent) :=
  match i with
  | .lb _ rs1 imm | .lh _ rs1 imm | .lw _ rs1 imm | .lbu _ rs1 imm | .lhu _ rs1 imm =>
    some (s.x rs1 + imm.signExtend 32, .read)
  | .sb rs1 _ imm | .sh rs1 _ imm | .sw rs1 _ imm => some (s.x rs1 + imm.signExtend 32, .write)
  | .lrW _ rs1 _ _ => some (s.x rs1, .read)
  | .scW _ rs1 _ _ _ | .amoswapW _ rs1 _ _ _ | .amoaddW _ rs1 _ _ _ | .amoxorW _ rs1 _ _ _ | .amoandW _ rs1 _ _ _
  | .amoorW _ rs1 _ _ _ | .amominW _ rs1 _ _ _ | .amomaxW _ rs1 _ _ _ | .amominuW _ rs1 _ _ _
  | .amomaxuW _ rs1 _ _ _ => some (s.x rs1, .write)
  | _ => none

end Sys2Proof.Claim

open Sys2Proof Sys2Proof.Machine Sys2Proof.Claim

-- ================ encoding ================

/-- Decoding the encoding of any well-formed instruction gives it back (30_encoding.md R187). -/
def Obligations.DecodeOfEncode : Prop :=
  ∀ i : Instr, i.wf = true → decodeWord (encode i) = some i

/-- A word the decoder accepts is the encoding of what it gives, which is well formed: no bit of a word is dropped
(30_encoding.md R172, R173, R187).
The bit positions in the cited rules are the spec's own, from general knowledge. -/
def Obligations.EncodeOfDecode : Prop :=
  ∀ (w : Word) (i : Instr), decodeWord w = some i → i.wf = true ∧ encode i = w

/-- No word satisfies two (mask, match) pairs of the opcode table, which has 70 rows (30_encoding.md R170, R181).
The cited rules rest in part on the spec's own decisions D1. -/
def Obligations.EncodingsExclusive : Prop :=
  opcodeTable.length = 70 ∧
  opcodeTable.Pairwise fun r q => ∀ w : Word, ¬(w &&& r.mask = r.pat ∧ w &&& q.mask = q.pat)

/-- Words of the spec's examples decode to the instructions they stand for (40_rv32i_alu.md R213 and the examples of the other
families; 95_test_vectors.md). -/
def Obligations.SampleWordsDecode : Prop :=
  decodeWord 0x003100B3#32 = some (.add 1#5 2#5 3#5) ∧
  decodeWord 0xFFF10093#32 = some (.addi 1#5 2#5 0xFFF#12) ∧
  decodeWord 0xFE209CE3#32 = some (.bne 1#5 2#5 0x1FF8#13) ∧
  decodeWord 0xFFDFF06F#32 = some (.jal 0#5 0x1FFFFC#21) ∧
  decodeWord 0xFE312E23#32 = some (.sw 2#5 3#5 0xFFC#12) ∧
  decodeWord 0x023140B3#32 = some (.div 1#5 2#5 3#5) ∧
  decodeWord 0x1875232F#32 = some (.scW 6#5 10#5 7#5 0#1 0#1) ∧
  decodeWord 0x340110F3#32 = some (.csrrw 1#5 0x340#12 2#5) ∧
  decodeWord 0x30200073#32 = some .mret ∧
  decodeWord 0x00000000#32 = none

/-- What cannot be executed: a fetch whose translation fails raises instruction_page_fault with the pc as trap value; a word whose bits
1:0 are not 11 is no instruction; a word that is none raises illegal_instruction with the word as trap value
(30_encoding.md R171, R182; 20_memory.md R127, R132). -/
def Obligations.UnexecutableTraps : Prop :=
  ∀ (s : State) (w : Word) (af : Bool),
    (s.stdby = false → translation s.pc .fetch s = none →
      TakesException .instructionPageFault s.pc { s with exc := none } (phase1 af s)) ∧
    (w.toNat % 4 ≠ 3 → decodeWord w = none) ∧
    (decodeWord w = none → TakesException .illegalInstruction w s (execWord w s))

-- ================ integer computation ================

/-- LUI, AUIPC, ADDI, ADD, SUB complete with the sum or difference modulo 2^32 and change nothing else
(40_rv32i_alu.md R200 to R204, R213, R214). -/
def Obligations.AddSubtractResults : Prop :=
  ∀ (s : State) (rd rs1 rs2 : Reg) (imm : BitVec 12) (up : BitVec 20),
    WritesReg (.lui rd up) rd s (fun v => v.toNat = up.toNat * 4096) ∧
    WritesReg (.auipc rd up) rd s (fun v => IsSum v s.pc (up.toNat * 4096)) ∧
    WritesReg (.addi rd rs1 imm) rd s (fun v => IsSum v (s.x rs1) imm.toInt) ∧
    WritesReg (.add rd rs1 rs2) rd s (fun v => IsSum v (s.x rs1) (s.x rs2).toNat) ∧
    WritesReg (.sub rd rs1 rs2) rd s (fun v => IsSum v (s.x rs1) (-((s.x rs2).toNat : Int)))

/-- SLTI, SLTIU, SLT, SLTU complete with 1 when the first operand is less, else 0; the immediate of SLTIU is sign-extended and
then unsigned (40_rv32i_alu.md R205, R206, R216, R217). -/
def Obligations.CompareResults : Prop :=
  ∀ (s : State) (rd rs1 rs2 : Reg) (imm : BitVec 12),
    WritesReg (.slti rd rs1 imm) rd s (fun v => v = if (s.x rs1).toInt < imm.toInt then 1#32 else 0#32) ∧
    WritesReg (.sltiu rd rs1 imm) rd s
      (fun v => v = if ((s.x rs1).toNat : Int) < imm.toInt % 2 ^ 32 then 1#32 else 0#32) ∧
    WritesReg (.slt rd rs1 rs2) rd s (fun v => v = if (s.x rs1).toInt < (s.x rs2).toInt then 1#32 else 0#32) ∧
    WritesReg (.sltu rd rs1 rs2) rd s (fun v => v = if (s.x rs1).toNat < (s.x rs2).toNat then 1#32 else 0#32)

/-- XORI, ORI, ANDI, XOR, OR, AND complete with the bitwise result; bits 31:12 of the immediate are its bit 11
(40_rv32i_alu.md R207 to R209, R218, R221, R222). -/
def Obligations.BitwiseResults : Prop :=
  ∀ (s : State) (rd rs1 rs2 : Reg) (imm : BitVec 12),
    WritesReg (.xori rd rs1 imm) rd s
      (fun v => ∀ k, k < 32 → v.getLsbD k = ((s.x rs1).getLsbD k != imm.getLsbD (min k 11))) ∧
    WritesReg (.ori rd rs1 imm) rd s
      (fun v => ∀ k, k < 32 → v.getLsbD k = ((s.x rs1).getLsbD k || imm.getLsbD (min k 11))) ∧
    WritesReg (.andi rd rs1 imm) rd s
      (fun v => ∀ k, k < 32 → v.getLsbD k = ((s.x rs1).getLsbD k && imm.getLsbD (min k 11))) ∧
    WritesReg (.xor rd rs1 rs2) rd s
      (fun v => ∀ k, k < 32 → v.getLsbD k = ((s.x rs1).getLsbD k != (s.x rs2).getLsbD k)) ∧
    WritesReg (.or rd rs1 rs2) rd s
      (fun v => ∀ k, k < 32 → v.getLsbD k = ((s.x rs1).getLsbD k || (s.x rs2).getLsbD k)) ∧
    WritesReg (.and rd rs1 rs2) rd s
      (fun v => ∀ k, k < 32 → v.getLsbD k = ((s.x rs1).getLsbD k && (s.x rs2).getLsbD k))

/-- The six shifts complete: left is multiplication by 2^n, the logical right shift unsigned division by 2^n, the arithmetic one
signed division rounding down; the register forms take n from the low 5 bits (40_rv32i_alu.md R201, R210 to R212, R215, R219, R220). -/
def Obligations.ShiftResults : Prop :=
  ∀ (s : State) (rd rs1 rs2 : Reg) (sh : BitVec 5),
    WritesReg (.slli rd rs1 sh) rd s (fun v => v.toNat = (s.x rs1).toNat * 2 ^ sh.toNat % 2 ^ 32) ∧
    WritesReg (.srli rd rs1 sh) rd s (fun v => v.toNat = (s.x rs1).toNat / 2 ^ sh.toNat) ∧
    WritesReg (.srai rd rs1 sh) rd s (fun v => v.toInt = (s.x rs1).toInt / 2 ^ sh.toNat) ∧
    WritesReg (.sll rd rs1 rs2) rd s
      (fun v => v.toNat = (s.x rs1).toNat * 2 ^ ((s.x rs2).toNat % 32) % 2 ^ 32) ∧
    WritesReg (.srl rd rs1 rs2) rd s (fun v => v.toNat = (s.x rs1).toNat / 2 ^ ((s.x rs2).toNat % 32)) ∧
    WritesReg (.sra rd rs1 rs2) rd s (fun v => v.toInt = (s.x rs1).toInt / 2 ^ ((s.x rs2).toNat % 32))

/-- The four multiplications complete with a half of the exact product (43_rv32m.md R270 to R275). -/
def Obligations.MultiplyResults : Prop :=
  ∀ (s : State) (rd rs1 rs2 : Reg),
    WritesReg (.mul rd rs1 rs2) rd s (fun v => v.toNat = (s.x rs1).toNat * (s.x rs2).toNat % 2 ^ 32) ∧
    WritesReg (.mulh rd rs1 rs2) rd s (fun v => v.toInt = (s.x rs1).toInt * (s.x rs2).toInt / 2 ^ 32) ∧
    WritesReg (.mulhsu rd rs1 rs2) rd s (fun v => v.toInt = (s.x rs1).toInt * ((s.x rs2).toNat : Int) / 2 ^ 32) ∧
    WritesReg (.mulhu rd rs1 rs2) rd s (fun v => v.toNat = (s.x rs1).toNat * (s.x rs2).toNat / 2 ^ 32)

/-- The four divisions complete, by a zero divisor and on signed overflow too (43_rv32m.md R270, R271, R276 to R279). -/
def Obligations.DivideResults : Prop :=
  ∀ (s : State) (rd rs1 rs2 : Reg),
    WritesReg (.div rd rs1 rs2) rd s (fun v =>
      if (s.x rs2).toNat = 0 then v.toInt = -1
      else if (s.x rs1).toInt = -2 ^ 31 ∧ (s.x rs2).toInt = -1 then v.toInt = -2 ^ 31
      else v.toInt = (s.x rs1).toInt.tdiv (s.x rs2).toInt) ∧
    WritesReg (.rem rd rs1 rs2) rd s (fun v =>
      if (s.x rs2).toNat = 0 then v = s.x rs1
      else if (s.x rs1).toInt = -2 ^ 31 ∧ (s.x rs2).toInt = -1 then v.toInt = 0
      else v.toInt = (s.x rs1).toInt.tmod (s.x rs2).toInt) ∧
    WritesReg (.divu rd rs1 rs2) rd s (fun v =>
      if (s.x rs2).toNat = 0 then v.toNat = 2 ^ 32 - 1 else v.toNat = (s.x rs1).toNat / (s.x rs2).toNat) ∧
    WritesReg (.remu rd rs1 rs2) rd s (fun v =>
      if (s.x rs2).toNat = 0 then v = s.x rs1 else v.toNat = (s.x rs1).toNat % (s.x rs2).toNat)

/-- Quotient and remainder of one pair of operands satisfy dividend = divisor * quotient + remainder modulo 2^32 in every case,
signed and unsigned, the corner cases included (43_rv32m.md R271). -/
def Obligations.DivisionIdentity : Prop :=
  ∀ (s tq tr uq ur : State) (rd rs1 rs2 : Reg), rd ≠ 0#5 →
    exec (.div rd rs1 rs2) s = .next tq → exec (.rem rd rs1 rs2) s = .next tr →
    exec (.divu rd rs1 rs2) s = .next uq → exec (.remu rd rs1 rs2) s = .next ur →
    s.x rs1 = s.x rs2 * tq.x rd + tr.x rd ∧ s.x rs1 = s.x rs2 * uq.x rd + ur.x rd

-- ================ control transfer ================

/-- JAL and JALR: to a target that is a multiple of 4 they complete, `x[rd]` taking pc + 4 and `pc_next` the target, computed before the
link is written; another target raises instruction_address_misaligned with the target as trap value and writes neither
(41_rv32i_control.md R230, R232, R233).
The cited rules rest in part on the spec's own decisions D23, D40, D47. -/
def Obligations.JumpsTransfer : Prop :=
  ∀ (s : State) (rd rs1 : Reg) (off : BitVec 21) (imm : BitVec 12) (sum target link : Word),
    s.pc.toNat % 4 = 0 → IsSum link s.pc 4 →
    ((Instr.jal rd off).wf = true → IsSum target s.pc off.toInt →
      (target.toNat % 4 = 0 → ∃ t, exec (.jal rd off) s = .next t ∧ RegsAfter rd link s t ∧ SameBytes s t ∧
        t = { s with regs := t.regs, pcNext := target }) ∧
      (target.toNat % 4 ≠ 0 → TakesException .instructionAddressMisaligned target s (exec (.jal rd off) s))) ∧
    (IsSum sum (s.x rs1) imm.toInt → target.toNat = sum.toNat / 2 * 2 →
      (target.toNat % 4 = 0 → ∃ t, exec (.jalr rd rs1 imm) s = .next t ∧ RegsAfter rd link s t ∧ SameBytes s t ∧
        t = { s with regs := t.regs, pcNext := target }) ∧
      (target.toNat % 4 ≠ 0 → TakesException .instructionAddressMisaligned target s (exec (.jalr rd rs1 imm) s)))

/-- The six branches: not taken, nothing changes; taken, `pc_next` becomes pc + offset, or the misaligned target traps
(41_rv32i_control.md R230, R234 to R239).
The cited rules rest in part on the spec's own decisions D23, D40, D47. -/
def Obligations.BranchesDecide : Prop :=
  ∀ (s : State) (rs1 rs2 : Reg) (off : BitVec 13), branchOffsetWf off → s.pc.toNat % 4 = 0 →
    Branches (.beq rs1 rs2 off) (s.x rs1 = s.x rs2) off s ∧
    Branches (.bne rs1 rs2 off) (s.x rs1 ≠ s.x rs2) off s ∧
    Branches (.blt rs1 rs2 off) ((s.x rs1).toInt < (s.x rs2).toInt) off s ∧
    Branches (.bge rs1 rs2 off) ((s.x rs2).toInt ≤ (s.x rs1).toInt) off s ∧
    Branches (.bltu rs1 rs2 off) ((s.x rs1).toNat < (s.x rs2).toNat) off s ∧
    Branches (.bgeu rs1 rs2 off) ((s.x rs2).toNat ≤ (s.x rs1).toNat) off s

-- ================ loads, stores, atomics ================

/-- The five loads complete: the value read, sign- or zero-extended, goes to rd; memory changes only by the write-back of the
page-table leaf (42_rv32i_loadstore.md R250 to R256; 20_memory.md R130, R141).
The cited rules rest in part on the spec's own decisions D23, D24, D47. -/
def Obligations.LoadsComplete : Prop :=
  ∀ (s : State) (rd rs1 : Reg) (imm : BitVec 12) (addr : Word), s.mem.wf → IsSum addr (s.x rs1) imm.toInt →
    Loads (.lb rd rs1 imm) rd addr .byte (fun v => BitVec.ofInt 32 (v.setWidth 8).toInt) s ∧
    Loads (.lh rd rs1 imm) rd addr .half (fun v => BitVec.ofInt 32 (v.setWidth 16).toInt) s ∧
    Loads (.lw rd rs1 imm) rd addr .word (fun v => v) s ∧
    Loads (.lbu rd rs1 imm) rd addr .byte (fun v => BitVec.ofNat 32 (v.toNat % 2 ^ 8)) s ∧
    Loads (.lhu rd rs1 imm) rd addr .half (fun v => BitVec.ofNat 32 (v.toNat % 2 ^ 16)) s

/-- The three stores complete: the low bytes of `x[rs2]` go to the translated address, or into the timer register that is hit; besides
them only the write-back of the page-table leaf, the `valid` bit of a frame written to, a device's call and a reservation that is
hit change (42_rv32i_loadstore.md R250, R257 to R259; 20_memory.md R131, R141).
The cited rules rest in part on the spec's own decisions D20, D24, D47. -/
def Obligations.StoresComplete : Prop :=
  ∀ (s : State) (rs1 rs2 : Reg) (imm : BitVec 12) (addr : Word), s.mem.wf → IsSum addr (s.x rs1) imm.toInt →
    Stores (.sb rs1 rs2 imm) addr .byte (s.x rs2) s ∧
    Stores (.sh rs1 rs2 imm) addr .half (s.x rs2) s ∧
    Stores (.sw rs1 rs2 imm) addr .word (s.x rs2) s

/-- An aligned access of 1, 2 or 4 bytes at effective privilege M to the eight bytes of `mtime` or `mtimecmp`, and no other,
hits the timer register (20_memory.md R140).
The cited rules rest in part on the spec's own decisions D6, D35. -/
def Obligations.TimerWindow : Prop :=
  ∀ (s : State) (addr : Word) (n : Width), s.platform.wf →
    ((timerHit addr n s = some .mtime ↔
        effPriv .read s = .m ∧ addr.toNat % bytesOf n = 0 ∧ addr.toNat / 8 * 8 = s.platform.mtimeAddr.toNat) ∧
     (timerHit addr n s = some .mtimecmp ↔
        effPriv .read s = .m ∧ addr.toNat % bytesOf n = 0 ∧ addr.toNat / 8 * 8 = s.platform.mtimecmpAddr.toNat))

/-- LR.W completes: rd takes the word and the reservation is recorded on its aligned physical address, in place of any older one
(44_rv32a.md R291; 20_memory.md R150). -/
def Obligations.LoadReservedCompletes : Prop :=
  ∀ (s : State) (rd rs1 : Reg) (aq rl : BitVec 1) (tr : Translation), s.mem.wf →
    translation (s.x rs1) .read s = some tr → (s.x rs1).toNat % 4 = 0 →
    ∃ w t, AfterTranslation tr s w ∧ exec (.lrW rd rs1 aq rl) s = .next t ∧
      RegsAfter rd (pmValue tr.phys .word true w) s t ∧ ReadCalls tr.phys .word w t ∧ SameBytes w t ∧
      t = { w with
        regs := t.regs, deviceCalls := t.deviceCalls
        reservedAddr := BitVec.ofNat 36 (tr.phys.toNat / 4 * 4), reservedValid := true }

/-- SC.W completes: with the reservation held on the word it stores and gives 0, else it gives 1 and stores nothing; either way
the reservation ends (44_rv32a.md R292).
The cited rules rest in part on the spec's own decisions D21. -/
def Obligations.StoreConditionalCompletes : Prop :=
  ∀ (s : State) (rd rs1 rs2 : Reg) (aq rl : BitVec 1) (tr : Translation), s.mem.wf →
    translation (s.x rs1) .write s = some tr → (s.x rs1).toNat % 4 = 0 →
    ∃ w t, AfterTranslation tr s w ∧ exec (.scW rd rs1 rs2 aq rl) s = .next t ∧
      (w.reservedValid = true ∧ w.reservedAddr.toNat = tr.phys.toNat / 4 * 4 →
        RegsAfter rd 0#32 s t ∧
          ∃ u, Stored tr.phys .word (s.x rs2) w u ∧ SameBytes u t ∧
            t = { u with regs := t.regs, reservedValid := false }) ∧
      (¬(w.reservedValid = true ∧ w.reservedAddr.toNat = tr.phys.toNat / 4 * 4) →
        RegsAfter rd 1#32 s t ∧ SameBytes w t ∧ t = { w with regs := t.regs, reservedValid := false })

/-- The nine AMOs complete: rd takes the old word and the word becomes the function of it and `x[rs2]`
(44_rv32a.md R293 to R302). -/
def Obligations.AmoCompletes : Prop :=
  ∀ (s : State) (rd rs1 rs2 : Reg) (aq rl : BitVec 1), s.mem.wf →
    Amo (.amoswapW rd rs1 rs2 aq rl) rd rs1 rs2 (fun _ src new => new = src) s ∧
    Amo (.amoaddW rd rs1 rs2 aq rl) rd rs1 rs2 (fun old src new => IsSum new old src.toNat) s ∧
    Amo (.amoxorW rd rs1 rs2 aq rl) rd rs1 rs2
      (fun old src new => ∀ k, k < 32 → new.getLsbD k = (old.getLsbD k != src.getLsbD k)) s ∧
    Amo (.amoandW rd rs1 rs2 aq rl) rd rs1 rs2
      (fun old src new => ∀ k, k < 32 → new.getLsbD k = (old.getLsbD k && src.getLsbD k)) s ∧
    Amo (.amoorW rd rs1 rs2 aq rl) rd rs1 rs2
      (fun old src new => ∀ k, k < 32 → new.getLsbD k = (old.getLsbD k || src.getLsbD k)) s ∧
    Amo (.amominW rd rs1 rs2 aq rl) rd rs1 rs2 (fun old src new => new.toInt = min old.toInt src.toInt) s ∧
    Amo (.amomaxW rd rs1 rs2 aq rl) rd rs1 rs2 (fun old src new => new.toInt = max old.toInt src.toInt) s ∧
    Amo (.amominuW rd rs1 rs2 aq rl) rd rs1 rs2 (fun old src new => new.toNat = min old.toNat src.toNat) s ∧
    Amo (.amomaxuW rd rs1 rs2 aq rl) rd rs1 rs2 (fun old src new => new.toNat = max old.toNat src.toNat) s

/-- Loads, stores and atomics trap on a failed translation, then on a misaligned address, with the address as trap value: loads and LR.W
with the load codes, stores, SC.W and AMOs with the store codes (42_rv32i_loadstore.md R251; 44_rv32a.md R291 to R293;
20_memory.md R111, R127, R130, R131, R133).
That the leaf's write-back of a misaligned access ends a reservation it hits is the model's choice (log 28).
The cited rules rest in part on the spec's own decisions D20, D21, D22, D23, D24. -/
def Obligations.DataAccessTraps : Prop :=
  ∀ (s : State) (rd rs1 rs2 : Reg) (imm : BitVec 12) (aq rl : BitVec 1) (addr : Word) (i : Instr),
    s.mem.wf → IsSum addr (s.x rs1) imm.toInt →
    (i ∈ [.lb rd rs1 imm, .lbu rd rs1 imm] →
      AccessTraps i addr .byte .read .loadPageFault .loadAddressMisaligned s) ∧
    (i ∈ [.lh rd rs1 imm, .lhu rd rs1 imm] →
      AccessTraps i addr .half .read .loadPageFault .loadAddressMisaligned s) ∧
    AccessTraps (.lw rd rs1 imm) addr .word .read .loadPageFault .loadAddressMisaligned s ∧
    AccessTraps (.sb rs1 rs2 imm) addr .byte .write .storeAmoPageFault .storeAmoAddressMisaligned s ∧
    AccessTraps (.sh rs1 rs2 imm) addr .half .write .storeAmoPageFault .storeAmoAddressMisaligned s ∧
    AccessTraps (.sw rs1 rs2 imm) addr .word .write .storeAmoPageFault .storeAmoAddressMisaligned s ∧
    AccessTraps (.lrW rd rs1 aq rl) (s.x rs1) .word .read .loadPageFault .loadAddressMisaligned s ∧
    (i ∈ [.scW rd rs1 rs2 aq rl, .amoswapW rd rs1 rs2 aq rl, .amoaddW rd rs1 rs2 aq rl, .amoxorW rd rs1 rs2 aq rl,
        .amoandW rd rs1 rs2 aq rl, .amoorW rd rs1 rs2 aq rl, .amominW rd rs1 rs2 aq rl, .amomaxW rd rs1 rs2 aq rl,
        .amominuW rd rs1 rs2 aq rl, .amomaxuW rd rs1 rs2 aq rl] →
      AccessTraps i (s.x rs1) .word .write .storeAmoPageFault .storeAmoAddressMisaligned s)

/-- `sc_access` hits exactly a valid reservation on the aligned word of the address, which it then ends; else it changes nothing;
any store through physical memory ends the reservation it hits (20_memory.md R151). -/
def Obligations.ReservationProbe : Prop :=
  ∀ (s : State) (phys : PAddr) (n : Width) (v : Word),
    (s.reservedValid = true ∧ s.reservedAddr.toNat = phys.toNat / 4 * 4 →
      scAccess phys s = (true, { s with reservedValid := false })) ∧
    (¬(s.reservedValid = true ∧ s.reservedAddr.toNat = phys.toNat / 4 * 4) → scAccess phys s = (false, s)) ∧
    ((pmWrite phys n v true s).1 = true →
      (pmWrite phys n v true s).2.reservedValid = (scAccess phys s).2.reservedValid)

-- ================ CSR instructions ================

/-- The six CSR instructions: granted, they read, write and give the old value; refused, they are illegal
(45_zicsr.md R320 to R328).
The cited rules rest in part on the spec's own decisions D12, D31.
That the word is `encode` of the instruction is the model's reading (log 17). -/
def Obligations.CsrInstructionsRun : Prop :=
  ∀ (s : State) (rd rs1 : Reg) (n : CsrNum) (u : BitVec 5),
    CsrAccess (.csrrw rd n rs1) rd n True (fun _ => s.x rs1) s ∧
    CsrAccess (.csrrs rd n rs1) rd n (rs1 ≠ 0#5) (fun base => base ||| s.x rs1) s ∧
    CsrAccess (.csrrc rd n rs1) rd n (rs1 ≠ 0#5) (fun base => base &&& ~~~(s.x rs1)) s ∧
    CsrAccess (.csrrwi rd n u) rd n True (fun _ => BitVec.ofNat 32 u.toNat) s ∧
    CsrAccess (.csrrsi rd n u) rd n (u ≠ 0#5) (fun base => base ||| BitVec.ofNat 32 u.toNat) s ∧
    CsrAccess (.csrrci rd n u) rd n (u ≠ 0#5) (fun base => base &&& ~~~(BitVec.ofNat 32 u.toNat)) s

/-- The CSR numbers that name a register are those of the number map and no others, and each names the register of its row.
Where `SCYCLECMP_CSR` is the number of another row, that row wins: the model's choice (log 25) (10_state.md R41, R69).
The cited rules rest in part on the spec's own decisions D3, D4, D5, and on bit positions from general knowledge. -/
def Obligations.CsrNumbersNamed : Prop :=
  ∀ (p : Platform) (n : CsrNum),
    ((csrOf p n).isSome = true ↔
      n = p.scyclecmpCsr ∨
      n.toNat ∈ [0x100, 0x104, 0x105, 0x106, 0x140, 0x141, 0x142, 0x143, 0x144, 0x180, 0x320] ∨
      (0x300 ≤ n.toNat ∧ n.toNat ≤ 0x306) ∨ (0x323 ≤ n.toNat ∧ n.toNat ≤ 0x33F) ∨
      (0x340 ≤ n.toNat ∧ n.toNat ≤ 0x344) ∨ (0xF11 ≤ n.toNat ∧ n.toNat ≤ 0xF14) ∨
      (0xB00 ≤ n.toNat ∧ n.toNat ≤ 0xB1F ∧ n.toNat ≠ 0xB01) ∨
      (0xB80 ≤ n.toNat ∧ n.toNat ≤ 0xB9F ∧ n.toNat ≠ 0xB81) ∨
      (0xC00 ≤ n.toNat ∧ n.toNat ≤ 0xC1F) ∨ (0xC80 ≤ n.toNat ∧ n.toNat ≤ 0xC9F)) ∧
    (∀ r, csrOf p n = some r ↔
      CsrRow n.toNat r ∨ (r = .scyclecmp ∧ n = p.scyclecmpCsr ∧ ∀ q, ¬CsrRow n.toNat q))

/-- CSR writes that replace the bits of a mask, where the other bits are and read 0 (10_state.md R45 to R47, R54, R64), the constants
`misa` (R44) and `mvendorid`, `marchid`, `mimpid` (R68), `mhartid` (R67), and the registers that hold every bit written, each
apart from all others (R51 to R53, R55 to R57, R59, R63, R65). That `satp` is one of them follows R57 against
93_implementation_defined.md I12, the model's choice (log 26).
The cited rules rest in part on the spec's own decisions D4, D10, D13, D15, D18, D27, D31, D37, D42, D46, and on bit positions
from general knowledge. -/
def Obligations.CsrMaskedAndPlainWrites : Prop :=
  ∀ (c : CsrBlock) (v : Word) (i : Fin 29),
    (∃ w, writeCsr .mie v c = { c with mie := w } ∧ Masked 0xAAA#32 0#32 v w) ∧ readCsr .mie c = c.mie ∧
    (∃ w, writeCsr .medeleg v c = { c with medeleg := w } ∧ Masked 0xB3FF#32 0#32 v w) ∧ readCsr .medeleg c = c.medeleg ∧
    (∃ w, writeCsr .mideleg v c = { c with mideleg := w } ∧ Masked 0x222#32 0#32 v w) ∧ readCsr .mideleg c = c.mideleg ∧
    (∃ w, writeCsr .mepc v c = { c with mepc := w } ∧ Masked 0xFFFFFFFC#32 0#32 v w) ∧ readCsr .mepc c = c.mepc ∧
    (∃ w, writeCsr .sepc v c = { c with sepc := w } ∧ Masked 0xFFFFFFFC#32 0#32 v w) ∧ readCsr .sepc c = c.sepc ∧
    (∃ w, writeCsr .mcountinhibit v c = { c with mcountinhibit := w } ∧ Masked 0xFFFFFFFD#32 0#32 v w) ∧ 
    readCsr .mcountinhibit c = c.mcountinhibit ∧
    writeCsr .misa v c = c ∧ readCsr .misa c = 0x40141101#32 ∧
    readCsr .mhartid c = c.mhartid ∧ readCsr .mvendorid c = 0#32 ∧ readCsr .marchid c = 0#32 ∧ readCsr .mimpid c = 0#32 ∧
    (∀ r ∈ [CsrReg.mtvec, .stvec, .mscratch, .sscratch, .mcause, .scause, .mtval, .stval, .satp, .scyclecmp,
        .mcounteren, .scounteren, .mhpmevent i],
      readCsr r (writeCsr r v c) = v ∧
      ∀ q : CsrReg, q ≠ r → readCsr q (writeCsr r v c) = readCsr q c) ∧
    writeCsr .mtvec v c = { c with mtvec := v } ∧ writeCsr .stvec v c = { c with stvec := v } ∧
    writeCsr .mscratch v c = { c with mscratch := v } ∧ writeCsr .sscratch v c = { c with sscratch := v } ∧
    writeCsr .mcause v c = { c with mcause := v } ∧ writeCsr .scause v c = { c with scause := v } ∧
    writeCsr .mtval v c = { c with mtval := v } ∧ writeCsr .stval v c = { c with stval := v } ∧
    writeCsr .satp v c = { c with satp := v } ∧ writeCsr .scyclecmp v c = { c with scyclecmp := v } ∧
    writeCsr .mcounteren v c = { c with mcounteren := v } ∧ writeCsr .scounteren v c = { c with scounteren := v } ∧
    (∃ e, writeCsr (.mhpmevent i) v c = { c with hpmevents := e } ∧ e[i] = v ∧ ∀ j : Fin 29, j ≠ i → e[j] = c.hpmevents[j])

/-- A CSR write of `mstatus` replaces the bits of mask 0x000E19AA, but keeps MPP when 2 is written to it; `sstatus` reads and
writes only the bits of mask 0x000C0122 of the same word (10_state.md R42, R43).
The cited rules rest in part on the spec's own decisions D8, D9, and on bit positions from general knowledge. -/
def Obligations.StatusWrites : Prop :=
  ∀ (c : CsrBlock) (v : Word),
    (∃ w, writeCsr .mstatus v c = { c with mstatus := w } ∧
      (v.toNat / 2 ^ 11 % 4 ≠ 2 → Masked 0x000E19AA#32 c.mstatus v w) ∧
      (v.toNat / 2 ^ 11 % 4 = 2 → Masked 0x000E01AA#32 c.mstatus v w)) ∧
    (∃ w, writeCsr .sstatus v c = { c with mstatus := w } ∧ Masked 0x000C0122#32 c.mstatus v w) ∧
    readCsr .mstatus c = c.mstatus ∧ Masked 0x000C0122#32 0#32 c.mstatus (readCsr .sstatus c)

/-- The views of the interrupt words: `sie` under mask 0x222; `mip` and `sip` read with the external line in bit 9, are written
under masks 0x222 and 0x2. A read-modify-write starts from the stored word without the line for `mip` and `sip`, and from what a
read gives for every other register, `sie` among them
(10_state.md R48 to R50; 45_zicsr.md R322).
The cited rules rest in part on the spec's own decisions D10, D11, D12, and on bit positions from general knowledge. -/
def Obligations.InterruptWordViews : Prop :=
  ∀ (c : CsrBlock) (v : Word),
    (∃ w, writeCsr .sie v c = { c with mie := w } ∧ Masked 0x222#32 c.mie v w) ∧
    (∃ w, writeCsr .mip v c = { c with mip := w } ∧ Masked 0x222#32 c.mip v w) ∧
    (∃ w, writeCsr .sip v c = { c with mip := w } ∧ Masked 0x2#32 c.mip v w) ∧
    readCsr .mie c = c.mie ∧ Masked 0x222#32 0#32 c.mie (readCsr .sie c) ∧
    (∀ k, k < 32 → (readCsr .mip c).getLsbD k = (c.mip.getLsbD k || (decide (k = 9) && c.externalSeip))) ∧
    Masked 0x222#32 0#32 (readCsr .mip c) (readCsr .sip c) ∧
    rmwBase .mip c = c.mip ∧ Masked 0x222#32 0#32 c.mip (rmwBase .sip c) ∧
    ∀ r : CsrReg, r ≠ .mip → r ≠ .sip → rmwBase r c = readCsr r c

/-- The counters: each number reads its half of the 64-bit counter, the user-level shadows read the same halves, a write replaces
one half and nothing else; `time` and `timeh` read `mtime` (10_state.md R60 to R62, R66).
The cited rules rest in part on the spec's own decisions D4. -/
def Obligations.CounterHalves : Prop :=
  ∀ (c : CsrBlock) (v : Word) (i j : Fin 29),
    (readCsr .mcycle c).toNat = c.cycle.toNat % 2 ^ 32 ∧ (readCsr .mcycleh c).toNat = c.cycle.toNat / 2 ^ 32 ∧
    (readCsr .minstret c).toNat = c.instret.toNat % 2 ^ 32 ∧ (readCsr .minstreth c).toNat = c.instret.toNat / 2 ^ 32 ∧
    (readCsr (.mhpmcounter i) c).toNat = c.hpmcounters[i].toNat % 2 ^ 32 ∧
    (readCsr (.mhpmcounterh i) c).toNat = c.hpmcounters[i].toNat / 2 ^ 32 ∧
    (readCsr .time c).toNat = c.mtime.toNat % 2 ^ 32 ∧ (readCsr .timeh c).toNat = c.mtime.toNat / 2 ^ 32 ∧
    readCsr .cycle c = readCsr .mcycle c ∧ readCsr .cycleh c = readCsr .mcycleh c ∧
    readCsr .instret c = readCsr .minstret c ∧ readCsr .instreth c = readCsr .minstreth c ∧
    readCsr (.hpmcounter i) c = readCsr (.mhpmcounter i) c ∧ readCsr (.hpmcounterh i) c = readCsr (.mhpmcounterh i) c ∧
    (∃ d, writeCsr .mcycle v c = { c with cycle := d } ∧ d.toNat = c.cycle.toNat / 2 ^ 32 * 2 ^ 32 + v.toNat) ∧
    (∃ d, writeCsr .mcycleh v c = { c with cycle := d } ∧ d.toNat = v.toNat * 2 ^ 32 + c.cycle.toNat % 2 ^ 32) ∧
    (∃ d, writeCsr .minstret v c = { c with instret := d } ∧ d.toNat = c.instret.toNat / 2 ^ 32 * 2 ^ 32 + v.toNat) ∧
    (∃ d, writeCsr .minstreth v c = { c with instret := d } ∧ d.toNat = v.toNat * 2 ^ 32 + c.instret.toNat % 2 ^ 32) ∧
    (∃ h, writeCsr (.mhpmcounter i) v c = { c with hpmcounters := h } ∧
      h[i].toNat = c.hpmcounters[i].toNat / 2 ^ 32 * 2 ^ 32 + v.toNat ∧ (j ≠ i → h[j] = c.hpmcounters[j])) ∧
    (∃ h, writeCsr (.mhpmcounterh i) v c = { c with hpmcounters := h } ∧
      h[i].toNat = v.toNat * 2 ^ 32 + c.hpmcounters[i].toNat % 2 ^ 32 ∧ (j ≠ i → h[j] = c.hpmcounters[j]))

-- ================ system instructions ================

/-- FENCE and FENCE.I complete and change nothing in any mode; SFENCE.VMA in S- and M-mode; WFI sets `stdby` alone
(46_system.md R340, R341, R346, R347).
The cited rules rest in part on the spec's own decisions D25, D26. -/
def Obligations.FencesAndWfiComplete : Prop :=
  ∀ (s : State) (fm pred succ : BitVec 4) (imm : BitVec 12) (rd rs1 rs2 : Reg),
    exec (.fence fm pred succ rs1 rd) s = .next s ∧ exec (.fenceI imm rs1 rd) s = .next s ∧
    (s.priv ≠ .u → exec (.sfenceVma rs1 rs2) s = .next s) ∧
    exec .wfi s = .next { s with stdby := true }

/-- ECALL and EBREAK enter the handler of the level the exception goes to, whenever its vector mode is legal: code 8, 9 or 11 by
mode, or 3; the saved pc is their own; the trap value is `tval_next` as it was, 0 between ticks (46_system.md R342, R343).
The cited rules rest in part on the spec's own decisions D14, D23. -/
def Obligations.CallsEnterHandler : Prop :=
  ∀ (s : State) (e : Exception),
    (e = (match s.priv with | .u => .environmentCallFromU | .s => .environmentCallFromS | .m => .environmentCallFromM) →
      HandlerReady e s →
      ∃ t, exec .ecall s = .next t ∧ (GoesToS e s → InHandlerS e s.csr.tvalNext s t) ∧
        (¬GoesToS e s → InHandlerM e s.csr.tvalNext s t)) ∧
    (e = .breakpoint → HandlerReady e s →
      ∃ t, exec .ebreak s = .next t ∧ (GoesToS e s → InHandlerS e s.csr.tvalNext s t) ∧
        (¬GoesToS e s → InHandlerM e s.csr.tvalNext s t))

/-- MRET in M-mode and SRET in S- or M-mode complete: the saved mode, interrupt enable and pc come back, the saved fields take
their idle values, MPRV is cleared unless the new mode is M, and nothing else changes (46_system.md R344, R345).
That MRET enters U where MPP holds 2, a value R344 says is never there, is the model's choice (log 11).
The cited rules rest in part on the spec's own decisions D30. -/
def Obligations.TrapReturnsRestore : Prop :=
  ∀ (s : State),
    (s.priv = .m →
      ∃ p w, (p = .m ↔ s.csr.mstatus.toNat / 2 ^ 11 % 4 = 3) ∧ (p = .s ↔ s.csr.mstatus.toNat / 2 ^ 11 % 4 = 1) ∧
        (∀ k, k < 32 → w.getLsbD k =
          if k = 3 then s.csr.mstatus.getLsbD 7 else if k = 7 then true else if k = 11 ∨ k = 12 then false
          else if k = 17 then s.csr.mstatus.getLsbD 17 && decide (p = .m) else s.csr.mstatus.getLsbD k) ∧
        exec .mret s = .next { s with priv := p, pcNext := s.csr.mepc, csr := { s.csr with mstatus := w } }) ∧
    (s.priv ≠ .u →
      ∃ p w, p = (if s.csr.mstatus.getLsbD 8 then .s else .u) ∧
        (∀ k, k < 32 → w.getLsbD k =
          if k = 1 then s.csr.mstatus.getLsbD 5 else if k = 5 then true else if k = 8 ∨ k = 17 then false
          else s.csr.mstatus.getLsbD k) ∧
        exec .sret s = .next { s with priv := p, pcNext := s.csr.sepc, csr := { s.csr with mstatus := w } })

/-- MRET below M-mode, SRET and SFENCE.VMA in U-mode raise illegal_instruction with their word as trap value
(46_system.md R344, R345, R347; 60_exceptions.md R422).
The cited rules rest in part on the spec's own decisions D25, D30, D41.
That the word is `encode` of the instruction is the model's reading (log 17). -/
def Obligations.PrivilegedTrapBelow : Prop :=
  ∀ (s : State) (rs1 rs2 : Reg),
    (s.priv ≠ .m → TakesException .illegalInstruction 0x30200073#32 s (exec .mret s)) ∧
    (s.priv = .u → TakesException .illegalInstruction 0x10200073#32 s (exec .sret s) ∧
      TakesException .illegalInstruction (encode (.sfenceVma rs1 rs2)) s (exec (.sfenceVma rs1 rs2) s))

-- ================ traps ================

/-- M-trap entry for any trap through a legal vector: what it saves, what the status and the mode become, and nothing else
(60_exceptions.md R411). -/
def Obligations.MachineTrapEntry : Prop :=
  ∀ (s : State) (c : Trap) (target : Word), trapVector s.csr.mtvec c = some target →
    ∃ w epc, StatusEnteredM s.csr.mstatus w s.priv ∧
      (∀ e, c = .exception e → epc = s.pc) ∧ (∀ i, c = .interrupt i → epc = s.pcNext) ∧
      enterM c s = .next { s with
        priv := .m, stdby := false, pcNext := target
        csr := { s.csr with mepc := epc, mcause := causeWord c, mtval := s.csr.tvalNext, mstatus := w } }

/-- S-trap entry, likewise (60_exceptions.md R412). -/
def Obligations.SupervisorTrapEntry : Prop :=
  ∀ (s : State) (c : Trap) (target : Word), trapVector s.csr.stvec c = some target →
    ∃ w epc, StatusEnteredS s.csr.mstatus w s.priv ∧
      (∀ e, c = .exception e → epc = s.pc) ∧ (∀ i, c = .interrupt i → epc = s.pcNext) ∧
      enterS c s = .next { s with
        priv := .s, stdby := false, pcNext := target
        csr := { s.csr with sepc := epc, scause := causeWord c, stval := s.csr.tvalNext, mstatus := w } }

/-- The vector and the cause: the base for an exception and in mode 0, base + 4 * code for an interrupt in mode 1, always a
multiple of 4; mode 2 or 3 has none and both trap entries are then fatal; the cause is the code, with bit 31 for an interrupt, the codes
being those of the two tables (60_exceptions.md R413, R420, R431; 10_state.md R55).
The cited rules rest in part on the spec's own decisions D14, D15, D23, D46, and on bit positions from general knowledge. -/
def Obligations.VectorAndCause : Prop :=
  ∀ (tvec : Word) (e : Exception) (i : Interrupt) (c : Trap) (s : State),
    (tvec.toNat % 4 < 2 → trapVector tvec (.exception e) = some (handlerBase tvec)) ∧
    (tvec.toNat % 4 = 0 → trapVector tvec (.interrupt i) = some (handlerBase tvec)) ∧
    (tvec.toNat % 4 = 1 →
      ∃ t, trapVector tvec (.interrupt i) = some t ∧ IsSum t (handlerBase tvec) (4 * (interruptCode i : Int))) ∧
    (2 ≤ tvec.toNat % 4 → trapVector tvec c = none) ∧
    (∀ t, trapVector tvec c = some t → t.toNat % 4 = 0) ∧
    (trapVector s.csr.mtvec c = none → enterM c s = .fault .badTvecMode) ∧
    (trapVector s.csr.stvec c = none → enterS c s = .fault .badTvecMode) ∧
    (causeWord (.exception e)).toNat = exceptionCode e ∧
    (causeWord (.interrupt i)).toNat = 2 ^ 31 + interruptCode i ∧
    [Interrupt.ssi, .msi, .sti, .mti, .sei, .mei].map interruptCode = [1, 3, 5, 7, 9, 11] ∧
    [Exception.instructionAddressMisaligned, .illegalInstruction, .breakpoint, .loadAddressMisaligned,
      .storeAmoAddressMisaligned, .environmentCallFromU, .environmentCallFromS, .environmentCallFromM,
      .instructionPageFault, .loadPageFault, .storeAmoPageFault].map exceptionCode = [0, 2, 3, 4, 6, 8, 9, 11, 12, 13, 15]

/-- An exception raised below M-mode whose `medeleg` bit is set is taken in S-mode, any other in M-mode; it is always consumed by
a trap entry, never handed to the host (but for the fatal vector), and a trap never lowers the mode (60_exceptions.md R410). -/
def Obligations.ExceptionDelegation : Prop :=
  ∀ (s : State) (e : Exception),
    (s.priv ≠ .m ∧ s.csr.medeleg.getLsbD (exceptionCode e) = true →
      handleException e s = enterS (.exception e) s) ∧
    (¬(s.priv ≠ .m ∧ s.csr.medeleg.getLsbD (exceptionCode e) = true) →
      handleException e s = enterM (.exception e) s) ∧
    ((∃ t, handleException e s = .next t) ∨ handleException e s = .fault .badTvecMode) ∧
    (∀ t, handleException e s = .next t → modeNum s.priv ≤ modeNum t.priv)

/-- Exceptions are precise: an instruction that raises has written no general register, no pc, no CSR but those of trap entry, no
reservation address, and no memory but the leaf entry of a translation that succeeded (60_exceptions.md R407).
That the write-back of that leaf ends a reservation it hits is the model's choice (log 28).
The cited rules rest in part on the spec's own decisions D45.
`exc` is the model's own field for the rules' local variable (log 6). -/
def Obligations.ExceptionsPrecise : Prop :=
  ∀ (i : Instr) (s t : State), s.exc = none → exec i s = .next t → t.exc ≠ none →
    t.regs = s.regs ∧ t.pc = s.pc ∧ t.reservedAddr = s.reservedAddr ∧ t.platform = s.platform ∧ t.dic = s.dic ∧
    t.deviceCalls.length ≤ s.deviceCalls.length + 1 ∧
    (t.priv = .s → t.csr = { s.csr with
      sepc := s.pc, scause := t.csr.scause, stval := t.csr.stval, tvalNext := t.csr.tvalNext
      mstatus := t.csr.mstatus }) ∧
    (t.priv = .m → t.csr = { s.csr with
      mepc := s.pc, mcause := t.csr.mcause, mtval := t.csr.mtval, tvalNext := t.csr.tvalNext
      mstatus := t.csr.mstatus }) ∧
    ((SameBytes s t ∧ t.reservedValid = s.reservedValid ∧ t.valid = s.valid) ∨
      ∃ v intent tr addr pte, dataAccess i s = some (v, intent) ∧ translation v intent s = some tr ∧
        tr.writeBack = some (addr, pte) ∧ v.toNat % 4 ≠ 0 ∧ ∀ a, a < addr.toNat ∨ addr.toNat + 4 ≤ a → t.mem.read a = s.mem.read a)

-- ================ the tick ================

/-- `cycle` advances by 1 modulo 2^64 in every tick, executed, trapped or in standby, unless `mcountinhibit[0]` is 1 after the
instruction, and the STIP comparison uses the advanced value (60_exceptions.md R401). -/
def Obligations.CycleCountsTicks : Prop :=
  ∀ (s s1 t : State) (delta : DWord) (af : Bool), phase1 af s = .next s1 → tickWith delta af s = .next t →
    t.csr.cycle.toNat = (s1.csr.cycle.toNat + if s1.csr.mcountinhibit.getLsbD 0 then 0 else 1) % 2 ^ 64 ∧
    t.csr.mip.getLsbD 5 = decide (t.csr.scyclecmp.toNat ≤ t.csr.cycle.toNat % 2 ^ 32)

/-- `mtime` advances by the tick's clock delta modulo 2^64 in every tick, and MTIP and STIP are overwritten by the two unsigned
comparisons, the other bits of `mip` staying as the instruction left them (60_exceptions.md R402, R404).
The cited rules rest in part on the spec's own decisions D28, D29. -/
def Obligations.TimersRecomputed : Prop :=
  ∀ (s s1 t : State) (delta : DWord) (af : Bool), phase1 af s = .next s1 → tickWith delta af s = .next t →
    t.csr.mtime.toNat = (s1.csr.mtime.toNat + delta.toNat) % 2 ^ 64 ∧
    t.csr.mtimecmp = s1.csr.mtimecmp ∧ t.csr.scyclecmp = s1.csr.scyclecmp ∧
    ∀ k, k < 32 → t.csr.mip.getLsbD k =
      if k = 5 then decide (t.csr.scyclecmp.toNat ≤ t.csr.cycle.toNat % 2 ^ 32)
      else if k = 7 then decide (t.csr.mtimecmp.toNat ≤ t.csr.mtime.toNat)
      else s1.csr.mip.getLsbD k

/-- `instret` advances by 1 iff no exception was raised, the hart is not in standby after the instruction and `mcountinhibit[2]`
is clear (60_exceptions.md R403).
`exc` is the model's own field for the rules' local variable (log 6). -/
def Obligations.InstretCountsCompletions : Prop :=
  ∀ (s s1 t : State) (delta : DWord) (af : Bool), phase1 af s = .next s1 → tickWith delta af s = .next t →
    t.csr.instret.toNat =
      (s1.csr.instret.toNat +
        if s1.exc = none ∧ s1.stdby = false ∧ s1.csr.mcountinhibit.getLsbD 2 = false then 1 else 0) % 2 ^ 64

/-- A hardware counter advances by 1 iff it is not inhibited and its event holds: the mode after the instruction and before any trap
entry for events 1 to 3, standby for event 4; a parameter says whether events 1 to 3 count in standby (60_exceptions.md R405).
The cited rules rest in part on the spec's own decisions D27.
`exc` is the model's own field for the rules' local variable (log 6). -/
def Obligations.EventCountersAdvance : Prop :=
  ∀ (s s1 t : State) (delta : DWord) (af : Bool) (i : Fin 29) (p : Mode) (sb : Bool),
    phase1 af s = .next s1 → tickWith delta af s = .next t →
    (s1.exc = none → p = s1.priv ∧ sb = s1.stdby) → (s1.exc ≠ none → p = s.priv ∧ sb = false) →
    t.csr.hpmevents = s1.csr.hpmevents ∧
    t.csr.hpmcounters[i].toNat =
      (s1.csr.hpmcounters[i].toNat +
        if s1.csr.mcountinhibit.getLsbD (i.val + 3) = false ∧
          ((s1.csr.hpmevents[i].toNat = 4 ∧ sb = true) ∨
            ((s1.platform.hpmInStandby = true ∨ sb = false) ∧
              ((s1.csr.hpmevents[i].toNat = 1 ∧ p = .u) ∨ (s1.csr.hpmevents[i].toNat = 2 ∧ p = .s) ∨
                (s1.csr.hpmevents[i].toNat = 3 ∧ p = .m))))
        then 1 else 0) % 2 ^ 64

/-- The interrupt prioritiser: the first takable interrupt of the M order enters M; if there is none, the first takable of the S
order enters S; if there is none, nothing happens (60_exceptions.md R430).
The cited rules rest in part on the spec's own decisions D16. -/
def Obligations.InterruptPriority : Prop :=
  ∀ (s : State) (i : Interrupt),
    (TakableM i s → (∀ j ∈ beforeM i, ¬TakableM j s) → tryInterrupt s = enterM (.interrupt i) s) ∧
    ((∀ j, ¬TakableM j s) → TakableS i s → (∀ j ∈ beforeS i, ¬TakableS j s) →
      tryInterrupt s = enterS (.interrupt i) s) ∧
    ((∀ j, ¬TakableM j s) → (∀ j, ¬TakableS j s) → tryInterrupt s = .next s)

/-- Delegation decides the level: an interrupt that is taken is pending and enabled, and goes to M with its `mideleg` bit clear or
to S, from below M, with its bit set; so a delegated interrupt is never taken in M-mode, whatever MIE and SIE hold and whatever
is pending beside it. Below M-mode a pending and enabled non-delegated interrupt makes a non-delegated one enter M, whatever MIE
holds (60_exceptions.md R430, R432).
The cited rules rest in part on the spec's own decisions D16. -/
def Obligations.DelegationMasksInterrupts : Prop :=
  ∀ (s t : State), tryInterrupt s = .next t →
    (t = s ∨ ∃ i, PendingEnabled i s ∧
      ((s.csr.mideleg.getLsbD (interruptCode i) = false ∧ t.priv = .m ∧ t.csr.mepc = s.pcNext ∧
          t.csr.mcause.toNat = 2 ^ 31 + interruptCode i) ∨
       (s.csr.mideleg.getLsbD (interruptCode i) = true ∧ s.priv ≠ .m ∧ t.priv = .s ∧ t.csr.sepc = s.pcNext ∧
          t.csr.scause.toNat = 2 ^ 31 + interruptCode i))) ∧
    (∀ i, s.priv ≠ .m → PendingEnabled i s → s.csr.mideleg.getLsbD (interruptCode i) = false →
      t.priv = .m ∧ t.csr.mepc = s.pcNext ∧
        ∃ j, PendingEnabled j s ∧ s.csr.mideleg.getLsbD (interruptCode j) = false ∧
          t.csr.mcause.toNat = 2 ^ 31 + interruptCode j)

/-- A tick that raised an exception takes no interrupt: it ends in the handler of the exception, with the trap registers and the
mode as trap entry left them (60_exceptions.md R400, R406).
The cited rules rest in part on the spec's own decisions D39.
`exc` is the model's own field for the rules' local variable (log 6). -/
def Obligations.ExceptionExcludesInterrupt : Prop :=
  ∀ (s s1 t : State) (delta : DWord) (af : Bool), s.stdby = false →
    phase1 af s = .next s1 → s1.exc ≠ none → tickWith delta af s = .next t →
    t.priv = s1.priv ∧ t.stdby = false ∧ t.pc = s1.pcNext ∧ IsSum t.pcNext t.pc 4 ∧
    t.csr.mepc = s1.csr.mepc ∧ t.csr.mcause = s1.csr.mcause ∧ t.csr.mtval = s1.csr.mtval ∧
    t.csr.sepc = s1.csr.sepc ∧ t.csr.scause = s1.csr.scause ∧ t.csr.stval = s1.csr.stval ∧
    t.csr.mstatus = s1.csr.mstatus ∧ t.csr.tvalNext = 0#32

/-- A tick in standby executes nothing: if it stays in standby, only the counters, `mtime`, the timer bits of `mip` and the tick's own
end change; if it leaves it, an interrupt was taken and the next pc saved (60_exceptions.md R457; 10_state.md R27). -/
def Obligations.StandbyTick : Prop :=
  ∀ (s t : State) (delta : DWord) (af : Bool), s.stdby = true → tickWith delta af s = .next t →
    SameBytes s t ∧ (∀ r, t.x r = s.x r) ∧
    (∀ k, k ≠ 5 → k ≠ 7 → t.csr.mip.getLsbD k = s.csr.mip.getLsbD k) ∧
    (t.stdby = true →
      t = { s with
        regs := t.regs, exc := none, tick := s.tick + 1
        csr := { s.csr with
          cycle := t.csr.cycle, mtime := t.csr.mtime, hpmcounters := t.csr.hpmcounters, mip := t.csr.mip
          tvalNext := 0#32 } }) ∧
    (t.stdby = false →
      (t.priv = .m ∧ t.csr.mepc = s.pcNext ∧ t.csr.mcause.getLsbD 31 = true) ∨
      (t.priv = .s ∧ t.csr.sepc = s.pcNext ∧ t.csr.scause.getLsbD 31 = true))

/-- A step runs the decoded instruction: in a good state whose fetch translation succeeds, with no host operation before the tick, the
word in memory at the physical pc after that translation decides; where it decodes to `i` the step is `exec i`, else the illegal
instruction, on the state after the translation (but for the decode cache), then the accounting, the interrupt check and the advance
of the pc (60_exceptions.md R400; 20_memory.md R132, R165).
The cited rules rest in part on the spec's own decisions D39.
The decode cache's frame image and the host operations before the tick are the model's forms (log 8, log 23). -/
def Obligations.StepRunsDecoded : Prop :=
  ∀ (s : State) (tr : Translation), s.mem.wf → s.platform.wf → DicCoherent s →
    s.finished = false → s.stdby = false → (nextInput s).ops = [] → (nextInput s).allocFails = false →
    translation s.pc .fetch s = some tr →
    ∃ u e, AfterTranslation tr { dropInput s with exc := none } u ∧ e = { u with dic := e.dic, valid := e.valid } ∧
      ∀ (w : Word) (o : Out), w = pmValue (granuleOf tr.phys) .word false u →
        (∀ i, decodeWord w = some i → o = exec i e) →
        (decodeWord w = none → o = takeIllegal w e) →
        step s = match o with
          | .next s1 => finishTick (dropInput s) s1 (nextInput s).timeDelta
          | .fault r => .fault r
          | .refused r => .refused r

/-- The end of a tick that raised nothing, on the accounted state `a`: where no interrupt is takable the pc takes `pc_next`, which becomes
its successor, unless the hart is in standby; where one is taken through a legal vector the pc is the vector's address, the saved
pc is `pc_next` and the trap value is `tval_next`, which is 0 whenever phase 1 began with it 0, for a phase 1 that raises nothing
leaves it so (10_state.md R23; 60_exceptions.md R400, R411 to R413, R430).
The cited rules rest in part on the spec's own decisions D16, D39. `exc` is the model's own field for the rules' local variable
(log 6). -/
def Obligations.QuietTickAdvances : Prop :=
  ∀ (s s1 a : State) (delta : DWord), s1.exc = none → a = account s1.priv s1.stdby delta s1 →
    ((∀ i, ¬TakableM i a) → (∀ i, ¬TakableS i a) → ∃ t, finishTick s s1 delta = .next t ∧
      (s1.stdby = false → t.pc = s1.pcNext ∧ IsSum t.pcNext s1.pcNext 4) ∧
      (s1.stdby = true → t.pc = s1.pc ∧ t.pcNext = s1.pcNext) ∧
      (∀ r, t.x r = s1.x r) ∧ SameBytes s1 t ∧ t.priv = s1.priv ∧ t.stdby = s1.stdby ∧
      t.reservedAddr = s1.reservedAddr ∧ t.reservedValid = s1.reservedValid ∧ t.csr.mstatus = s1.csr.mstatus) ∧
    (∀ i v, TakenM i a → trapVector s1.csr.mtvec (.interrupt i) = some v → ∃ t, finishTick s s1 delta = .next t ∧
      t.pc = v ∧ IsSum t.pcNext v 4 ∧ t.priv = .m ∧ t.stdby = false ∧ (∀ r, t.x r = s1.x r) ∧ SameBytes s1 t ∧
      t.csr.mepc = s1.pcNext ∧ t.csr.mcause.toNat = 2 ^ 31 + interruptCode i ∧ t.csr.mtval = s1.csr.tvalNext ∧
      StatusEnteredM s1.csr.mstatus t.csr.mstatus s1.priv) ∧
    (∀ i v, TakenS i a → trapVector s1.csr.stvec (.interrupt i) = some v → ∃ t, finishTick s s1 delta = .next t ∧
      t.pc = v ∧ IsSum t.pcNext v 4 ∧ t.priv = .s ∧ t.stdby = false ∧ (∀ r, t.x r = s1.x r) ∧ SameBytes s1 t ∧
      t.csr.sepc = s1.pcNext ∧ t.csr.scause.toNat = 2 ^ 31 + interruptCode i ∧ t.csr.stval = s1.csr.tvalNext ∧
      StatusEnteredS s1.csr.mstatus t.csr.mstatus s1.priv) ∧
    (∀ af, s.csr.tvalNext = 0#32 → phase1 af s = .next s1 → s1.csr.tvalNext = 0#32)

-- ================ translation and physical memory ================

/-- The Sv32 walk: untranslated when `satp` is bare or the effective privilege is M; else the megapage or the 4 KiB page found by the
two-level walk, with the leaf to write back, and a fault in every other case; a physical address keeps the low 12 bits of the
virtual one, under a megapage the low 22 (20_memory.md R120, R121, R123 to R126).
The cited rules rest in part on the spec's own decisions D17, D19, and on bit positions from general knowledge. -/
def Obligations.TranslationWalk : Prop :=
  ∀ (v : Word) (intent : Intent) (s : State),
    (s.csr.satp.toNat < 2 ^ 31 ∨ effPriv intent s = .m →
      ∃ tr, translation v intent s = some tr ∧ tr.writeBack = none ∧ tr.phys.toNat = v.toNat) ∧
    (2 ^ 31 ≤ s.csr.satp.toNat → effPriv intent s ≠ .m →
      (MegaHit v intent s → ∃ tr pte, translation v intent s = some tr ∧
        tr.writeBack = some (entry1Addr v s, pte) ∧ Touched (entry1 v s) intent pte ∧
        tr.phys.toNat = (entry1 v s).toNat / 2 ^ 20 * 2 ^ 22 + v.toNat % 2 ^ 22) ∧
      (PageHit v intent s → ∃ tr pte, translation v intent s = some tr ∧
        tr.writeBack = some (entry0Addr v s, pte) ∧ Touched (entry0 v s) intent pte ∧
        tr.phys.toNat = (entry0 v s).toNat / 1024 * 4096 + v.toNat % 4096) ∧
      (¬MegaHit v intent s → ¬PageHit v intent s → translation v intent s = none))

/-- The effective privilege is the current mode for a fetch, and for a load or store the mode in MPP when MPRV is set, else the
current mode (20_memory.md R121). -/
def Obligations.EffectivePrivilege : Prop :=
  ∀ (s : State) (intent : Intent) (p : Mode), s.csr.Legal →
    effPriv .fetch s = s.priv ∧
    (intent ≠ .fetch → s.csr.mstatus.getLsbD 17 = false → effPriv intent s = s.priv) ∧
    (intent ≠ .fetch → s.csr.mstatus.getLsbD 17 = true → s.csr.mstatus.toNat / 2 ^ 11 % 4 = modeNum p →
      effPriv intent s = p)

/-- A noisy translation that succeeds is followed by exactly one physical write of the leaf entry, if a table was walked; with
`noisy = false` nothing is written; a translation that fails changes nothing and raises the page fault of the intent with the
virtual address (20_memory.md R125, R127).
The cited rules rest in part on the spec's own decisions D19. -/
def Obligations.TranslationEffects : Prop :=
  ∀ (v : Word) (intent : Intent) (s : State), s.mem.wf →
    (∀ tr, translation v intent s = some tr →
      translate v intent false s = .ok tr.phys s ∧
      ∃ w, translate v intent true s = .ok tr.phys w ∧ AfterTranslation tr s w) ∧
    (translation v intent s = none → ∀ noisy, translate v intent noisy s =
      .raised { exception := match intent with
        | .fetch => .instructionPageFault
        | .read => .loadPageFault
        | .write => .storeAmoPageFault, tval := some v } s)

/-- A physical read: the little-endian value of the buffer's bytes in RAM and ROM, all ones of the width where no region covers the
address, a value of the width from a device; only a side-effecting read of a device leaves a trace (20_memory.md R101, R107, R110).
The cited rules rest in part on the spec's own decisions D2. -/
def Obligations.PhysicalReads : Prop :=
  ∀ (phys : PAddr) (n : Width) (noisy : Bool) (s : State),
    (∀ r, s.regionAt phys = some r → r.backing = .buffer →
      (∀ k, k < bytesOf n → byteAt (pmRead phys n noisy s).1.toNat k = (s.mem.read (phys.toNat + k)).toNat)) ∧
    (pmRead phys n noisy s).1.toNat < 256 ^ bytesOf n ∧
    (s.regionAt phys = none → (pmRead phys n noisy s).1.toNat = 256 ^ bytesOf n - 1) ∧
    (noisy = false ∨ ¬IsDevice phys s → (pmRead phys n noisy s).2 = s)

/-- A physical write succeeds exactly where a writable region covers the address; a refused one changes nothing, and one that
succeeds ends the reservation on its word (20_memory.md R103, R106, R152). That a write which is not aligned clears the `valid`
bit of every frame it touches, and stores every byte at its address, is the model's choice (log 18, log 27).
The cited rules rest in part on the spec's own decisions D20, D35. -/
def Obligations.PhysicalWrites : Prop :=
  ∀ (phys : PAddr) (n : Width) (v : Word) (s : State), s.mem.wf →
    ((pmWrite phys n v true s).1 = true ↔ ∃ r, s.regionAt phys = some r ∧ r.writable = true) ∧
    Stored phys n v s (pmWrite phys n v true s).2 ∧
    ((pmWrite phys n v true s).1 = false → (pmWrite phys n v true s).2 = s) ∧
    ((pmWrite phys n v true s).1 = true →
      ¬((pmWrite phys n v true s).2.reservedValid = true ∧
        (pmWrite phys n v true s).2.reservedAddr.toNat = phys.toNat / 4 * 4))

/-- Fetch coherence: in a good state the word the decode cache gives is the word now in memory, whatever the cache holds, and the cache
is coherent after it (20_memory.md R160 to R165).
The cited rules rest in part on the spec's own decisions D36.
The decode cache's frame image is the model's form (log 8). -/
def Obligations.FetchSeesMemory : Prop :=
  ∀ (s : State) (phys : PAddr), s.platform.wf → DicCoherent s →
    ∃ t, dicFetch false phys s = some (pmValue (granuleOf phys) .word false s, t) ∧ DicCoherent t ∧
      t = { s with dic := t.dic, valid := t.valid }

-- ================ the host ================

/-- `interrupt_up` and `interrupt_down`: code 9 drives the external line alone, codes 1, 3 and 11 their own bit of `mip`, every other
code bit 11 (60_exceptions.md R440, R441). -/
def Obligations.InterruptLines : Prop :=
  ∀ (s : State) (code : Nat),
    interruptUp 9 s = { s with csr := { s.csr with externalSeip := true } } ∧
    interruptDown 9 s = { s with csr := { s.csr with externalSeip := false } } ∧
    (code ≠ 9 → ∃ up down bit, bit = (if code ∈ [1, 3, 11] then code else 11) ∧
      interruptUp code s = { s with csr := { s.csr with mip := up } } ∧
      interruptDown code s = { s with csr := { s.csr with mip := down } } ∧
      ∀ k, k < 32 → up.getLsbD k = (decide (k = bit) || s.csr.mip.getLsbD k) ∧
        down.getLsbD k = (!decide (k = bit) && s.csr.mip.getLsbD k))

/-- A debugger's `read_mem` with `noisy = false` changes no state at all, whatever it answers; a host read or write, noisy or not, leaves
`tval_next` as it was, for its exception is returned and not raised (log 12); and `cpu_set_pc` sets the pc and its
successor alone, a misaligned value being fatal (70_reset_and_hazards.md R502, R504, R506).
The cited rules rest in part on the spec's own decisions D38, D43.
That no operation is accepted after `cpu_done` is `finished` (log 15). -/
def Obligations.HostAccess : Prop :=
  ∀ (s : State) (v next : Word) (n : Width) (fetch : Bool), s.finished = false → IsSum next v 4 →
    applyHostOp (.readMem v n fetch false) s = .next s ∧
    (∀ (val : Word) (noisy : Bool) (t : State),
      applyHostOp (.readMem v n fetch noisy) s = .next t ∨ applyHostOp (.writeMem v n val noisy) s = .next t →
      t.csr.tvalNext = s.csr.tvalNext) ∧
    (v.toNat % 4 = 0 → applyHostOp (.setPc v) s = .next { s with pc := v, pcNext := next }) ∧
    (v.toNat % 4 ≠ 0 → applyHostOp (.setPc v) s = .fault .misalignedSetPc)

/-- `cpu_init` puts every item of the hart at its reset value, `mhartid` at its argument and the pc at `RESET_PC`, clears the valid bits
and empties the decode cache (log 16), and leaves memory and all else untouched. The zeros are the spec's own decision (log 2)
(70_reset_and_hazards.md R500, R510; 10_state.md R90).
The cited rules rest in part on the spec's own decisions D7. -/
def Obligations.InitResets : Prop :=
  ∀ (s : State) (h next : Word), s.finished = false → IsSum next s.platform.resetPc 4 →
    ∃ t, applyHostOp (.init h) s = .next t ∧ SameBytes s t ∧ (∀ r, t.x r = 0#32) ∧
      (∀ i : Fin 29, t.csr.hpmcounters[i] = 0#64 ∧ t.csr.hpmevents[i] = 0#32) ∧
      t = { s with
        regs := t.regs, pc := s.platform.resetPc, pcNext := next, priv := .m, stdby := false
        reservedAddr := 0#36, reservedValid := false, valid := [], dic := [], exc := none
        csr := {
          mstatus := 0#32, mie := 0#32, mip := 0#32, mtvec := 0#32, mepc := 0#32, mcause := 0#32, mtval := 0#32
          medeleg := 0#32, mideleg := 0#32, satp := 0#32, stvec := 0#32, sepc := 0#32, scause := 0#32, stval := 0#32
          mscratch := 0#32, sscratch := 0#32, mcounteren := 0#32, scounteren := 0#32, mcountinhibit := 0#32
          mhartid := h, scyclecmp := 0#32, mtime := 0#64, mtimecmp := 0#64, cycle := 0#64, instret := 0#64
          hpmcounters := t.csr.hpmcounters, hpmevents := t.csr.hpmevents, externalSeip := false, tvalNext := 0#32 } }

-- ================ invariants and whole-machine rules ================

/-- The reset state satisfies the invariant (10_state.md R90).  Its platform is the model's choice (log 1).
The cited rules rest in part on the spec's own decisions D7. -/
def Obligations.ResetSatisfiesInv : Prop :=
  Inv State.reset

/-- Every step keeps the invariant: CSRs within their masks and a legal MPP, MPRV clear below M-mode, an aligned pc with its successor, `x0` = 0, an aligned
reservation, canonical memory, a coherent decode cache (10_state.md R21, R24 to R28, R42 to R54; 20_memory.md R165; 46_system.md R344, R345).
The cited rules rest in part on the spec's own decisions D4, D8, D9, D10, D11, D12, D13, D30, D42, D46, D47, and on bit
positions from general knowledge. -/
def Obligations.StepKeepsInv : Prop :=
  ∀ s t : State, Inv s → step s = .next t → Inv t

/-- The mode changes only by trap entry, which never lowers it, by MRET and by SRET (60_exceptions.md R410, R451).
`exc` is the model's own field for the rules' local variable (log 6). -/
def Obligations.ModeChangesOnlyByTraps : Prop :=
  ∀ (i : Instr) (s t : State), s.exc = none → exec i s = .next t →
    (t.exc ≠ none → modeNum s.priv ≤ modeNum t.priv) ∧
    (t.exc = none → t.priv ≠ s.priv → i = .mret ∨ i = .sret)

/-- Below M-mode, with MPRV clear, an instruction that does not trap leaves the machine level alone: in U-mode it changes no CSR, no timer
and no mode; in S-mode none of the M-level trap registers, delegation words, inhibit and enable words, counters, event
selectors, timers, M-level bits of `mstatus` and `mie`, or bits of `mip` but SSIP (10_state.md R50; 45_zicsr.md R321; 10_state.md R43; 20_memory.md R140; 60_exceptions.md R450).
The cited rules rest in part on the spec's own decisions D6, D31, D35, and on bit positions from general knowledge.
`exc` is the model's own field for the rules' local variable (log 6). -/
def Obligations.LowerModesLeaveMachineState : Prop :=
  ∀ (i : Instr) (s t : State), s.platform.wf → s.csr.mstatus.getLsbD 17 = false → s.exc = none →
    exec i s = .next t → t.exc = none →
    (s.priv = .u → t.csr = s.csr ∧ t.priv = .u) ∧
    (s.priv = .s →
      t.csr.mtvec = s.csr.mtvec ∧ t.csr.mepc = s.csr.mepc ∧ t.csr.mcause = s.csr.mcause ∧ t.csr.mtval = s.csr.mtval ∧
      t.csr.medeleg = s.csr.medeleg ∧ t.csr.mideleg = s.csr.mideleg ∧ t.csr.mscratch = s.csr.mscratch ∧
      t.csr.mcounteren = s.csr.mcounteren ∧ t.csr.mcountinhibit = s.csr.mcountinhibit ∧
      t.csr.cycle = s.csr.cycle ∧ t.csr.instret = s.csr.instret ∧ t.csr.hpmcounters = s.csr.hpmcounters ∧
      t.csr.hpmevents = s.csr.hpmevents ∧ t.csr.mhartid = s.csr.mhartid ∧ t.csr.externalSeip = s.csr.externalSeip ∧
      t.csr.mtime = s.csr.mtime ∧ t.csr.mtimecmp = s.csr.mtimecmp ∧
      (∀ k ∈ [3, 7, 11, 12, 17], t.csr.mstatus.getLsbD k = s.csr.mstatus.getLsbD k) ∧
      (∀ k ∈ [3, 7, 11], t.csr.mie.getLsbD k = s.csr.mie.getLsbD k) ∧
      ∀ k, k ≠ 1 → t.csr.mip.getLsbD k = s.csr.mip.getLsbD k)
end

