-- ==== Sys2Proof/Laws/Bits.lean ====
section
/-! SUPPORT. Bits of words: single-bit updates, masked writes, and the fields of `mstatus` after them. -/

namespace Sys2Proof.Machine

/-- Bit `j` of a word with bit `i` replaced. -/
theorem getLsbD_setBit (w : Word) (i j : Nat) (b : Bool) :
    (setBit w i b).getLsbD j = if j = i ∧ i < 32 then b else w.getLsbD j := by
  unfold setBit
  by_cases hj : j < 32
  · by_cases h : j = i
    · subst h
      cases b <;> simp [hj]
    · have h1 : (1#32 <<< i).getLsbD j = false := by
        by_cases hij : i ≤ j
        · have : j - i ≠ 0 := by omega
          simp [this]
        · simp; omega
      cases b <;> simp only [Bool.false_eq_true, if_false, if_true, BitVec.getLsbD_and, BitVec.getLsbD_or,
        BitVec.getLsbD_not, h1] <;> simp [hj, h]
  · have h1 : ∀ x : Word, x.getLsbD j = false := fun x => BitVec.getLsbD_of_ge _ _ (by omega)
    rw [h1, h1]
    split
    · omega
    · rfl

/-- Bit `j` of a masked write. -/
theorem getLsbD_maskedWrite (mask old new : Word) (j : Nat) :
    (maskedWrite mask old new).getLsbD j = if mask.getLsbD j then new.getLsbD j else old.getLsbD j := by
  unfold maskedWrite
  by_cases hj : j < 32
  · simp only [BitVec.getLsbD_or, BitVec.getLsbD_and, BitVec.getLsbD_not, hj, decide_true, Bool.true_and]
    cases mask.getLsbD j <;> simp
  · have h1 : ∀ x : Word, x.getLsbD j = false := fun x => BitVec.getLsbD_of_ge _ _ (by omega)
    simp [h1]

/-- Two words with the same bits below 32 are equal. -/
theorem word_ext {a b : Word} (h : ∀ i, i < 32 → a.getLsbD i = b.getLsbD i) : a = b :=
  BitVec.eq_of_getLsbD_eq h

/-- The bits of the mode field of `withMpp`. -/
theorem getLsbD_withMpp (w : Word) (p : Mode) (j : Nat) :
    (withMpp w p).getLsbD j =
      if j = 11 then decide (p ≠ .u) else if j = 12 then decide (p = .m) else w.getLsbD j := by
  unfold withMpp
  rw [getLsbD_maskedWrite]
  by_cases hj : j < 32
  · interval_cases j <;> cases p <;> simp [zext, modeBits]
  · have h1 : ∀ x : Word, x.getLsbD j = false := fun x => BitVec.getLsbD_of_ge _ _ (by omega)
    rw [if_neg (show j ≠ 11 by omega), if_neg (show j ≠ 12 by omega)]
    simp [h1]

/-- The MPP field is its two bits. -/
theorem mppBits_eq_iff (w : Word) (b : BitVec 2) :
    mstatusMppBits w = b ↔ w.getLsbD 11 = b.getLsbD 0 ∧ w.getLsbD 12 = b.getLsbD 1 := by
  constructor
  · rintro rfl
    simp [mstatusMppBits]
  · rintro ⟨h0, h1⟩
    apply BitVec.eq_of_getLsbD_eq
    intro i hi
    have : i = 0 ∨ i = 1 := by omega
    rcases this with rfl | rfl
    · rw [← h0]; simp [mstatusMppBits]
    · rw [← h1]; simp [mstatusMppBits]

/-- `withMpp` writes the mode's own bits. -/
theorem mppBits_withMpp (w : Word) (p : Mode) : mstatusMppBits (withMpp w p) = modeBits p := by
  rw [mppBits_eq_iff]
  simp only [getLsbD_withMpp]
  cases p <;> simp [modeBits]

/-- A mode is the one its bits name. -/
@[simp] theorem modeOfBits_modeBits (p : Mode) : modeOfBits (modeBits p) = p := by cases p <;> rfl

/-- After `withMpp` the field names the mode. -/
theorem mstatusMpp_withMpp (w : Word) (p : Mode) : mstatusMpp (withMpp w p) = p := by
  rw [mstatusMpp, mppBits_withMpp, modeOfBits_modeBits]

/-- A word lies within a mask iff every bit outside it is 0. -/
theorem within_iff (mask w : Word) :
    w &&& ~~~mask = 0#32 ↔ ∀ i, i < 32 → mask.getLsbD i = false → w.getLsbD i = false := by
  constructor
  · intro h i hi hm
    have h2 := congrArg (fun x : Word => x.getLsbD i) h
    simp only [BitVec.getLsbD_and, BitVec.getLsbD_not, hm, hi] at h2
    simpa using h2
  · intro h
    apply word_ext
    intro i hi
    cases hm : mask.getLsbD i
    · simp [h i hi hm]
    · simp [hm]

/-- Cutting a word down to a mask puts it within. -/
theorem within_and (mask w : Word) : (w &&& mask) &&& ~~~mask = 0#32 := by
  apply word_ext
  intro i hi
  simp only [BitVec.getLsbD_and, BitVec.getLsbD_not, hi]
  cases mask.getLsbD i <;> simp

/-- A masked write whose mask lies within `mask` keeps a word within it. -/
theorem within_maskedWrite {mask m old new : Word} (hm : m &&& ~~~mask = 0#32) (ho : old &&& ~~~mask = 0#32) :
    maskedWrite m old new &&& ~~~mask = 0#32 := by
  rw [within_iff] at *
  intro i hi h
  rw [getLsbD_maskedWrite, hm i hi h]
  simpa using ho i hi h

/-- A single-bit update inside the mask keeps a word within it. -/
theorem within_setBit {mask w : Word} {j : Nat} (hj : mask.getLsbD j = true) (hw : w &&& ~~~mask = 0#32) (b : Bool) :
    setBit w j b &&& ~~~mask = 0#32 := by
  rw [within_iff] at *
  intro i hi h
  rw [getLsbD_setBit]
  split
  · rename_i h'; rw [h'.1, hj] at h; cases h
  · exact hw i hi h

end Sys2Proof.Machine
end

