-- ==== Sys2Proof/Laws/State.lean ====
section
/-! SUPPORT. One lemma per field per update of the state, and the two laws of the register file. -/

namespace Sys2Proof.Machine

-- ---- State.setX ----

@[simp] theorem State.setX_pc (s : State) (i : Reg) (v : Word) : (s.setX i v).pc = s.pc := by unfold State.setX; split <;> rfl
@[simp] theorem State.setX_pcNext (s : State) (i : Reg) (v : Word) : (s.setX i v).pcNext = s.pcNext := by unfold State.setX; split <;> rfl
@[simp] theorem State.setX_priv (s : State) (i : Reg) (v : Word) : (s.setX i v).priv = s.priv := by unfold State.setX; split <;> rfl
@[simp] theorem State.setX_stdby (s : State) (i : Reg) (v : Word) : (s.setX i v).stdby = s.stdby := by unfold State.setX; split <;> rfl
@[simp] theorem State.setX_reservedAddr (s : State) (i : Reg) (v : Word) : (s.setX i v).reservedAddr = s.reservedAddr := by unfold State.setX; split <;> rfl
@[simp] theorem State.setX_reservedValid (s : State) (i : Reg) (v : Word) : (s.setX i v).reservedValid = s.reservedValid := by unfold State.setX; split <;> rfl
@[simp] theorem State.setX_csr (s : State) (i : Reg) (v : Word) : (s.setX i v).csr = s.csr := by unfold State.setX; split <;> rfl
@[simp] theorem State.setX_mem (s : State) (i : Reg) (v : Word) : (s.setX i v).mem = s.mem := by unfold State.setX; split <;> rfl
@[simp] theorem State.setX_valid (s : State) (i : Reg) (v : Word) : (s.setX i v).valid = s.valid := by unfold State.setX; split <;> rfl
@[simp] theorem State.setX_dic (s : State) (i : Reg) (v : Word) : (s.setX i v).dic = s.dic := by unfold State.setX; split <;> rfl
@[simp] theorem State.setX_platform (s : State) (i : Reg) (v : Word) : (s.setX i v).platform = s.platform := by unfold State.setX; split <;> rfl
@[simp] theorem State.setX_exc (s : State) (i : Reg) (v : Word) : (s.setX i v).exc = s.exc := by unfold State.setX; split <;> rfl
@[simp] theorem State.setX_tick (s : State) (i : Reg) (v : Word) : (s.setX i v).tick = s.tick := by unfold State.setX; split <;> rfl
@[simp] theorem State.setX_deviceCalls (s : State) (i : Reg) (v : Word) : (s.setX i v).deviceCalls = s.deviceCalls := by unfold State.setX; split <;> rfl
@[simp] theorem State.setX_inputs (s : State) (i : Reg) (v : Word) : (s.setX i v).inputs = s.inputs := by unfold State.setX; split <;> rfl
@[simp] theorem State.setX_finished (s : State) (i : Reg) (v : Word) : (s.setX i v).finished = s.finished := by unfold State.setX; split <;> rfl

-- ---- State.setPcNext ----

@[simp] theorem State.setPcNext_regs (s : State) (w : Word) : (s.setPcNext w).regs = s.regs := rfl
@[simp] theorem State.setPcNext_pc (s : State) (w : Word) : (s.setPcNext w).pc = s.pc := rfl
@[simp] theorem State.setPcNext_pcNext (s : State) (w : Word) : (s.setPcNext w).pcNext = w := rfl
@[simp] theorem State.setPcNext_priv (s : State) (w : Word) : (s.setPcNext w).priv = s.priv := rfl
@[simp] theorem State.setPcNext_stdby (s : State) (w : Word) : (s.setPcNext w).stdby = s.stdby := rfl
@[simp] theorem State.setPcNext_reservedAddr (s : State) (w : Word) : (s.setPcNext w).reservedAddr = s.reservedAddr := rfl
@[simp] theorem State.setPcNext_reservedValid (s : State) (w : Word) : (s.setPcNext w).reservedValid = s.reservedValid := rfl
@[simp] theorem State.setPcNext_csr (s : State) (w : Word) : (s.setPcNext w).csr = s.csr := rfl
@[simp] theorem State.setPcNext_mem (s : State) (w : Word) : (s.setPcNext w).mem = s.mem := rfl
@[simp] theorem State.setPcNext_valid (s : State) (w : Word) : (s.setPcNext w).valid = s.valid := rfl
@[simp] theorem State.setPcNext_dic (s : State) (w : Word) : (s.setPcNext w).dic = s.dic := rfl
@[simp] theorem State.setPcNext_platform (s : State) (w : Word) : (s.setPcNext w).platform = s.platform := rfl
@[simp] theorem State.setPcNext_exc (s : State) (w : Word) : (s.setPcNext w).exc = s.exc := rfl
@[simp] theorem State.setPcNext_tick (s : State) (w : Word) : (s.setPcNext w).tick = s.tick := rfl
@[simp] theorem State.setPcNext_deviceCalls (s : State) (w : Word) : (s.setPcNext w).deviceCalls = s.deviceCalls := rfl
@[simp] theorem State.setPcNext_inputs (s : State) (w : Word) : (s.setPcNext w).inputs = s.inputs := rfl
@[simp] theorem State.setPcNext_finished (s : State) (w : Word) : (s.setPcNext w).finished = s.finished := rfl

-- ---- State.setCsr ----

@[simp] theorem State.setCsr_regs (s : State) (c : CsrBlock) : (s.setCsr c).regs = s.regs := rfl
@[simp] theorem State.setCsr_pc (s : State) (c : CsrBlock) : (s.setCsr c).pc = s.pc := rfl
@[simp] theorem State.setCsr_pcNext (s : State) (c : CsrBlock) : (s.setCsr c).pcNext = s.pcNext := rfl
@[simp] theorem State.setCsr_priv (s : State) (c : CsrBlock) : (s.setCsr c).priv = s.priv := rfl
@[simp] theorem State.setCsr_stdby (s : State) (c : CsrBlock) : (s.setCsr c).stdby = s.stdby := rfl
@[simp] theorem State.setCsr_reservedAddr (s : State) (c : CsrBlock) : (s.setCsr c).reservedAddr = s.reservedAddr := rfl
@[simp] theorem State.setCsr_reservedValid (s : State) (c : CsrBlock) : (s.setCsr c).reservedValid = s.reservedValid := rfl
@[simp] theorem State.setCsr_csr (s : State) (c : CsrBlock) : (s.setCsr c).csr = c := rfl
@[simp] theorem State.setCsr_mem (s : State) (c : CsrBlock) : (s.setCsr c).mem = s.mem := rfl
@[simp] theorem State.setCsr_valid (s : State) (c : CsrBlock) : (s.setCsr c).valid = s.valid := rfl
@[simp] theorem State.setCsr_dic (s : State) (c : CsrBlock) : (s.setCsr c).dic = s.dic := rfl
@[simp] theorem State.setCsr_platform (s : State) (c : CsrBlock) : (s.setCsr c).platform = s.platform := rfl
@[simp] theorem State.setCsr_exc (s : State) (c : CsrBlock) : (s.setCsr c).exc = s.exc := rfl
@[simp] theorem State.setCsr_tick (s : State) (c : CsrBlock) : (s.setCsr c).tick = s.tick := rfl
@[simp] theorem State.setCsr_deviceCalls (s : State) (c : CsrBlock) : (s.setCsr c).deviceCalls = s.deviceCalls := rfl
@[simp] theorem State.setCsr_inputs (s : State) (c : CsrBlock) : (s.setCsr c).inputs = s.inputs := rfl
@[simp] theorem State.setCsr_finished (s : State) (c : CsrBlock) : (s.setCsr c).finished = s.finished := rfl

-- ---- State.setPriv ----

@[simp] theorem State.setPriv_regs (s : State) (p : Mode) : (s.setPriv p).regs = s.regs := rfl
@[simp] theorem State.setPriv_pc (s : State) (p : Mode) : (s.setPriv p).pc = s.pc := rfl
@[simp] theorem State.setPriv_pcNext (s : State) (p : Mode) : (s.setPriv p).pcNext = s.pcNext := rfl
@[simp] theorem State.setPriv_priv (s : State) (p : Mode) : (s.setPriv p).priv = p := rfl
@[simp] theorem State.setPriv_stdby (s : State) (p : Mode) : (s.setPriv p).stdby = s.stdby := rfl
@[simp] theorem State.setPriv_reservedAddr (s : State) (p : Mode) : (s.setPriv p).reservedAddr = s.reservedAddr := rfl
@[simp] theorem State.setPriv_reservedValid (s : State) (p : Mode) : (s.setPriv p).reservedValid = s.reservedValid := rfl
@[simp] theorem State.setPriv_csr (s : State) (p : Mode) : (s.setPriv p).csr = s.csr := rfl
@[simp] theorem State.setPriv_mem (s : State) (p : Mode) : (s.setPriv p).mem = s.mem := rfl
@[simp] theorem State.setPriv_valid (s : State) (p : Mode) : (s.setPriv p).valid = s.valid := rfl
@[simp] theorem State.setPriv_dic (s : State) (p : Mode) : (s.setPriv p).dic = s.dic := rfl
@[simp] theorem State.setPriv_platform (s : State) (p : Mode) : (s.setPriv p).platform = s.platform := rfl
@[simp] theorem State.setPriv_exc (s : State) (p : Mode) : (s.setPriv p).exc = s.exc := rfl
@[simp] theorem State.setPriv_tick (s : State) (p : Mode) : (s.setPriv p).tick = s.tick := rfl
@[simp] theorem State.setPriv_deviceCalls (s : State) (p : Mode) : (s.setPriv p).deviceCalls = s.deviceCalls := rfl
@[simp] theorem State.setPriv_inputs (s : State) (p : Mode) : (s.setPriv p).inputs = s.inputs := rfl
@[simp] theorem State.setPriv_finished (s : State) (p : Mode) : (s.setPriv p).finished = s.finished := rfl

-- ---- State.setStdby ----

@[simp] theorem State.setStdby_regs (s : State) (b : Bool) : (s.setStdby b).regs = s.regs := rfl
@[simp] theorem State.setStdby_pc (s : State) (b : Bool) : (s.setStdby b).pc = s.pc := rfl
@[simp] theorem State.setStdby_pcNext (s : State) (b : Bool) : (s.setStdby b).pcNext = s.pcNext := rfl
@[simp] theorem State.setStdby_priv (s : State) (b : Bool) : (s.setStdby b).priv = s.priv := rfl
@[simp] theorem State.setStdby_stdby (s : State) (b : Bool) : (s.setStdby b).stdby = b := rfl
@[simp] theorem State.setStdby_reservedAddr (s : State) (b : Bool) : (s.setStdby b).reservedAddr = s.reservedAddr := rfl
@[simp] theorem State.setStdby_reservedValid (s : State) (b : Bool) : (s.setStdby b).reservedValid = s.reservedValid := rfl
@[simp] theorem State.setStdby_csr (s : State) (b : Bool) : (s.setStdby b).csr = s.csr := rfl
@[simp] theorem State.setStdby_mem (s : State) (b : Bool) : (s.setStdby b).mem = s.mem := rfl
@[simp] theorem State.setStdby_valid (s : State) (b : Bool) : (s.setStdby b).valid = s.valid := rfl
@[simp] theorem State.setStdby_dic (s : State) (b : Bool) : (s.setStdby b).dic = s.dic := rfl
@[simp] theorem State.setStdby_platform (s : State) (b : Bool) : (s.setStdby b).platform = s.platform := rfl
@[simp] theorem State.setStdby_exc (s : State) (b : Bool) : (s.setStdby b).exc = s.exc := rfl
@[simp] theorem State.setStdby_tick (s : State) (b : Bool) : (s.setStdby b).tick = s.tick := rfl
@[simp] theorem State.setStdby_deviceCalls (s : State) (b : Bool) : (s.setStdby b).deviceCalls = s.deviceCalls := rfl
@[simp] theorem State.setStdby_inputs (s : State) (b : Bool) : (s.setStdby b).inputs = s.inputs := rfl
@[simp] theorem State.setStdby_finished (s : State) (b : Bool) : (s.setStdby b).finished = s.finished := rfl

-- ---- State.setReservation ----

@[simp] theorem State.setReservation_regs (s : State) (a : PAddr) (b : Bool) : (s.setReservation a b).regs = s.regs := rfl
@[simp] theorem State.setReservation_pc (s : State) (a : PAddr) (b : Bool) : (s.setReservation a b).pc = s.pc := rfl
@[simp] theorem State.setReservation_pcNext (s : State) (a : PAddr) (b : Bool) : (s.setReservation a b).pcNext = s.pcNext := rfl
@[simp] theorem State.setReservation_priv (s : State) (a : PAddr) (b : Bool) : (s.setReservation a b).priv = s.priv := rfl
@[simp] theorem State.setReservation_stdby (s : State) (a : PAddr) (b : Bool) : (s.setReservation a b).stdby = s.stdby := rfl
@[simp] theorem State.setReservation_reservedAddr (s : State) (a : PAddr) (b : Bool) : (s.setReservation a b).reservedAddr = a := rfl
@[simp] theorem State.setReservation_reservedValid (s : State) (a : PAddr) (b : Bool) : (s.setReservation a b).reservedValid = b := rfl
@[simp] theorem State.setReservation_csr (s : State) (a : PAddr) (b : Bool) : (s.setReservation a b).csr = s.csr := rfl
@[simp] theorem State.setReservation_mem (s : State) (a : PAddr) (b : Bool) : (s.setReservation a b).mem = s.mem := rfl
@[simp] theorem State.setReservation_valid (s : State) (a : PAddr) (b : Bool) : (s.setReservation a b).valid = s.valid := rfl
@[simp] theorem State.setReservation_dic (s : State) (a : PAddr) (b : Bool) : (s.setReservation a b).dic = s.dic := rfl
@[simp] theorem State.setReservation_platform (s : State) (a : PAddr) (b : Bool) : (s.setReservation a b).platform = s.platform := rfl
@[simp] theorem State.setReservation_exc (s : State) (a : PAddr) (b : Bool) : (s.setReservation a b).exc = s.exc := rfl
@[simp] theorem State.setReservation_tick (s : State) (a : PAddr) (b : Bool) : (s.setReservation a b).tick = s.tick := rfl
@[simp] theorem State.setReservation_deviceCalls (s : State) (a : PAddr) (b : Bool) : (s.setReservation a b).deviceCalls = s.deviceCalls := rfl
@[simp] theorem State.setReservation_inputs (s : State) (a : PAddr) (b : Bool) : (s.setReservation a b).inputs = s.inputs := rfl
@[simp] theorem State.setReservation_finished (s : State) (a : PAddr) (b : Bool) : (s.setReservation a b).finished = s.finished := rfl

-- ---- State.dropReservation ----

@[simp] theorem State.dropReservation_regs (s : State) : (s.dropReservation).regs = s.regs := rfl
@[simp] theorem State.dropReservation_pc (s : State) : (s.dropReservation).pc = s.pc := rfl
@[simp] theorem State.dropReservation_pcNext (s : State) : (s.dropReservation).pcNext = s.pcNext := rfl
@[simp] theorem State.dropReservation_priv (s : State) : (s.dropReservation).priv = s.priv := rfl
@[simp] theorem State.dropReservation_stdby (s : State) : (s.dropReservation).stdby = s.stdby := rfl
@[simp] theorem State.dropReservation_reservedAddr (s : State) : (s.dropReservation).reservedAddr = s.reservedAddr := rfl
@[simp] theorem State.dropReservation_reservedValid (s : State) : (s.dropReservation).reservedValid = false := rfl
@[simp] theorem State.dropReservation_csr (s : State) : (s.dropReservation).csr = s.csr := rfl
@[simp] theorem State.dropReservation_mem (s : State) : (s.dropReservation).mem = s.mem := rfl
@[simp] theorem State.dropReservation_valid (s : State) : (s.dropReservation).valid = s.valid := rfl
@[simp] theorem State.dropReservation_dic (s : State) : (s.dropReservation).dic = s.dic := rfl
@[simp] theorem State.dropReservation_platform (s : State) : (s.dropReservation).platform = s.platform := rfl
@[simp] theorem State.dropReservation_exc (s : State) : (s.dropReservation).exc = s.exc := rfl
@[simp] theorem State.dropReservation_tick (s : State) : (s.dropReservation).tick = s.tick := rfl
@[simp] theorem State.dropReservation_deviceCalls (s : State) : (s.dropReservation).deviceCalls = s.deviceCalls := rfl
@[simp] theorem State.dropReservation_inputs (s : State) : (s.dropReservation).inputs = s.inputs := rfl
@[simp] theorem State.dropReservation_finished (s : State) : (s.dropReservation).finished = s.finished := rfl

-- ---- clearExc ----

@[simp] theorem clearExc_regs (s : State) : (clearExc s).regs = s.regs := rfl
@[simp] theorem clearExc_pc (s : State) : (clearExc s).pc = s.pc := rfl
@[simp] theorem clearExc_pcNext (s : State) : (clearExc s).pcNext = s.pcNext := rfl
@[simp] theorem clearExc_priv (s : State) : (clearExc s).priv = s.priv := rfl
@[simp] theorem clearExc_stdby (s : State) : (clearExc s).stdby = s.stdby := rfl
@[simp] theorem clearExc_reservedAddr (s : State) : (clearExc s).reservedAddr = s.reservedAddr := rfl
@[simp] theorem clearExc_reservedValid (s : State) : (clearExc s).reservedValid = s.reservedValid := rfl
@[simp] theorem clearExc_csr (s : State) : (clearExc s).csr = s.csr := rfl
@[simp] theorem clearExc_mem (s : State) : (clearExc s).mem = s.mem := rfl
@[simp] theorem clearExc_valid (s : State) : (clearExc s).valid = s.valid := rfl
@[simp] theorem clearExc_dic (s : State) : (clearExc s).dic = s.dic := rfl
@[simp] theorem clearExc_platform (s : State) : (clearExc s).platform = s.platform := rfl
@[simp] theorem clearExc_exc (s : State) : (clearExc s).exc = none := rfl
@[simp] theorem clearExc_tick (s : State) : (clearExc s).tick = s.tick := rfl
@[simp] theorem clearExc_deviceCalls (s : State) : (clearExc s).deviceCalls = s.deviceCalls := rfl
@[simp] theorem clearExc_inputs (s : State) : (clearExc s).inputs = s.inputs := rfl
@[simp] theorem clearExc_finished (s : State) : (clearExc s).finished = s.finished := rfl

-- ---- dropInput ----

@[simp] theorem dropInput_regs (s : State) : (dropInput s).regs = s.regs := rfl
@[simp] theorem dropInput_pc (s : State) : (dropInput s).pc = s.pc := rfl
@[simp] theorem dropInput_pcNext (s : State) : (dropInput s).pcNext = s.pcNext := rfl
@[simp] theorem dropInput_priv (s : State) : (dropInput s).priv = s.priv := rfl
@[simp] theorem dropInput_stdby (s : State) : (dropInput s).stdby = s.stdby := rfl
@[simp] theorem dropInput_reservedAddr (s : State) : (dropInput s).reservedAddr = s.reservedAddr := rfl
@[simp] theorem dropInput_reservedValid (s : State) : (dropInput s).reservedValid = s.reservedValid := rfl
@[simp] theorem dropInput_csr (s : State) : (dropInput s).csr = s.csr := rfl
@[simp] theorem dropInput_mem (s : State) : (dropInput s).mem = s.mem := rfl
@[simp] theorem dropInput_valid (s : State) : (dropInput s).valid = s.valid := rfl
@[simp] theorem dropInput_dic (s : State) : (dropInput s).dic = s.dic := rfl
@[simp] theorem dropInput_platform (s : State) : (dropInput s).platform = s.platform := rfl
@[simp] theorem dropInput_exc (s : State) : (dropInput s).exc = s.exc := rfl
@[simp] theorem dropInput_tick (s : State) : (dropInput s).tick = s.tick := rfl
@[simp] theorem dropInput_deviceCalls (s : State) : (dropInput s).deviceCalls = s.deviceCalls := rfl
@[simp] theorem dropInput_inputs (s : State) : (dropInput s).inputs = s.inputs.tail := rfl
@[simp] theorem dropInput_finished (s : State) : (dropInput s).finished = s.finished := rfl

-- ---- the register file (spec 10_state.md R21) ----

/-- `x[0]` reads 0. -/
@[simp] theorem State.x_zero (s : State) : s.x 0#5 = 0#32 := rfl

/-- A write to `x[0]` is discarded. -/
@[simp] theorem State.setX_zero (s : State) (v : Word) : s.setX 0#5 v = s := rfl

/-- The register written reads as the value. -/
theorem State.setX_x_self (s : State) {i : Reg} (hi : i ≠ 0#5) (v : Word) : (s.setX i v).x i = v := by
  simp [State.x, State.setX, hi]

/-- Any other register reads as before. -/
theorem State.setX_x_other (s : State) {i r : Reg} (hr : r ≠ i) (v : Word) : (s.setX i v).x r = s.x r := by
  by_cases hi : i = 0#5
  · simp [State.setX, hi]
  · by_cases h0 : r = 0#5
    · simp [State.x, h0]
    · have : i.toNat ≠ r.toNat := fun h => hr (BitVec.eq_of_toNat_eq h.symm)
      simp [State.x, State.setX, hi, h0, this]

/-- Reading after a write, in one line. -/
theorem State.setX_x (s : State) (i r : Reg) (v : Word) :
    (s.setX i v).x r = if r = i ∧ r ≠ 0#5 then v else s.x r := by
  by_cases hr : r = i
  · subst hr
    by_cases h0 : r = 0#5
    · simp [h0]
    · simp [h0, State.setX_x_self]
  · simp [hr, State.setX_x_other]

/-- A register write changes the register file and nothing else. -/
theorem State.setX_eq (s : State) (i : Reg) (v : Word) : s.setX i v = { s with regs := (s.setX i v).regs } := by
  unfold State.setX; split <;> rfl

/-- What `x` reads depends on the register file alone. -/
theorem State.x_congr {s t : State} (h : s.regs = t.regs) (r : Reg) : s.x r = t.x r := by simp [State.x, h]

@[simp] theorem State.setPcNext_x (s : State) (w : Word) (r : Reg) : (s.setPcNext w).x r = s.x r := rfl
@[simp] theorem State.setCsr_x (s : State) (c : CsrBlock) (r : Reg) : (s.setCsr c).x r = s.x r := rfl
@[simp] theorem State.setPriv_x (s : State) (p : Mode) (r : Reg) : (s.setPriv p).x r = s.x r := rfl
@[simp] theorem State.setStdby_x (s : State) (b : Bool) (r : Reg) : (s.setStdby b).x r = s.x r := rfl
@[simp] theorem State.setReservation_x (s : State) (a : PAddr) (b : Bool) (r : Reg) : (s.setReservation a b).x r = s.x r := rfl
@[simp] theorem State.dropReservation_x (s : State) (r : Reg) : (s.dropReservation).x r = s.x r := rfl

end Sys2Proof.Machine
end

