-- ==== Sys2Proof/Laws/Memory.lean ====
section
/-! SUPPORT. Memory: reading after writing, the canonical form, frames, and what the physical operations leave alone. -/

namespace Sys2Proof.Machine

-- ---- bytes ----

/-- A byte written reads back. -/
theorem Memory.read_write_self (m : Memory) (a : Nat) (b : Byte) (hm : m.Pairwise fun c d => c.1 < d.1) :
    (m.write a b).read a = b := by
  induction m with
  | nil => unfold Memory.write; split <;> simp_all [Memory.read]
  | cons c m ih =>
    obtain ⟨k, c⟩ := c
    rw [List.pairwise_cons] at hm
    have hout : ∀ l : Memory, (∀ d ∈ l, a < d.1) → l.read a = Config.unloadedByte := by
      intro l hl
      induction l with
      | nil => rfl
      | cons d l ihl =>
        have h1 := hl d (by simp)
        simp only [Memory.read]
        rw [if_neg (by omega)]
        exact ihl fun e he => hl e (by simp [he])
    unfold Memory.write
    by_cases h1 : a < k
    · rw [if_pos h1]
      split
      · subst b
        exact hout _ fun d hd => by
          rcases List.mem_cons.mp hd with rfl | hd
          · exact h1
          · exact Nat.lt_trans h1 (hm.1 d hd)
      · simp [Memory.read]
    · rw [if_neg h1]
      by_cases h2 : a = k
      · rw [if_pos h2]
        split
        · subst b
          exact hout _ fun d hd => by rw [h2]; exact hm.1 d hd
        · simp [Memory.read]
      · rw [if_neg h2]
        simp only [Memory.read]
        rw [if_neg (fun h => h2 h.symm)]
        exact ih hm.2

/-- A write leaves every other byte alone. -/
theorem Memory.read_write_other (m : Memory) {a x : Nat} (h : x ≠ a) (b : Byte) :
    (m.write a b).read x = m.read x := by
  induction m with
  | nil => unfold Memory.write; split <;> simp [Memory.read, Ne.symm h]
  | cons c m ih =>
    obtain ⟨k, c⟩ := c
    unfold Memory.write
    by_cases h1 : a < k
    · rw [if_pos h1]
      split <;> simp [Memory.read, Ne.symm h]
    · rw [if_neg h1]
      by_cases h2 : a = k
      · subst h2
        rw [if_pos rfl]
        split <;> simp [Memory.read, Ne.symm h]
      · rw [if_neg h2]
        simp only [Memory.read]
        rw [ih]

/-- Every address a write leaves listed was listed, or is the address written. -/
theorem Memory.mem_write {m : Memory} {a : Nat} {b : Byte} {c : Host.Cell} (h : c ∈ m.write a b) :
    c ∈ m ∨ c = (a, b) := by
  induction m with
  | nil => unfold Memory.write at h; split at h <;> simp_all
  | cons d m ih =>
    obtain ⟨k, d⟩ := d
    unfold Memory.write at h
    split at h
    · split at h
      · exact .inl h
      · rcases List.mem_cons.mp h with h | h
        · exact .inr h
        · exact .inl h
    · split at h
      · split at h
        · exact .inl (List.mem_cons_of_mem _ h)
        · rcases List.mem_cons.mp h with h | h
          · exact .inr h
          · exact .inl (List.mem_cons_of_mem _ h)
      · rcases List.mem_cons.mp h with h | h
        · exact .inl (by rw [h]; simp)
        · rcases ih h with h | h
          · exact .inl (List.mem_cons_of_mem _ h)
          · exact .inr h

/-- A write keeps the canonical form. -/
theorem Memory.write_wf {m : Memory} (hm : m.wf) (a : Nat) (b : Byte) : (m.write a b).wf := by
  obtain ⟨hs, hz⟩ := hm
  induction m with
  | nil => unfold Memory.write; split <;> simp_all [Memory.wf]
  | cons c m ih =>
    obtain ⟨k, c⟩ := c
    rw [List.pairwise_cons] at hs
    have hz' : ∀ d ∈ m, d.2 ≠ Config.unloadedByte := fun d hd => hz d (List.mem_cons_of_mem _ hd)
    unfold Memory.write
    split
    · rename_i h1
      split
      · exact ⟨List.pairwise_cons.mpr hs, hz⟩
      · rename_i hb
        refine ⟨List.pairwise_cons.mpr ⟨fun d hd => ?_, List.pairwise_cons.mpr hs⟩, fun d hd => ?_⟩
        · rcases List.mem_cons.mp hd with rfl | hd
          · exact h1
          · exact Nat.lt_trans h1 (hs.1 d hd)
        · rcases List.mem_cons.mp hd with rfl | hd
          · exact hb
          · exact hz d hd
    · split
      · rename_i h2
        split
        · exact ⟨hs.2, hz'⟩
        · rename_i hb
          refine ⟨List.pairwise_cons.mpr ⟨fun d hd => by rw [h2]; exact hs.1 d hd, hs.2⟩, fun d hd => ?_⟩
          rcases List.mem_cons.mp hd with rfl | hd
          · exact hb
          · exact hz' d hd
      · rename_i h1 h2
        obtain ⟨is, iz⟩ := ih hs.2 hz'
        refine ⟨List.pairwise_cons.mpr ⟨fun d hd => ?_, is⟩, fun d hd => ?_⟩
        · rcases Memory.mem_write hd with hd | rfl
          · exact hs.1 d hd
          · exact show k < a by omega
        · rcases List.mem_cons.mp hd with rfl | hd
          · exact hz _ (by simp)
          · exact iz d hd

/-- A store of any width keeps the canonical form. -/
theorem Memory.writeValue_wf {m : Memory} (hm : m.wf) (a : Nat) (v : Word) (n : Width) : (m.writeValue a v n).wf := by
  cases n <;> simp only [Memory.writeValue]
  · exact write_wf hm ..
  · exact write_wf (write_wf hm ..) ..
  · exact write_wf (write_wf (write_wf (write_wf hm ..) ..) ..) ..

/-- Every byte outside the bytes stored reads as before. -/
theorem Memory.read_writeValue_other (m : Memory) {a x : Nat} {n : Width} (h : x < a ∨ a + bytesOf n ≤ x) (v : Word) :
    (m.writeValue a v n).read x = m.read x := by
  cases n <;> simp only [bytesOf] at h <;> simp only [Memory.writeValue] <;>
    (repeat rw [read_write_other _ (by omega)])

/-- The byte `k` of the bytes stored is byte `k` of the value (spec 20_memory.md R110). -/
theorem Memory.read_writeValue (m : Memory) (hm : m.wf) (a k : Nat) {n : Width} (hk : k < bytesOf n) (v : Word) :
    (m.writeValue a v n).read (a + k) = v.extractLsb' (8 * k) 8 := by
  have w1 := fun x y => write_wf hm x y
  cases n <;> simp only [bytesOf] at hk <;> simp only [Memory.writeValue]
  · obtain rfl : k = 0 := by omega
    exact read_write_self _ _ _ hm.1
  · obtain rfl | rfl : k = 0 ∨ k = 1 := by omega
    · rw [read_write_other _ (by omega)]; exact read_write_self _ _ _ hm.1
    · exact read_write_self _ _ _ (w1 ..).1
  · obtain rfl | rfl | rfl | rfl : k = 0 ∨ k = 1 ∨ k = 2 ∨ k = 3 := by omega
    · rw [read_write_other _ (by omega), read_write_other _ (by omega), read_write_other _ (by omega)]
      exact read_write_self _ _ _ hm.1
    · rw [read_write_other _ (by omega), read_write_other _ (by omega)]
      exact read_write_self _ _ _ (w1 ..).1
    · rw [read_write_other _ (by omega)]
      exact read_write_self _ _ _ (write_wf (w1 ..) ..).1
    · exact read_write_self _ _ _ (write_wf (write_wf (w1 ..) ..) ..).1

/-- A value depends on its bytes alone. -/
theorem Memory.readValue_congr {m m' : Memory} {a : Nat} {n : Width}
    (h : ∀ k, k < bytesOf n → m.read (a + k) = m'.read (a + k)) : m.readValue a n = m'.readValue a n := by
  cases n <;> simp only [bytesOf] at h <;> simp only [Memory.readValue]
  · rw [show m.read a = m'.read a from h 0 (by omega)]
  · rw [show m.read a = m'.read a from h 0 (by omega), h 1 (by omega)]
  · rw [show m.read a = m'.read a from h 0 (by omega), h 1 (by omega), h 2 (by omega), h 3 (by omega)]

-- ---- frames ----

/-- The bytes of a frame are the bytes of its image. -/
theorem read_frameImage (m : Memory) {f a : Nat} (h : f ≤ a ∧ a < f + Config.frameSize) :
    (frameImage m f).read a = m.read a := by
  induction m with
  | nil => rfl
  | cons c m ih =>
    obtain ⟨k, c⟩ := c
    unfold frameImage at ih ⊢
    by_cases hk : f ≤ k ∧ k < f + Config.frameSize
    · rw [List.filter_cons_of_pos (by simpa using hk)]
      simp only [Memory.read]
      rw [ih]
    · rw [List.filter_cons_of_neg (by simpa using hk)]
      have : k ≠ a := by rintro rfl; exact hk h
      simp only [Memory.read, if_neg this]
      exact ih

/-- A write outside a frame leaves its image alone. -/
theorem frameImage_write (m : Memory) {f a : Nat} (h : ¬(f ≤ a ∧ a < f + Config.frameSize)) (b : Byte) :
    frameImage (m.write a b) f = frameImage m f := by
  induction m with
  | nil =>
    unfold Memory.write
    split
    · rfl
    · unfold frameImage; rw [List.filter_cons_of_neg (by simpa using h)]
  | cons c m ih =>
    obtain ⟨k, c⟩ := c
    unfold frameImage at ih ⊢
    unfold Memory.write
    split
    · split
      · rfl
      · rw [List.filter_cons_of_neg (by simpa using h)]
    · split
      · rename_i h2
        subst h2
        rw [List.filter_cons_of_neg (p := fun c => decide (f ≤ c.1 ∧ c.1 < f + Config.frameSize)) (a := (a, c)) (by simpa using h)]
        split
        · rfl
        · rw [List.filter_cons_of_neg (by simpa using h)]
      · simp only [List.filter_cons]
        rw [ih]

/-- A store that touches no byte of a frame leaves its image alone. -/
theorem frameImage_writeValue (m : Memory) {f a : Nat} {n : Width} (h : frameTouched f a (bytesOf n) = false) (v : Word) :
    frameImage (m.writeValue a v n) f = frameImage m f := by
  have h' : ¬(f < a + bytesOf n ∧ a < f + Config.frameSize) := by simpa [frameTouched] using h
  cases n <;> simp only [bytesOf] at h' <;> simp only [Memory.writeValue] <;>
    (repeat rw [frameImage_write _ (by omega)])

end Sys2Proof.Machine
end

