-- ==== Sys2Proof/Laws/Physical.lean ====
section
/-! SUPPORT. Physical memory and the decode cache: everything `pmRead`, `pmWrite`, `scAccess` and `dicFetch` can do, said once. -/

namespace Sys2Proof.Machine

-- ---- granules and frames ----

theorem granuleOf_toNat (phys : PAddr) : (granuleOf phys).toNat = phys.toNat / 4 * 4 := by
  have h3 : granuleOf phys = (phys >>> 2) <<< 2 := by
    apply BitVec.eq_of_getLsbD_eq
    intro i hi
    simp only [granuleOf, BitVec.getLsbD_and, BitVec.getLsbD_not, hi, decide_true, Bool.true_and, BitVec.getLsbD_shiftLeft,
      BitVec.getLsbD_ushiftRight]
    by_cases h : i < 2
    · have : i = 0 ∨ i = 1 := by omega
      rcases this with rfl | rfl <;> simp
    · have e : 2 + (i - 2) = i := by omega
      have : (3#36).getLsbD i = false := by
        rw [show (3#36) = BitVec.ofNat 36 (2 ^ 2 - 1) from rfl, BitVec.getLsbD_ofNat, Nat.testBit_two_pow_sub_one]
        simp [h]
      simp [this, h, e]
  rw [h3, BitVec.toNat_shiftLeft, BitVec.toNat_ushiftRight, Nat.shiftLeft_eq, Nat.shiftRight_eq_div_pow, Nat.mod_eq_of_lt]
  have := phys.isLt; omega

/-- A granule address is a multiple of 4. -/
theorem granuleOf_aligned (phys : PAddr) : granuleOf phys &&& 3#36 = 0#36 := by
  apply BitVec.eq_of_getLsbD_eq
  intro i hi
  simp only [granuleOf, BitVec.getLsbD_and, BitVec.getLsbD_not, hi]
  cases (3#36).getLsbD i <;> simp

theorem frameOf_eq (a : Nat) : frameOf a = a / 4096 * 4096 := by
  unfold frameOf Config.frameSize; omega

theorem frameOf_granule (phys : PAddr) : frameOf (granuleOf phys).toNat = frameOf phys.toNat := by
  rw [frameOf_eq, frameOf_eq, granuleOf_toNat]; omega

-- ---- the region of an address depends on the platform alone ----

theorem regionAt_congr {s t : State} (h : t.platform = s.platform) (phys : PAddr) : t.regionAt phys = s.regionAt phys := by
  simp [State.regionAt, h]

theorem inRam_congr {s t : State} (h : t.platform = s.platform) (phys : PAddr) : t.inRam phys = s.inRam phys := by
  simp [State.inRam, regionAt_congr h]

theorem pmWritable_congr {s t : State} (h : t.platform = s.platform) (phys : PAddr) :
    pmWritable phys t = pmWritable phys s := by
  simp [pmWritable, regionAt_congr h]

/-- RAM is writable. -/
theorem pmWritable_of_inRam {s : State} {phys : PAddr} (h : s.inRam phys = true) : pmWritable phys s = true := by
  unfold State.inRam at h
  unfold pmWritable
  cases hr : s.regionAt phys with
  | none => simp [hr] at h
  | some r => simp only [hr, Region.isRam, Bool.and_eq_true] at h; exact h.1

/-- RAM is a byte buffer. -/
theorem pmValue_of_inRam {s : State} {phys : PAddr} (h : s.inRam phys = true) (n : Width) (noisy : Bool) :
    pmValue phys n noisy s = s.mem.readValue phys.toNat n := by
  unfold State.inRam at h
  unfold pmValue
  cases hr : s.regionAt phys with
  | none => simp [hr] at h
  | some r =>
    simp only [hr, Region.isRam, Bool.and_eq_true, decide_eq_true_eq] at h
    simp [h.2]

/-- What a physical read gives depends on the platform, memory, the tick and the device calls. -/
theorem pmValue_congr {s t : State} (hp : t.platform = s.platform) (hm : ∀ a, t.mem.read a = s.mem.read a)
    (ht : t.tick = s.tick) (hc : t.deviceCalls = s.deviceCalls) (phys : PAddr) (n : Width) (noisy : Bool) :
    pmValue phys n noisy t = pmValue phys n noisy s := by
  unfold pmValue
  rw [regionAt_congr hp, ht, hc, Memory.readValue_congr fun k _ => hm _]

/-- Two regions of a list pairwise apart are the same or apart. -/
theorem apart_of_mem {l : List Region} (h : l.Pairwise Region.apart) {r q : Region} (hr : r ∈ l) (hq : q ∈ l) :
    r = q ∨ r.apart q := by
  induction h with
  | nil => cases hr
  | cons hx _ ih =>
    rcases List.mem_cons.mp hr with hr | hr <;> rcases List.mem_cons.mp hq with hq | hq
    · exact .inl (hr.trans hq.symm)
    · exact .inr (hr ▸ hx _ hq)
    · exact .inr (Or.symm (hq ▸ hx _ hr))
    · exact ih hr hq

/-- In a well-formed platform the regions of two addresses of one RAM frame are the same region. -/
theorem inRam_frame {s : State} (hp : s.platform.wf) {a b : PAddr} (h : s.inRam a = true)
    (hf : frameOf b.toNat = frameOf a.toNat) : s.inRam b = true := by
  obtain ⟨-, -, -, -, -, -, hwf, hap⟩ := hp
  unfold State.inRam State.regionAt at h ⊢
  cases hr : s.platform.regions.find? (·.covers a.toNat) with
  | none => simp [hr] at h
  | some r =>
    simp only [hr] at h
    have hmem := List.mem_of_find?_eq_some hr
    have hcov : r.covers a.toNat = true := by simpa using List.find?_some hr
    simp only [Region.covers, decide_eq_true_eq] at hcov
    obtain ⟨h1, h2⟩ := (hwf r hmem).2.2.2 h
    rw [frameOf_eq, frameOf_eq] at hf
    have hb : r.covers b.toNat = true := by
      simp only [Region.covers, decide_eq_true_eq]; omega
    cases hq : s.platform.regions.find? (·.covers b.toNat) with
    | none => exact absurd hb (by simpa using List.find?_eq_none.mp hq r hmem)
    | some q =>
      have hqm := List.mem_of_find?_eq_some hq
      have hqc : q.covers b.toNat = true := by simpa using List.find?_some hq
      by_cases e : q = r
      · simpa [e] using h
      · exfalso
        simp only [Region.covers, decide_eq_true_eq] at hb hqc
        have := apart_of_mem hap hmem hqm
        rcases this with h | h
        · exact e h.symm
        · rcases h with h | h <;> omega

-- ---- scAccess ----

theorem reservationHit_iff (phys : PAddr) (s : State) :
    reservationHit phys s = true ↔ s.reservedValid = true ∧ s.reservedAddr.toNat = phys.toNat / 4 * 4 := by
  unfold reservationHit
  rw [Bool.and_eq_true, decide_eq_true_eq, ← granuleOf_toNat, BitVec.toNat_inj]

/-- `scAccess` changes `reserved_valid` alone. -/
theorem scAccess_eq (phys : PAddr) (s : State) :
    (scAccess phys s).2 = { s with reservedValid := s.reservedValid && !reservationHit phys s } := by
  unfold scAccess
  cases h : reservationHit phys s
  · simp
  · simp [State.dropReservation]

-- ---- pmRead ----

/-- A physical read changes the record of device calls alone. -/
theorem pmReadState_eq (phys : PAddr) (n : Width) (noisy : Bool) (s : State) :
    pmReadState phys n noisy s = { s with deviceCalls := (pmReadState phys n noisy s).deviceCalls } := by
  unfold pmReadState
  split
  · rfl
  · split <;> rfl

/-- A read that is not noisy changes nothing. -/
@[simp] theorem pmReadState_quiet (phys : PAddr) (n : Width) (s : State) : pmReadState phys n false s = s := by
  unfold pmReadState
  split
  · rfl
  · split <;> simp_all

-- ---- pmWrite ----

/-- What a physical write can do, said once: it is dropped, or bytes of RAM change and their frames lose the `valid` bit, or a device
is called; where it succeeds the reservation on its word ends. -/
theorem pmWrite_cases (phys : PAddr) (n : Width) (v : Word) (noisy : Bool) (s : State) :
    (pmWritable phys s = false ∧ s.inRam phys = false ∧ pmWrite phys n v noisy s = (false, s)) ∨
    (pmWritable phys s = true ∧ s.inRam phys = true ∧ pmWrite phys n v noisy s = (true,
      { s with
        mem := s.mem.writeValue phys.toNat v n
        valid := clearValid s.valid phys.toNat (bytesOf n)
        reservedValid := s.reservedValid && !reservationHit phys s })) ∨
    (pmWritable phys s = true ∧ s.inRam phys = false ∧ pmWrite phys n v noisy s = (true,
      { s with
        deviceCalls := .write phys.toNat (bytesOf n) (v &&& onesOf n) noisy :: s.deviceCalls
        reservedValid := s.reservedValid && !reservationHit phys s })) := by
  unfold pmWrite
  cases hw : pmWritable phys s
  · left
    refine ⟨rfl, ?_, rfl⟩
    cases hr : s.inRam phys
    · rfl
    · rw [pmWritable_of_inRam hr] at hw; cases hw
  · right
    cases hr : s.inRam phys
    · right
      refine ⟨rfl, rfl, ?_⟩
      simp [pmStore, hr, scAccess_eq, reservationHit]
    · left
      refine ⟨rfl, rfl, ?_⟩
      simp [pmStore, hr, scAccess_eq, reservationHit]

/-- A physical write changes memory, `valid` bits, device calls and `reserved_valid`, nothing else. -/
theorem pmWrite_eq (phys : PAddr) (n : Width) (v : Word) (noisy : Bool) (s : State) :
    (pmWrite phys n v noisy s).2 = { s with
      mem := (pmWrite phys n v noisy s).2.mem
      valid := (pmWrite phys n v noisy s).2.valid
      deviceCalls := (pmWrite phys n v noisy s).2.deviceCalls
      reservedValid := (pmWrite phys n v noisy s).2.reservedValid } := by
  rcases pmWrite_cases phys n v noisy s with ⟨-, -, h⟩ | ⟨-, -, h⟩ | ⟨-, -, h⟩ <;> rw [h]

/-- A physical write keeps memory in its canonical form. -/
theorem pmWrite_mem_wf (phys : PAddr) (n : Width) (v : Word) (noisy : Bool) (s : State) (hm : s.mem.wf) :
    (pmWrite phys n v noisy s).2.mem.wf := by
  rcases pmWrite_cases phys n v noisy s with ⟨-, -, h⟩ | ⟨-, -, h⟩ | ⟨-, -, h⟩ <;> rw [h]
  · exact hm
  · exact Memory.writeValue_wf hm ..
  · exact hm

theorem mem_clearValid (valid : List Nat) (a n f : Nat) :
    f ∈ clearValid valid a n ↔ f ∈ valid ∧ frameTouched f a n = false := by
  simp [clearValid]

/-- A physical write keeps the decode cache coherent: the frames written lose their `valid` bit. -/
theorem pmWrite_coherent (phys : PAddr) (n : Width) (v : Word) (noisy : Bool) (s : State) (hd : DicCoherent s) :
    DicCoherent (pmWrite phys n v noisy s).2 := by
  rcases pmWrite_cases phys n v noisy s with ⟨-, -, h⟩ | ⟨-, -, h⟩ | ⟨-, -, h⟩ <;> rw [h]
  · exact hd
  · refine ⟨hd.one_entry, hd.ram_only, fun e he hv => ?_⟩
    obtain ⟨hv1, hv2⟩ := (mem_clearValid ..).mp hv
    simp only [frameImage_writeValue _ hv2]
    exact hd.coherent e he hv1
  · exact ⟨hd.one_entry, hd.ram_only, hd.coherent⟩

-- ---- the decode cache ----

theorem mem_markValid (valid : List Nat) (f g : Nat) : g ∈ markValid valid f ↔ g = f ∨ g ∈ valid := by
  induction valid with
  | nil => simp [markValid]
  | cons x xs ih =>
    unfold markValid
    split
    · simp
    · split
      · rename_i h; subst h; simp
      · simp only [List.mem_cons, ih]; tauto

/-- The decode cache is coherent for states that agree on what it speaks of. -/
theorem DicCoherent.congr {s t : State} (h : DicCoherent s) (hd : t.dic = s.dic) (hv : t.valid = s.valid)
    (hm : t.mem = s.mem) (hp : t.platform = s.platform) : DicCoherent t := by
  refine ⟨hd ▸ h.one_entry, fun e he phys hf => ?_, fun e he hev => ?_⟩
  · rw [inRam_congr hp]; exact h.ram_only e (hd ▸ he) phys hf
  · rw [hm]; exact h.coherent e (hd ▸ he) (hv ▸ hev)

/-- The slot of a frame decoded now is the word in memory. -/
theorem slotWord_now {s : State} (phys : PAddr) {e : DicEntry} (hi : e.image = frameImage s.mem (frameOf phys.toNat))
    (hr : s.inRam (granuleOf phys) = true) : slotWord e phys = pmValue (granuleOf phys) .word false s := by
  rw [pmValue_of_inRam hr, slotWord, hi]
  refine Memory.readValue_congr fun k hk => read_frameImage _ ?_
  simp only [bytesOf] at hk
  rw [granuleOf_toNat, frameOf_eq]
  unfold Config.frameSize
  omega

/-- Replacing entries keeps every frame address. -/
theorem replaceEntry_frame (d e : DicEntry) : (if d.frame = e.frame then e else d).frame = d.frame := by
  split
  · rename_i h; exact h.symm
  · rfl

/-- Fetch coherence (spec 20_memory.md R165), for a fetch that is not refused a cache entry: the word is the one now in memory, and
only the cache changes. -/
theorem dicFetch_coherent {s : State} (hp : s.platform.wf) (hd : DicCoherent s) (phys : PAddr) :
    ∃ t, dicFetch false phys s = some (pmValue (granuleOf phys) .word false s, t) ∧ DicCoherent t ∧
      t = { s with dic := t.dic, valid := t.valid } := by
  unfold dicFetch
  cases hfind : dicFind (frameOf phys.toNat) s with
  | some hit =>
    have hmem : hit ∈ s.dic := List.mem_of_find?_eq_some hfind
    have hfr : hit.frame = frameOf phys.toNat := by simpa using List.find?_some hfind
    have hram : s.inRam (granuleOf phys) = true := hd.ram_only hit hmem _ (by rw [frameOf_granule, hfr])
    cases hv : s.valid.contains (frameOf phys.toNat)
    · refine ⟨{ s with
        dic := replaceEntry s.dic (decodedNow (frameOf phys.toNat) s)
        valid := markValid s.valid (frameOf phys.toNat) }, ?_, ⟨?_, ?_, ?_⟩, rfl⟩
      · have hs := slotWord_now phys (e := decodedNow (frameOf phys.toNat) s) rfl hram
        simp only [hfind, hv, Bool.false_eq_true, if_false, hs]
      · simp only [replaceEntry, List.pairwise_map]
        exact hd.one_entry.imp fun {a b} h => by rw [replaceEntry_frame, replaceEntry_frame]; exact h
      · intro e he q hq
        simp only [replaceEntry, List.mem_map] at he
        obtain ⟨d, hdm, rfl⟩ := he
        refine hd.ram_only d hdm q ?_
        rw [hq]
        split
        · rename_i h; simpa [decodedNow] using h.symm
        · rfl
      · intro e he hev
        simp only [replaceEntry, List.mem_map] at he
        obtain ⟨d, hdm, rfl⟩ := he
        by_cases h : d.frame = (decodedNow (frameOf phys.toNat) s).frame
        · simp [h, decodedNow]
        · simp only [h, if_false] at hev ⊢
          rw [mem_markValid] at hev
          rcases hev with hev | hev
          · exact absurd hev h
          · exact hd.coherent d hdm hev
    · refine ⟨s, ?_, hd, rfl⟩
      have hi := hd.coherent hit hmem (by rw [hfr]; simpa using hv)
      rw [hfr] at hi
      have hs := slotWord_now phys hi hram
      simp only [hfind, hv, if_true, hs]
  | none =>
    cases hr : s.inRam phys
    · exact ⟨s, by simp [hfind], hd, rfl⟩
    · have hram : s.inRam (granuleOf phys) = true := inRam_frame hp hr (frameOf_granule phys)
      have hnone : ∀ e ∈ s.dic, e.frame ≠ frameOf phys.toNat := by simpa [dicFind] using hfind
      refine ⟨{ s with
        dic := s.dic ++ [decodedNow (frameOf phys.toNat) s]
        valid := markValid s.valid (frameOf phys.toNat) }, ?_, ⟨?_, ?_, ?_⟩, rfl⟩
      · have hs := slotWord_now phys (e := decodedNow (frameOf phys.toNat) s) rfl hram
        simp only [hfind, Bool.false_eq_true, if_false, if_true, hs]
      · rw [List.pairwise_append]
        refine ⟨hd.one_entry, List.pairwise_singleton .., ?_⟩
        simpa [decodedNow] using hnone
      · intro e he q hq
        rcases List.mem_append.mp he with he | he
        · exact hd.ram_only e he q hq
        · obtain rfl := List.mem_singleton.mp he
          exact inRam_frame hp hr hq
      · intro e he hev
        rw [mem_markValid] at hev
        rcases List.mem_append.mp he with he | he
        · rcases hev with hev | hev
          · exact absurd hev (hnone e he)
          · exact hd.coherent e he hev
        · obtain rfl := List.mem_singleton.mp he
          rfl

end Sys2Proof.Machine
end

