-- ==== Sys2Proof/Laws/Access.lean ====
section
/-! SUPPORT. Translation, the access pipelines and trap entry: everything each of them can do, said once. -/

namespace Sys2Proof.Machine

-- ---- translation ----

/-- What a translation gives depends on the CSRs, the mode and what physical reads give. -/
theorem translation_congr {s t : State} (hc : t.csr = s.csr) (hpr : t.priv = s.priv) (hp : t.platform = s.platform)
    (hm : ∀ a, t.mem.read a = s.mem.read a) (ht : t.tick = s.tick) (hd : t.deviceCalls = s.deviceCalls)
    (v : Word) (intent : Intent) : translation v intent t = translation v intent s := by
  have h1 : ∀ a, pteAt a t = pteAt a s := fun a => pmValue_congr hp hm ht hd a .word false
  have h2 : effPriv intent t = effPriv intent s := by cases intent <;> simp [effPriv, hc, hpr]
  have h3 : findLeaf v t = findLeaf v s := by simp [findLeaf, h1, hc]
  simp [translation, translationActive, hc, h2, h3]

/-- The write-back is one physical write: it changes memory, `valid` bits, device calls and `reserved_valid`, nothing else. -/
theorem writeBackState_eq (wb : Option (PAddr × Word)) (s : State) :
    writeBackState wb s = { s with
      mem := (writeBackState wb s).mem
      valid := (writeBackState wb s).valid
      deviceCalls := (writeBackState wb s).deviceCalls
      reservedValid := (writeBackState wb s).reservedValid } := by
  cases wb with
  | none => rfl
  | some p => exact pmWrite_eq ..

@[simp] theorem writeBackState_csr (wb : Option (PAddr × Word)) (s : State) : (writeBackState wb s).csr = s.csr := by
  rw [writeBackState_eq]
@[simp] theorem writeBackState_regs (wb : Option (PAddr × Word)) (s : State) : (writeBackState wb s).regs = s.regs := by
  rw [writeBackState_eq]
@[simp] theorem writeBackState_pc (wb : Option (PAddr × Word)) (s : State) : (writeBackState wb s).pc = s.pc := by
  rw [writeBackState_eq]
@[simp] theorem writeBackState_priv (wb : Option (PAddr × Word)) (s : State) : (writeBackState wb s).priv = s.priv := by
  rw [writeBackState_eq]
@[simp] theorem writeBackState_platform (wb : Option (PAddr × Word)) (s : State) :
    (writeBackState wb s).platform = s.platform := by rw [writeBackState_eq]
@[simp] theorem writeBackState_exc (wb : Option (PAddr × Word)) (s : State) : (writeBackState wb s).exc = s.exc := by
  rw [writeBackState_eq]

theorem writeBackState_mem_wf (wb : Option (PAddr × Word)) (s : State) (hm : s.mem.wf) : (writeBackState wb s).mem.wf := by
  cases wb with
  | none => exact hm
  | some p => exact pmWrite_mem_wf _ _ _ _ _ hm

theorem writeBackState_coherent (wb : Option (PAddr × Word)) (s : State) (hd : DicCoherent s) :
    DicCoherent (writeBackState wb s) := by
  cases wb with
  | none => exact hd
  | some p => exact pmWrite_coherent _ _ _ _ _ hd

theorem translate_none {v : Word} {intent : Intent} {s : State} (h : translation v intent s = none) (noisy : Bool) :
    translate v intent noisy s = .raised { exception := pageFaultOf intent, tval := some v } s := by
  simp [translate, h]

theorem translate_some {v : Word} {intent : Intent} {s : State} {tr : Translation} (h : translation v intent s = some tr)
    (noisy : Bool) :
    translate v intent noisy s = .ok tr.phys (if noisy then writeBackState tr.writeBack s else s) := by
  simp [translate, h]

theorem isAligned_iff (v : Word) (n : Width) : isAligned v n = true ↔ v.toNat % bytesOf n = 0 := by simp [isAligned]

theorem isAligned_eq_false_iff (v : Word) (n : Width) : isAligned v n = false ↔ v.toNat % bytesOf n ≠ 0 := by
  simp [isAligned]

/-- What a translated, aligned access can come to. -/
theorem translateAligned_cases (v : Word) (n : Width) (intent : Intent) (noisy : Bool) (s : State) :
    (translation v intent s = none ∧
      translateAligned v n intent noisy s = .raised { exception := pageFaultOf intent, tval := some v } s) ∨
    (∃ tr, translation v intent s = some tr ∧ isAligned v n = false ∧
      translateAligned v n intent noisy s = .raised { exception := misalignedOf intent, tval := some v }
        (if noisy then writeBackState tr.writeBack s else s)) ∨
    (∃ tr, translation v intent s = some tr ∧ isAligned v n = true ∧
      translateAligned v n intent noisy s = .ok tr.phys (if noisy then writeBackState tr.writeBack s else s)) := by
  unfold translateAligned
  cases h : translation v intent s with
  | none => left; rw [translate_none h]; exact ⟨rfl, rfl⟩
  | some tr =>
    right
    rw [translate_some h]
    cases ha : isAligned v n
    · exact .inl ⟨tr, rfl, rfl, rfl⟩
    · exact .inr ⟨tr, rfl, rfl, rfl⟩

/-- A timer access is aligned and at effective privilege M. -/
theorem timerHit_some {v : Word} {n : Width} {s : State} {tm : Timer} (h : timerHit v n s = some tm) :
    effPriv .read s = .m ∧ isAligned v n = true := by
  unfold timerHit at h
  split at h
  · assumption
  · cases h

/-- A misaligned access hits no timer. -/
theorem timerHit_misaligned {v : Word} {n : Width} (s : State) (h : isAligned v n = false) : timerHit v n s = none := by
  simp [timerHit, h]

/-- Where a data translation faults the effective privilege is below M, so no timer is hit. -/
theorem timerHit_fault {v : Word} {n : Width} {s : State} {intent : Intent} (hi : intent ≠ .fetch)
    (h : translation v intent s = none) : timerHit v n s = none := by
  have he : effPriv .read s = effPriv intent s := by cases intent <;> first | rfl | exact absurd rfl hi
  have : effPriv .read s ≠ .m := by
    rw [he]; intro hm
    simp [translation, translationActive, hm] at h
  simp [timerHit, this]

/-- What a load's data read can come to (spec 20_memory.md R130). -/
theorem memRead_cases (v : Word) (n : Width) (s : State) :
    (∃ tm, timerHit v n s = some tm ∧ memRead v n s = .ok (timerRead tm v n s) s) ∨
    (timerHit v n s = none ∧
      ((translation v .read s = none ∧ memRead v n s = .raised { exception := .loadPageFault, tval := some v } s) ∨
       (∃ tr, translation v .read s = some tr ∧ isAligned v n = false ∧
         memRead v n s = .raised { exception := .loadAddressMisaligned, tval := some v } (writeBackState tr.writeBack s)) ∨
       (∃ tr, translation v .read s = some tr ∧ isAligned v n = true ∧
         memRead v n s = .ok (pmValue tr.phys n true (writeBackState tr.writeBack s))
           (pmReadState tr.phys n true (writeBackState tr.writeBack s))))) := by
  unfold memRead readMem
  simp only [Bool.false_eq_true, if_false]
  cases ht : timerHit v n s with
  | some tm => exact .inl ⟨tm, rfl, rfl⟩
  | none =>
    right
    refine ⟨rfl, ?_⟩
    rcases translateAligned_cases v n .read true s with ⟨h, e⟩ | ⟨tr, h, ha, e⟩ | ⟨tr, h, ha, e⟩ <;> rw [e]
    · exact .inl ⟨h, rfl⟩
    · exact .inr (.inl ⟨tr, h, ha, rfl⟩)
    · exact .inr (.inr ⟨tr, h, ha, rfl⟩)

/-- What a store's data write can come to (spec 20_memory.md R131). -/
theorem memWrite_cases (v : Word) (n : Width) (val : Word) (s : State) :
    (∃ tm, timerHit v n s = some tm ∧ memWrite v n val s = .ok () (timerWrite tm v n val s)) ∨
    (timerHit v n s = none ∧
      ((translation v .write s = none ∧ memWrite v n val s = .raised { exception := .storeAmoPageFault, tval := some v } s) ∨
       (∃ tr, translation v .write s = some tr ∧ isAligned v n = false ∧
         memWrite v n val s =
           .raised { exception := .storeAmoAddressMisaligned, tval := some v } (writeBackState tr.writeBack s)) ∨
       (∃ tr, translation v .write s = some tr ∧ isAligned v n = true ∧
         memWrite v n val s = .ok () (pmWrite tr.phys n val true (writeBackState tr.writeBack s)).2))) := by
  unfold memWrite writeMem
  cases ht : timerHit v n s with
  | some tm => exact .inl ⟨tm, rfl, rfl⟩
  | none =>
    right
    refine ⟨rfl, ?_⟩
    rcases translateAligned_cases v n .write true s with ⟨h, e⟩ | ⟨tr, h, ha, e⟩ | ⟨tr, h, ha, e⟩ <;> rw [e]
    · exact .inl ⟨h, rfl⟩
    · exact .inr (.inl ⟨tr, h, ha, rfl⟩)
    · exact .inr (.inr ⟨tr, h, ha, rfl⟩)

-- ---- trap entry ----

/-- A vector, where there is one, is a multiple of 4. -/
theorem trapVector_aligned {tvec target : Word} {c : Trap} (h : trapVector tvec c = some target) :
    target &&& 3#32 = 0#32 := by
  have hb : (tvec &&& 0xFFFFFFFC#32) &&& 3#32 = 0#32 := by
    rw [BitVec.and_assoc, show (0xFFFFFFFC#32 &&& 3#32 : Word) = 0#32 from rfl, BitVec.and_zero]
  have hadd : ∀ k : Nat, ((tvec &&& 0xFFFFFFFC#32) + BitVec.ofNat 32 (4 * k)) &&& 3#32 = 0#32 := by
    intro k
    have h4 : ∀ x : Word, x &&& 3#32 = 0#32 ↔ x.toNat % 4 = 0 := by
      intro x
      rw [← BitVec.toNat_inj, BitVec.toNat_and, show (3#32 : Word).toNat = 2 ^ 2 - 1 from rfl, Nat.and_two_pow_sub_one_eq_mod]
      rfl
    rw [h4] at hb ⊢
    simp only [BitVec.toNat_add, BitVec.toNat_ofNat]
    omega
  unfold trapVector at h
  split at h <;> simp only [Option.some.injEq, reduceCtorEq] at h
  · exact h ▸ hb
  · exact h ▸ hb
  · exact h ▸ hadd _

/-- What M-trap entry does (spec 60_exceptions.md R411). -/
theorem enterM_cases (c : Trap) (s : State) :
    (trapVector s.csr.mtvec c = none ∧ enterM c s = .fault .badTvecMode) ∨
    (∃ target, trapVector s.csr.mtvec c = some target ∧ enterM c s = .next { s with
      csr := { s.csr with
        mepc := savedPc c s, mcause := causeWord c, mtval := s.csr.tvalNext, mstatus := mstatusEnterM s.csr.mstatus s.priv }
      priv := .m, stdby := false, pcNext := target }) := by
  unfold enterM
  cases h : trapVector s.csr.mtvec c with
  | none => exact .inl ⟨rfl, rfl⟩
  | some t => exact .inr ⟨t, rfl, rfl⟩

/-- What S-trap entry does (spec 60_exceptions.md R412). -/
theorem enterS_cases (c : Trap) (s : State) :
    (trapVector s.csr.stvec c = none ∧ enterS c s = .fault .badTvecMode) ∨
    (∃ target, trapVector s.csr.stvec c = some target ∧ enterS c s = .next { s with
      csr := { s.csr with
        sepc := savedPc c s, scause := causeWord c, stval := s.csr.tvalNext, mstatus := mstatusEnterS s.csr.mstatus s.priv }
      priv := .s, stdby := false, pcNext := target }) := by
  unfold enterS
  cases h : trapVector s.csr.stvec c with
  | none => exact .inl ⟨rfl, rfl⟩
  | some t => exact .inr ⟨t, rfl, rfl⟩

/-- What taking an exception does: it goes to S only from below M and with the delegation bit set; either trap entry, or the fatal
vector (spec 60_exceptions.md R410). -/
theorem takeException_cases (e : Raised) (s : State) :
    takeException e s = .fault .badTvecMode ∨
    (∃ target, trapVector s.csr.stvec (.exception e.exception) = some target ∧ delegated e.exception s = true ∧
      takeException e s = .next { s with
        exc := some e.exception
        csr := { s.csr with
          tvalNext := e.tval.getD s.csr.tvalNext
          sepc := s.pc, scause := causeWord (.exception e.exception), stval := e.tval.getD s.csr.tvalNext
          mstatus := mstatusEnterS s.csr.mstatus s.priv }
        priv := .s, stdby := false, pcNext := target }) ∨
    (∃ target, trapVector s.csr.mtvec (.exception e.exception) = some target ∧ delegated e.exception s = false ∧
      takeException e s = .next { s with
        exc := some e.exception
        csr := { s.csr with
          tvalNext := e.tval.getD s.csr.tvalNext
          mepc := s.pc, mcause := causeWord (.exception e.exception), mtval := e.tval.getD s.csr.tvalNext
          mstatus := mstatusEnterM s.csr.mstatus s.priv }
        priv := .m, stdby := false, pcNext := target }) := by
  unfold takeException handleException
  have hd : delegated e.exception (noteRaised e s) = delegated e.exception s := rfl
  rw [hd]
  cases h : delegated e.exception s
  · rcases enterM_cases (.exception e.exception) (noteRaised e s) with ⟨-, h'⟩ | ⟨t, ht, h'⟩
    · exact .inl h'
    · exact .inr (.inr ⟨t, ht, rfl, h'⟩)
  · rcases enterS_cases (.exception e.exception) (noteRaised e s) with ⟨-, h'⟩ | ⟨t, ht, h'⟩
    · exact .inl h'
    · exact .inr (.inl ⟨t, ht, rfl, h'⟩)

theorem delegated_iff (e : Exception) (s : State) :
    delegated e s = true ↔ s.priv ≠ .m ∧ s.csr.medeleg.getLsbD (exceptionCode e) = true := by simp [delegated]

-- ---- the status word around traps ----

theorem getLsbD_mstatusEnterM (w : Word) (p : Mode) {k : Nat} (_ : k < 32) :
    (mstatusEnterM w p).getLsbD k =
      if k = 3 then false else if k = 7 then w.getLsbD 3 else if k = 11 then decide (p ≠ .u)
      else if k = 12 then decide (p = .m) else w.getLsbD k := by
  unfold mstatusEnterM mstatusMie
  rw [getLsbD_withMpp, getLsbD_setBit, getLsbD_setBit]
  split_ifs <;> first | rfl | omega

theorem getLsbD_mstatusEnterS (w : Word) (p : Mode) {k : Nat} (_ : k < 32) :
    (mstatusEnterS w p).getLsbD k =
      if k = 1 then false else if k = 5 then w.getLsbD 1 else if k = 8 then decide (p = .s) else w.getLsbD k := by
  unfold mstatusEnterS mstatusSie
  rw [getLsbD_setBit, getLsbD_setBit, getLsbD_setBit]
  split_ifs <;> first | rfl | omega

theorem getLsbD_mstatusReturnM (w : Word) (k : Nat) :
    (mstatusReturnM w).getLsbD k =
      if k = 3 then w.getLsbD 7 else if k = 7 then true else if k = 11 ∨ k = 12 then false
      else if k = 17 then w.getLsbD 17 && decide (mstatusMpp w = .m) else w.getLsbD k := by
  unfold mstatusReturnM mstatusMpie
  have h1 : (withMpp (setBit (setBit w 3 (w.getLsbD 7)) 7 true) .u).getLsbD k =
      if k = 3 then w.getLsbD 7 else if k = 7 then true else if k = 11 ∨ k = 12 then false else w.getLsbD k := by
    rw [getLsbD_withMpp, getLsbD_setBit, getLsbD_setBit]
    by_cases h3 : k = 3
    · subst h3; simp
    · by_cases h7 : k = 7
      · subst h7; simp
      · by_cases h11 : k = 11
        · subst h11; simp
        · by_cases h12 : k = 12
          · subst h12; simp
          · simp [h3, h7, h11, h12]
  by_cases hm : mstatusMpp w = .m
  · rw [if_pos hm, h1]
    by_cases h17 : k = 17
    · subst h17; simp [hm]
    · simp [h17]
  · rw [if_neg hm, getLsbD_setBit, h1]
    by_cases h17 : k = 17
    · subst h17; simp [hm]
    · simp [h17]

theorem getLsbD_mstatusReturnS (w : Word) (k : Nat) :
    (mstatusReturnS w).getLsbD k =
      if k = 1 then w.getLsbD 5 else if k = 5 then true else if k = 8 ∨ k = 17 then false else w.getLsbD k := by
  unfold mstatusReturnS mstatusSpie
  rw [getLsbD_setBit, getLsbD_setBit, getLsbD_setBit, getLsbD_setBit]
  by_cases h1 : k = 1
  · subst h1; simp
  · by_cases h5 : k = 5
    · subst h5; simp
    · by_cases h8 : k = 8
      · subst h8; simp
      · by_cases h17 : k = 17
        · subst h17; simp
        · simp [h1, h5, h8, h17]

end Sys2Proof.Machine
end

