-- ==== Sys2Proof/Laws/Csr.lean ====
section
/-! SUPPORT. The CSR file: the access check, and that every update of the CSR block keeps it legal. -/

namespace Sys2Proof.Machine

/-- What the access check says: the number names the register, the mode may use it, it is not written read-only, and the
counter is enabled (spec 45_zicsr.md R321). -/
theorem csrCheck_some {n : CsrNum} {writes : Bool} {s : State} {r : CsrReg} (h : csrCheck n writes s = some r) :
    csrOf s.platform n = some r ∧ csrMinPriv n ≤ modeNum s.priv ∧ ¬(writes = true ∧ csrReadOnly n = true) ∧
      (csrIsShadow n = true → counterEnabled n s = true) := by
  unfold csrCheck at h
  split at h
  · cases h
  · rename_i q hq
    split_ifs at h with h1 h2 h3
    obtain rfl : q = r := by simpa using h
    refine ⟨hq, by omega, by simpa using h2, fun hs => ?_⟩
    by_contra hc
    simp [hs, hc] at h3

/-- The converse. -/
theorem csrCheck_of {n : CsrNum} {writes : Bool} {s : State} {r : CsrReg} (h1 : csrOf s.platform n = some r)
    (h2 : csrMinPriv n ≤ modeNum s.priv) (h3 : ¬(writes = true ∧ csrReadOnly n = true))
    (h4 : csrIsShadow n = true → counterEnabled n s = true) : csrCheck n writes s = some r := by
  unfold csrCheck
  rw [h1]
  simp only
  rw [if_neg (by omega), if_neg (by simpa using h3), if_neg]
  intro h
  simp only [Bool.and_eq_true, Bool.not_eq_true'] at h
  rw [h4 h.1] at h
  exact absurd h.2 (by simp)

theorem orElse_some {α : Type} {a b : Option α} {x : α} (h : (a <|> b) = some x) : a = some x ∨ b = some x := by
  cases a
  · exact .inr h
  · exact .inl h

/-- Which numbers name which registers: a pair of the fixed list, a place in one of the five counter ranges, or the
platform's `scyclecmp` (spec 10_state.md R41). -/
theorem csrOf_some {p : Platform} {n : CsrNum} {r : CsrReg} (h : csrOf p n = some r) :
    (n, r) ∈ fixedCsrs ∨
    (∃ i : Fin 29, (n.toNat = 0x323 + i.val ∧ r = .mhpmevent i) ∨ (n.toNat = 0xB03 + i.val ∧ r = .mhpmcounter i) ∨
      (n.toNat = 0xB83 + i.val ∧ r = .mhpmcounterh i) ∨ (n.toNat = 0xC03 + i.val ∧ r = .hpmcounter i) ∨
      (n.toNat = 0xC83 + i.val ∧ r = .hpmcounterh i)) ∨
    (n = p.scyclecmpCsr ∧ r = .scyclecmp) := by
  have idx : ∀ base m (i : Fin 29), hpmIndex base m = some i → m = base + i.val := by
    intro base m i hi
    unfold hpmIndex at hi
    split at hi
    · rename_i hb; cases hi; exact (Nat.add_sub_cancel' hb.1).symm
    · cases hi
  rcases orElse_some h with h | h
  · obtain ⟨e, he, rfl⟩ := Option.map_eq_some_iff.mp h
    have hn : e.1 = n := by simpa using List.find?_some he
    exact .inl (hn ▸ List.mem_of_find?_eq_some he)
  · right
    rcases orElse_some h with h | h
    · left
      have fin : ∀ {base : Nat} {f : Fin 29 → CsrReg}, (hpmIndex base n.toNat).map f = some r →
          ∃ i : Fin 29, n.toNat = base + i.val ∧ r = f i := by
        intro base f hm
        obtain ⟨i, hi, rfl⟩ := Option.map_eq_some_iff.mp hm
        exact ⟨i, idx _ _ _ hi, rfl⟩
      rcases orElse_some h with h | h
      · obtain ⟨i, hi⟩ := fin h; exact ⟨i, .inl hi⟩
      rcases orElse_some h with h | h
      · obtain ⟨i, hi⟩ := fin h; exact ⟨i, .inr (.inl hi)⟩
      rcases orElse_some h with h | h
      · obtain ⟨i, hi⟩ := fin h; exact ⟨i, .inr (.inr (.inl hi))⟩
      rcases orElse_some h with h | h
      · obtain ⟨i, hi⟩ := fin h; exact ⟨i, .inr (.inr (.inr (.inl hi)))⟩
      · obtain ⟨i, hi⟩ := fin h; exact ⟨i, .inr (.inr (.inr (.inr hi)))⟩
    · right
      split at h
      · rename_i hn; exact ⟨hn, by simpa using h.symm⟩
      · cases h

/-- The place of `base + i` in the numbers that start at `base`. -/
theorem hpmIndex_add (base : Nat) (i : Fin 29) : hpmIndex base (base + i.val) = some i := by
  unfold hpmIndex
  rw [dif_pos ⟨by omega, by omega⟩]
  simp

/-- A number outside the 29 that start at `base` has no place among them. -/
theorem hpmIndex_none {base n : Nat} (h : n < base ∨ base + 29 ≤ n) : hpmIndex base n = none := by
  unfold hpmIndex
  rw [dif_neg (by omega)]

/-- No number of the fixed list lies in a counter range. -/
theorem fixedCsrs_not_hpm : ∀ e ∈ fixedCsrs, hpmCsrOf e.1 = none := by decide

/-- A number of a counter range names its counter (spec 10_state.md R41). -/
theorem csrOf_hpm (p : Platform) {n : CsrNum} {r : CsrReg} (h : hpmCsrOf n = some r) : csrOf p n = some r := by
  have hf : fixedCsrs.find? (fun e => e.1 == n) = none := by
    rw [List.find?_eq_none]
    intro e he hn
    have hn : e.1 = n := by simpa using hn
    have := fixedCsrs_not_hpm e he
    rw [hn, h] at this
    cases this
  unfold csrOf
  rw [hf, h]
  rfl

-- ---- legality ----

theorem mppBits_congr {a b : Word} (h11 : a.getLsbD 11 = b.getLsbD 11) (h12 : a.getLsbD 12 = b.getLsbD 12) :
    mstatusMppBits a = mstatusMppBits b := by
  rw [mppBits_eq_iff]
  have := (mppBits_eq_iff b _).mp rfl
  rw [h11, h12]; exact this

theorem mppBits_ne_two_iff (w : Word) : mstatusMppBits w ≠ 2#2 ↔ (w.getLsbD 12 = true → w.getLsbD 11 = true) := by
  rw [ne_eq, mppBits_eq_iff]
  cases w.getLsbD 11 <;> cases w.getLsbD 12 <;> simp

theorem modeBits_ne_two (p : Mode) : modeBits p ≠ 2#2 := by cases p <;> decide

/-- A legal status word: within the mask of spec 10_state.md R42, MPP not 2. -/
abbrev StatusLegal (w : Word) : Prop := within mstatusMask w ∧ mstatusMppBits w ≠ 2#2

theorem StatusLegal.of_bits {old new : Word} (ho : StatusLegal old)
    (hb : ∀ k, k < 32 → mstatusMask.getLsbD k = false → new.getLsbD k = false ∨ new.getLsbD k = old.getLsbD k)
    (hm : new.getLsbD 12 = true → new.getLsbD 11 = true) : StatusLegal new := by
  refine ⟨(within_iff _ _).mpr fun i hi h => ?_, (mppBits_ne_two_iff _).mpr hm⟩
  rcases hb i hi h with h' | h'
  · exact h'
  · rw [h', (within_iff _ _).mp ho.1 i hi h]

theorem mask_ne {k j : Nat} (h : mstatusMask.getLsbD k = false) (hj : mstatusMask.getLsbD j = true) : k ≠ j := by
  rintro rfl; rw [h] at hj; cases hj

theorem mstatusEnterM_legal {w : Word} (p : Mode) (h : StatusLegal w) : StatusLegal (mstatusEnterM w p) := by
  refine h.of_bits (fun k hk hm => .inr ?_) ?_
  · rw [getLsbD_mstatusEnterM _ _ hk, if_neg (mask_ne hm rfl), if_neg (mask_ne hm rfl), if_neg (mask_ne hm rfl),
      if_neg (mask_ne hm rfl)]
  · rw [getLsbD_mstatusEnterM _ _ (by omega), getLsbD_mstatusEnterM _ _ (by omega)]
    cases p <;> simp

theorem mstatusEnterS_legal {w : Word} (p : Mode) (h : StatusLegal w) : StatusLegal (mstatusEnterS w p) := by
  refine h.of_bits (fun k hk hm => .inr ?_) ?_
  · rw [getLsbD_mstatusEnterS _ _ hk, if_neg (mask_ne hm rfl), if_neg (mask_ne hm rfl), if_neg (mask_ne hm rfl)]
  · rw [getLsbD_mstatusEnterS _ _ (by omega), getLsbD_mstatusEnterS _ _ (by omega)]
    exact (mppBits_ne_two_iff w).mp h.2

theorem mstatusReturnM_legal {w : Word} (h : StatusLegal w) : StatusLegal (mstatusReturnM w) := by
  refine h.of_bits (fun k hk hm => .inr ?_) ?_
  · rw [getLsbD_mstatusReturnM, if_neg (mask_ne hm rfl), if_neg (mask_ne hm rfl),
      if_neg (not_or.mpr ⟨mask_ne hm rfl, mask_ne hm rfl⟩), if_neg (mask_ne hm rfl)]
  · rw [getLsbD_mstatusReturnM, getLsbD_mstatusReturnM]; simp

theorem mstatusReturnS_legal {w : Word} (h : StatusLegal w) : StatusLegal (mstatusReturnS w) := by
  refine h.of_bits (fun k hk hm => .inr ?_) ?_
  · rw [getLsbD_mstatusReturnS, if_neg (mask_ne hm rfl), if_neg (mask_ne hm rfl),
      if_neg (not_or.mpr ⟨mask_ne hm rfl, mask_ne hm rfl⟩)]
  · rw [getLsbD_mstatusReturnS, getLsbD_mstatusReturnS]
    exact (mppBits_ne_two_iff w).mp h.2

theorem maskedStatus_legal {m w v : Word} (h : StatusLegal w) (hm : within mstatusMask m)
    (hp : m.getLsbD 11 = m.getLsbD 12) (hv : m.getLsbD 11 = true → mstatusMppBits v ≠ 2#2) :
    StatusLegal (maskedWrite m w v) := by
  refine ⟨within_maskedWrite hm h.1, (mppBits_ne_two_iff _).mpr ?_⟩
  rw [getLsbD_maskedWrite, getLsbD_maskedWrite, ← hp]
  cases h11 : m.getLsbD 11
  · exact (mppBits_ne_two_iff w).mp h.2
  · exact (mppBits_ne_two_iff v).mp (hv h11)

theorem writeMstatus_legal {w : Word} (v : Word) (h : StatusLegal w) : StatusLegal (writeMstatus w v) := by
  unfold writeMstatus
  split
  · exact maskedStatus_legal h rfl rfl (fun hx => by cases hx)
  · rename_i hv; exact maskedStatus_legal h rfl rfl (fun _ => hv)

theorem CsrBlock.Legal.status {c : CsrBlock} (h : c.Legal) : StatusLegal c.mstatus := ⟨h.mstatus_mask, h.mpp_legal⟩

/-- A CSR write keeps the block legal. -/
theorem writeCsr_legal {c : CsrBlock} (h : c.Legal) (r : CsrReg) (v : Word) : (writeCsr r v c).Legal := by
  have hs : StatusLegal (writeMstatus c.mstatus v) := writeMstatus_legal v h.status
  have hss : StatusLegal (maskedWrite sstatusMask c.mstatus v) :=
    maskedStatus_legal h.status rfl rfl (fun hx => by cases hx)
  have hie : within 0xAAA#32 (maskedWrite sIntMask c.mie v) := within_maskedWrite rfl h.mie_mask
  have hip : within 0xAAA#32 (maskedWrite 0x2#32 c.mip v) := within_maskedWrite rfl h.mip_mask
  have hmp : within 0xAAA#32 (maskedWrite 0x222#32 c.mip v) := within_maskedWrite rfl h.mip_mask
  obtain ⟨h1, h2, h3, h4, h5, h6, h7, h8, h9⟩ := h
  cases r <;> simp only [writeCsr] <;>
    first
    | exact ⟨h1, h2, h3, h4, h5, h6, h7, h8, h9⟩
    | exact ⟨hss.1, hss.2, h3, h4, h5, h6, h7, h8, h9⟩
    | exact ⟨hs.1, hs.2, h3, h4, h5, h6, h7, h8, h9⟩
    | exact ⟨h1, h2, hie, h4, h5, h6, h7, h8, h9⟩
    | exact ⟨h1, h2, h3, hip, h5, h6, h7, h8, h9⟩
    | exact ⟨h1, h2, h3, hmp, h5, h6, h7, h8, h9⟩
    | exact ⟨h1, h2, within_and _ _, h4, h5, h6, h7, h8, h9⟩
    | exact ⟨h1, h2, h3, h4, within_and _ _, h6, h7, h8, h9⟩
    | exact ⟨h1, h2, h3, h4, h5, within_and _ _, h7, h8, h9⟩
    | exact ⟨h1, h2, h3, h4, h5, h6, within_and _ _, h8, h9⟩
    | exact ⟨h1, h2, h3, h4, h5, h6, h7, within_and _ _, h9⟩
    | exact ⟨h1, h2, h3, h4, h5, h6, h7, h8, within_and _ _⟩

/-- A legal block stays legal when the words the law speaks of are unchanged. -/
theorem CsrBlock.Legal.congr {c d : CsrBlock} (h : c.Legal) (h1 : d.mstatus = c.mstatus) (h2 : d.mie = c.mie)
    (h3 : d.mip = c.mip) (h4 : d.medeleg = c.medeleg) (h5 : d.mideleg = c.mideleg) (h6 : d.mepc = c.mepc)
    (h7 : d.sepc = c.sepc) (h8 : d.mcountinhibit = c.mcountinhibit) : d.Legal := by
  obtain ⟨a1, a2, a3, a4, a5, a6, a7, a8, a9⟩ := h
  exact ⟨h1 ▸ a1, h1 ▸ a2, h2 ▸ a3, h3 ▸ a4, h4 ▸ a5, h5 ▸ a6, h6 ▸ a7, h7 ▸ a8, h8 ▸ a9⟩

/-- Recomputing the timer bits of `mip` keeps it within its mask. -/
theorem timersPending_mip_within {c : CsrBlock} (h : within 0xAAA#32 c.mip) : within 0xAAA#32 (timersPending c).mip :=
  within_setBit rfl (within_setBit rfl h _) _

end Sys2Proof.Machine
end

