-- ==== Sys2Proof/Laws/Decode.lean ====
section
/-! SUPPORT. Decoding and encoding: the table's rows exclude one another, each format keeps its fields, and a word that
hits a row decodes by that row. -/

namespace Sys2Proof

/-- Two rows differ in a bit both of them fix. -/
def OpRow.apart (r q : OpRow) : Bool := ((r.mask &&& q.mask) &&& (r.pat ^^^ q.pat)) != 0#32

/-- No two rows of the table match one word (spec 30_encoding.md R181: mutually exclusive). -/
theorem opcodeTable_apart : opcodeTable.Pairwise fun r q => OpRow.apart r q = true := by decide

/-- Every pattern lies within its mask. -/
theorem opcodeTable_pat_within : ∀ r ∈ opcodeTable, r.pat &&& r.mask = r.pat := by decide

theorem OpRow.apart_not_both {r q : OpRow} (h : OpRow.apart r q = true) (w : Word) (hr : r.hits w = true) :
    q.hits w = false := by
  by_contra hq
  rw [Bool.not_eq_false] at hq
  simp only [OpRow.hits, beq_iff_eq] at hr hq
  simp only [OpRow.apart, bne_iff_ne, ne_eq] at h
  apply h
  rw [← hr, ← hq]
  apply BitVec.eq_of_getLsbD_eq
  intro i _
  simp only [BitVec.getLsbD_and, BitVec.getLsbD_xor, BitVec.getLsbD_zero]
  cases w.getLsbD i <;> cases r.mask.getLsbD i <;> cases q.mask.getLsbD i <;> rfl

theorem find_of_pairwise_apart {l : List OpRow} (hl : l.Pairwise fun r q => OpRow.apart r q = true) {r : OpRow} {w : Word}
    (hr : r ∈ l) (hw : r.hits w = true) : l.find? (·.hits w) = some r := by
  induction l with
  | nil => cases hr
  | cons q l ih =>
    rw [List.pairwise_cons] at hl
    rcases List.mem_cons.mp hr with rfl | hr
    · simp [hw]
    · have hq : q.hits w = false := by
        by_contra hq
        rw [Bool.not_eq_false] at hq
        rw [OpRow.apart_not_both (hl.1 r hr) w hq] at hw
        cases hw
      rw [List.find?_cons_of_neg (by simp [hq])]
      exact ih hl.2 hr

/-- A word that hits a row of the table decodes by that row. -/
theorem decodeWord_of_hits {r : OpRow} {w : Word} (hr : r ∈ opcodeTable) (hw : r.hits w = true) :
    decodeWord w = some (r.build w) := by
  rw [decodeWord, find_of_pairwise_apart opcodeTable_apart hr hw, Option.map_some]

/-- The same by the row's place in the table. -/
theorem decodeWord_at (k : Nat) (hk : k < opcodeTable.length) {w : Word} (hw : opcodeTable[k].hits w = true) :
    decodeWord w = some (opcodeTable[k].build w) :=
  decodeWord_of_hits (List.getElem_mem hk) hw

/-- A word decodes only by a row of the table that it hits. -/
theorem decodeWord_some {w : Word} {i : Instr} (h : decodeWord w = some i) :
    ∃ r ∈ opcodeTable, r.hits w = true ∧ i = r.build w := by
  rw [decodeWord, Option.map_eq_some_iff] at h
  obtain ⟨r, hr, rfl⟩ := h
  exact ⟨r, List.mem_of_find?_eq_some hr, List.find?_some (p := fun x : OpRow => x.hits w) hr, rfl⟩

/-- A branch offset read from a word is even. -/
theorem fImmB_even (w : Word) : branchOffsetWf (fImmB w) := by
  simp only [branchOffsetWf, fImmB, BitVec.getLsbD_append]; simp

/-- A jump offset read from a word is even. -/
theorem fImmJ_even (w : Word) : jumpOffsetWf (fImmJ w) := by
  simp only [jumpOffsetWf, fImmJ, BitVec.getLsbD_append]; simp

/-- Every row builds a well-formed instruction. -/
theorem build_wf (w : Word) : ∀ r ∈ opcodeTable, (r.build w).wf = true := by
  have hb : decide (branchOffsetWf (fImmB w)) = true := decide_eq_true (fImmB_even w)
  have hj : decide (jumpOffsetWf (fImmJ w)) = true := decide_eq_true (fImmJ_even w)
  simp only [opcodeTable, upperRows, immRows, regRows, controlRows, loadRows, storeRows, mulDivRows, atomicRows, csrRows,
    systemRows, List.cons_append, List.nil_append, List.forall_mem_cons, Instr.wf, hb, hj]
  simp

/-- What a word decodes to is well formed. -/
theorem decodeWord_wf {w : Word} {i : Instr} (h : decodeWord w = some i) : i.wf = true := by
  obtain ⟨r, hr, -, rfl⟩ := decodeWord_some h
  exact build_wf w r hr

-- ---- what a mask leaves of a format ----

theorem encR_mask (f7 : BitVec 7) (rs2 rs1 : Reg) (f3 : BitVec 3) (rd : Reg) (op : BitVec 7) :
    encR f7 rs2 rs1 f3 rd op &&& 0xFE00707F#32 = encR f7 0#5 0#5 f3 0#5 op := by
  apply BitVec.eq_of_getLsbD_eq
  intro i hi
  simp only [encR, BitVec.getLsbD_and, BitVec.getLsbD_append]
  interval_cases i <;> simp

theorem encR_maskFull (f7 : BitVec 7) (rs2 rs1 : Reg) (f3 : BitVec 3) (rd : Reg) (op : BitVec 7) :
    encR f7 rs2 rs1 f3 rd op &&& 0xFE007FFF#32 = encR f7 0#5 0#5 f3 rd op := by
  apply BitVec.eq_of_getLsbD_eq
  intro i hi
  simp only [encR, BitVec.getLsbD_and, BitVec.getLsbD_append]
  interval_cases i <;> simp

theorem encI_mask (imm : BitVec 12) (rs1 : Reg) (f3 : BitVec 3) (rd : Reg) (op : BitVec 7) :
    encI imm rs1 f3 rd op &&& 0x0000707F#32 = encI 0#12 0#5 f3 0#5 op := by
  apply BitVec.eq_of_getLsbD_eq
  intro i hi
  simp only [encI, BitVec.getLsbD_and, BitVec.getLsbD_append]
  interval_cases i <;> simp

theorem encS_mask (imm : BitVec 12) (rs2 rs1 : Reg) (f3 : BitVec 3) (op : BitVec 7) :
    encS imm rs2 rs1 f3 op &&& 0x0000707F#32 = encS 0#12 0#5 0#5 f3 op := by
  apply BitVec.eq_of_getLsbD_eq
  intro i hi
  simp only [encS, BitVec.getLsbD_and, BitVec.getLsbD_append]
  interval_cases i <;> simp

theorem encB_mask (off : BitVec 13) (rs2 rs1 : Reg) (f3 : BitVec 3) (op : BitVec 7) :
    encB off rs2 rs1 f3 op &&& 0x0000707F#32 = encB 0#13 0#5 0#5 f3 op := by
  apply BitVec.eq_of_getLsbD_eq
  intro i hi
  simp only [encB, BitVec.getLsbD_and, BitVec.getLsbD_append]
  interval_cases i <;> simp

theorem encU_mask (imm : BitVec 20) (rd : Reg) (op : BitVec 7) :
    encU imm rd op &&& 0x0000007F#32 = encU 0#20 0#5 op := by
  apply BitVec.eq_of_getLsbD_eq
  intro i hi
  simp only [encU, BitVec.getLsbD_and, BitVec.getLsbD_append]
  interval_cases i <;> simp

theorem encJ_mask (off : BitVec 21) (rd : Reg) (op : BitVec 7) :
    encJ off rd op &&& 0x0000007F#32 = encJ 0#21 0#5 op := by
  apply BitVec.eq_of_getLsbD_eq
  intro i hi
  simp only [encJ, BitVec.getLsbD_and, BitVec.getLsbD_append]
  interval_cases i <;> simp

theorem encAmo_mask (f5 : BitVec 5) (aq rl : BitVec 1) (rs2 rs1 rd : Reg) :
    encAmo f5 aq rl rs2 rs1 rd &&& 0xF800707F#32 = encAmo f5 0#1 0#1 0#5 0#5 0#5 := by
  apply BitVec.eq_of_getLsbD_eq
  intro i hi
  simp only [encAmo, BitVec.getLsbD_and, BitVec.getLsbD_append]
  interval_cases i <;> simp

theorem encAmo_maskRs2 (f5 : BitVec 5) (aq rl : BitVec 1) (rs2 rs1 rd : Reg) :
    encAmo f5 aq rl rs2 rs1 rd &&& 0xF9F0707F#32 = encAmo f5 0#1 0#1 rs2 0#5 0#5 := by
  apply BitVec.eq_of_getLsbD_eq
  intro i hi
  simp only [encAmo, BitVec.getLsbD_and, BitVec.getLsbD_append]
  interval_cases i <;> simp

-- ---- the fields of a format ----

@[simp] theorem fRd_encR (f7 : BitVec 7) (rs2 rs1 : Reg) (f3 : BitVec 3) (rd : Reg) (op : BitVec 7) :
    fRd (encR f7 rs2 rs1 f3 rd op) = rd := by
  apply BitVec.eq_of_getLsbD_eq
  intro i hi
  simp only [fRd, encR, BitVec.getLsbD_extractLsb', BitVec.getLsbD_append]
  interval_cases i <;> simp

@[simp] theorem fRs1_encR (f7 : BitVec 7) (rs2 rs1 : Reg) (f3 : BitVec 3) (rd : Reg) (op : BitVec 7) :
    fRs1 (encR f7 rs2 rs1 f3 rd op) = rs1 := by
  apply BitVec.eq_of_getLsbD_eq
  intro i hi
  simp only [fRs1, encR, BitVec.getLsbD_extractLsb', BitVec.getLsbD_append]
  interval_cases i <;> simp

@[simp] theorem fRs2_encR (f7 : BitVec 7) (rs2 rs1 : Reg) (f3 : BitVec 3) (rd : Reg) (op : BitVec 7) :
    fRs2 (encR f7 rs2 rs1 f3 rd op) = rs2 := by
  apply BitVec.eq_of_getLsbD_eq
  intro i hi
  simp only [fRs2, encR, BitVec.getLsbD_extractLsb', BitVec.getLsbD_append]
  interval_cases i <;> simp

@[simp] theorem fShamt_encR (f7 : BitVec 7) (rs2 rs1 : Reg) (f3 : BitVec 3) (rd : Reg) (op : BitVec 7) :
    fShamt (encR f7 rs2 rs1 f3 rd op) = rs2 := by
  apply BitVec.eq_of_getLsbD_eq
  intro i hi
  simp only [fShamt, encR, BitVec.getLsbD_extractLsb', BitVec.getLsbD_append]
  interval_cases i <;> simp

@[simp] theorem fRd_encI (imm : BitVec 12) (rs1 : Reg) (f3 : BitVec 3) (rd : Reg) (op : BitVec 7) :
    fRd (encI imm rs1 f3 rd op) = rd := by
  apply BitVec.eq_of_getLsbD_eq
  intro i hi
  simp only [fRd, encI, BitVec.getLsbD_extractLsb', BitVec.getLsbD_append]
  interval_cases i <;> simp

@[simp] theorem fRs1_encI (imm : BitVec 12) (rs1 : Reg) (f3 : BitVec 3) (rd : Reg) (op : BitVec 7) :
    fRs1 (encI imm rs1 f3 rd op) = rs1 := by
  apply BitVec.eq_of_getLsbD_eq
  intro i hi
  simp only [fRs1, encI, BitVec.getLsbD_extractLsb', BitVec.getLsbD_append]
  interval_cases i <;> simp

@[simp] theorem fImmI_encI (imm : BitVec 12) (rs1 : Reg) (f3 : BitVec 3) (rd : Reg) (op : BitVec 7) :
    fImmI (encI imm rs1 f3 rd op) = imm := by
  apply BitVec.eq_of_getLsbD_eq
  intro i hi
  simp only [fImmI, encI, BitVec.getLsbD_extractLsb', BitVec.getLsbD_append]
  interval_cases i <;> simp

@[simp] theorem fCsr_encI (imm : BitVec 12) (rs1 : Reg) (f3 : BitVec 3) (rd : Reg) (op : BitVec 7) :
    fCsr (encI imm rs1 f3 rd op) = imm := by
  apply BitVec.eq_of_getLsbD_eq
  intro i hi
  simp only [fCsr, encI, BitVec.getLsbD_extractLsb', BitVec.getLsbD_append]
  interval_cases i <;> simp

@[simp] theorem fUimm_encI (imm : BitVec 12) (rs1 : Reg) (f3 : BitVec 3) (rd : Reg) (op : BitVec 7) :
    fUimm (encI imm rs1 f3 rd op) = rs1 := by
  apply BitVec.eq_of_getLsbD_eq
  intro i hi
  simp only [fUimm, encI, BitVec.getLsbD_extractLsb', BitVec.getLsbD_append]
  interval_cases i <;> simp

@[simp] theorem fRs1_encS (imm : BitVec 12) (rs2 rs1 : Reg) (f3 : BitVec 3) (op : BitVec 7) :
    fRs1 (encS imm rs2 rs1 f3 op) = rs1 := by
  apply BitVec.eq_of_getLsbD_eq
  intro i hi
  simp only [fRs1, encS, BitVec.getLsbD_extractLsb', BitVec.getLsbD_append]
  interval_cases i <;> simp

@[simp] theorem fRs2_encS (imm : BitVec 12) (rs2 rs1 : Reg) (f3 : BitVec 3) (op : BitVec 7) :
    fRs2 (encS imm rs2 rs1 f3 op) = rs2 := by
  apply BitVec.eq_of_getLsbD_eq
  intro i hi
  simp only [fRs2, encS, BitVec.getLsbD_extractLsb', BitVec.getLsbD_append]
  interval_cases i <;> simp

@[simp] theorem fImmS_encS (imm : BitVec 12) (rs2 rs1 : Reg) (f3 : BitVec 3) (op : BitVec 7) :
    fImmS (encS imm rs2 rs1 f3 op) = imm := by
  apply BitVec.eq_of_getLsbD_eq
  intro i hi
  simp only [fImmS, encS, BitVec.getLsbD_extractLsb', BitVec.getLsbD_append]
  interval_cases i <;> simp

@[simp] theorem fRs1_encB (off : BitVec 13) (rs2 rs1 : Reg) (f3 : BitVec 3) (op : BitVec 7) :
    fRs1 (encB off rs2 rs1 f3 op) = rs1 := by
  apply BitVec.eq_of_getLsbD_eq
  intro i hi
  simp only [fRs1, encB, BitVec.getLsbD_extractLsb', BitVec.getLsbD_append]
  interval_cases i <;> simp

@[simp] theorem fRs2_encB (off : BitVec 13) (rs2 rs1 : Reg) (f3 : BitVec 3) (op : BitVec 7) :
    fRs2 (encB off rs2 rs1 f3 op) = rs2 := by
  apply BitVec.eq_of_getLsbD_eq
  intro i hi
  simp only [fRs2, encB, BitVec.getLsbD_extractLsb', BitVec.getLsbD_append]
  interval_cases i <;> simp

theorem fImmB_encB (off : BitVec 13) (rs2 rs1 : Reg) (f3 : BitVec 3) (op : BitVec 7) (h : off.getLsbD 0 = false) :
    fImmB (encB off rs2 rs1 f3 op) = off := by
  apply BitVec.eq_of_getLsbD_eq
  intro i hi
  rw [BitVec.getLsbD_eq_getElem (by decide)] at h
  simp only [fImmB, encB, BitVec.getLsbD_extractLsb', BitVec.getLsbD_append]
  interval_cases i <;> simp [h]

@[simp] theorem fRd_encU (imm : BitVec 20) (rd : Reg) (op : BitVec 7) :
    fRd (encU imm rd op) = rd := by
  apply BitVec.eq_of_getLsbD_eq
  intro i hi
  simp only [fRd, encU, BitVec.getLsbD_extractLsb', BitVec.getLsbD_append]
  interval_cases i <;> simp

@[simp] theorem fImmU_encU (imm : BitVec 20) (rd : Reg) (op : BitVec 7) :
    fImmU (encU imm rd op) = imm := by
  apply BitVec.eq_of_getLsbD_eq
  intro i hi
  simp only [fImmU, encU, BitVec.getLsbD_extractLsb', BitVec.getLsbD_append]
  interval_cases i <;> simp

@[simp] theorem fRd_encJ (off : BitVec 21) (rd : Reg) (op : BitVec 7) :
    fRd (encJ off rd op) = rd := by
  apply BitVec.eq_of_getLsbD_eq
  intro i hi
  simp only [fRd, encJ, BitVec.getLsbD_extractLsb', BitVec.getLsbD_append]
  interval_cases i <;> simp

theorem fImmJ_encJ (off : BitVec 21) (rd : Reg) (op : BitVec 7) (h : off.getLsbD 0 = false) :
    fImmJ (encJ off rd op) = off := by
  apply BitVec.eq_of_getLsbD_eq
  intro i hi
  rw [BitVec.getLsbD_eq_getElem (by decide)] at h
  simp only [fImmJ, encJ, BitVec.getLsbD_extractLsb', BitVec.getLsbD_append]
  interval_cases i <;> simp [h]

@[simp] theorem fRd_encAmo (f5 : BitVec 5) (aq rl : BitVec 1) (rs2 rs1 rd : Reg) :
    fRd (encAmo f5 aq rl rs2 rs1 rd) = rd := by
  apply BitVec.eq_of_getLsbD_eq
  intro i hi
  simp only [fRd, encAmo, BitVec.getLsbD_extractLsb', BitVec.getLsbD_append]
  interval_cases i <;> simp

@[simp] theorem fRs1_encAmo (f5 : BitVec 5) (aq rl : BitVec 1) (rs2 rs1 rd : Reg) :
    fRs1 (encAmo f5 aq rl rs2 rs1 rd) = rs1 := by
  apply BitVec.eq_of_getLsbD_eq
  intro i hi
  simp only [fRs1, encAmo, BitVec.getLsbD_extractLsb', BitVec.getLsbD_append]
  interval_cases i <;> simp

@[simp] theorem fRs2_encAmo (f5 : BitVec 5) (aq rl : BitVec 1) (rs2 rs1 rd : Reg) :
    fRs2 (encAmo f5 aq rl rs2 rs1 rd) = rs2 := by
  apply BitVec.eq_of_getLsbD_eq
  intro i hi
  simp only [fRs2, encAmo, BitVec.getLsbD_extractLsb', BitVec.getLsbD_append]
  interval_cases i <;> simp

@[simp] theorem fAq_encAmo (f5 : BitVec 5) (aq rl : BitVec 1) (rs2 rs1 rd : Reg) :
    fAq (encAmo f5 aq rl rs2 rs1 rd) = aq := by
  apply BitVec.eq_of_getLsbD_eq
  intro i hi
  simp only [fAq, encAmo, BitVec.getLsbD_extractLsb', BitVec.getLsbD_append]
  interval_cases i; simp

@[simp] theorem fRl_encAmo (f5 : BitVec 5) (aq rl : BitVec 1) (rs2 rs1 rd : Reg) :
    fRl (encAmo f5 aq rl rs2 rs1 rd) = rl := by
  apply BitVec.eq_of_getLsbD_eq
  intro i hi
  simp only [fRl, encAmo, BitVec.getLsbD_extractLsb', BitVec.getLsbD_append]
  interval_cases i; simp

@[simp] theorem fFm_encI (fm pred succ : BitVec 4) (rs1 : Reg) (f3 : BitVec 3) (rd : Reg) (op : BitVec 7) :
    fFm (encI (fm ++ pred ++ succ) rs1 f3 rd op) = fm := by
  apply BitVec.eq_of_getLsbD_eq
  intro i hi
  simp only [fFm, encI, BitVec.getLsbD_extractLsb', BitVec.getLsbD_append]
  interval_cases i <;> simp

@[simp] theorem fPred_encI (fm pred succ : BitVec 4) (rs1 : Reg) (f3 : BitVec 3) (rd : Reg) (op : BitVec 7) :
    fPred (encI (fm ++ pred ++ succ) rs1 f3 rd op) = pred := by
  apply BitVec.eq_of_getLsbD_eq
  intro i hi
  simp only [fPred, encI, BitVec.getLsbD_extractLsb', BitVec.getLsbD_append]
  interval_cases i <;> simp

@[simp] theorem fSucc_encI (fm pred succ : BitVec 4) (rs1 : Reg) (f3 : BitVec 3) (rd : Reg) (op : BitVec 7) :
    fSucc (encI (fm ++ pred ++ succ) rs1 f3 rd op) = succ := by
  apply BitVec.eq_of_getLsbD_eq
  intro i hi
  simp only [fSucc, encI, BitVec.getLsbD_extractLsb', BitVec.getLsbD_append]
  interval_cases i <;> simp

end Sys2Proof
end

