-- ==== Sys2Proof/Laws/Exec.lean ====
section
/-! SUPPORT. What an instruction can do, said once: a property kept by the machine's elementary updates is kept by every
instruction. -/

namespace Sys2Proof.Machine

/-- The property is kept by every elementary update an instruction is made of; MRET, SRET and WFI apart, each an update of its own. -/
structure Kept (P : State → Prop) : Prop where
  reg     : ∀ s rd v, P s → P (s.setX rd v)
  jump    : ∀ s target, target &&& 3#32 = 0#32 → P s → P (s.setPcNext target)
  read    : ∀ s phys n, P s → P (pmReadState phys n true s)
  write   : ∀ s phys n v, P s → P (pmWrite phys n v true s).2
  timer   : ∀ s tm v n val, timerHit v n s = some tm → P s → P (timerWrite tm v n val s)
  reserve : ∀ s phys, P s → P (s.setReservation (granuleOf phys) true)
  drop    : ∀ s, P s → P s.dropReservation
  csr     : ∀ s n r v, csrCheck n true s = some r → P s → P (s.setCsr (writeCsr r v s.csr))
  trap    : ∀ s e t, takeException e s = .next t → P s → P t

variable {P : State → Prop} {s t : State}

theorem Kept.writeBack (hP : Kept P) (wb : Option (PAddr × Word)) (hs : P s) : P (writeBackState wb s) := by
  cases wb with
  | none => exact hs
  | some p => exact hP.write _ _ _ _ hs

theorem Kept.writeReg (hP : Kept P) {rd : Reg} {v : Word} (hs : P s) (h : writeReg rd v s = .next t) : P t := by
  obtain rfl : s.setX rd v = t := by simpa [Machine.writeReg] using h
  exact hP.reg _ _ _ hs

theorem aligned_of_bits {w : Word} (h0 : w.getLsbD 0 = false) (h1 : w.getLsbD 1 = false) : w &&& 3#32 = 0#32 := by
  apply word_ext
  intro i hi
  rw [BitVec.getLsbD_and]
  by_cases h : i < 2
  · have : i = 0 ∨ i = 1 := by omega
    rcases this with rfl | rfl
    · rw [h0]; rfl
    · rw [h1]; rfl
  · have : (3#32 : Word).getLsbD i = false := by
      rw [show (3#32 : Word) = BitVec.ofNat 32 (2 ^ 2 - 1) from rfl, BitVec.getLsbD_ofNat, Nat.testBit_two_pow_sub_one]
      simp [h]
    simp [this]

theorem Kept.jumpTo (hP : Kept P) {target : Word} {link : State → State} (h0 : target.getLsbD 0 = false)
    (hl : ∀ x, P x → P (link x)) (hs : P s) (h : jumpTo target link s = .next t) : P t := by
  unfold Machine.jumpTo at h
  split at h
  · exact hP.trap _ _ _ h hs
  · rename_i h1
    obtain rfl : (link s).setPcNext target = t := by simpa using h
    exact hP.jump _ _ (aligned_of_bits h0 (by simpa using h1)) (hl _ hs)

theorem getLsbD_zero_add (a b : Word) (ha : a.getLsbD 0 = false) (hb : b.getLsbD 0 = false) : (a + b).getLsbD 0 = false := by
  have e : ∀ x : Word, x.getLsbD 0 = decide (x.toNat % 2 = 1) := fun x => by
    simp [BitVec.getLsbD, Nat.testBit_zero]
  rw [e] at ha hb ⊢
  simp only [decide_eq_false_iff_not, BitVec.toNat_add] at *
  omega

theorem branchTarget_even {off : BitVec 13} (hw : branchOffsetWf off) (hpc : s.pc.getLsbD 0 = false) :
    (branchTarget off s).getLsbD 0 = false :=
  getLsbD_zero_add _ _ hpc (by rw [sext, BitVec.getLsbD_signExtend, if_pos (by omega), hw]; rfl)

theorem jalTarget_even {off : BitVec 21} (hw : jumpOffsetWf off) (hpc : s.pc.getLsbD 0 = false) :
    (jalTarget off s).getLsbD 0 = false :=
  getLsbD_zero_add _ _ hpc (by rw [sext, BitVec.getLsbD_signExtend, if_pos (by omega), hw]; rfl)

theorem jalrTarget_even (rs1 : Reg) (imm : BitVec 12) : (jalrTarget rs1 imm s).getLsbD 0 = false := by
  simp [jalrTarget]

theorem Kept.branchIf (hP : Kept P) {taken : Bool} {off : BitVec 13} (hw : branchOffsetWf off)
    (hpc : s.pc.getLsbD 0 = false) (hs : P s) (h : branchIf taken off s = .next t) : P t := by
  unfold Machine.branchIf at h
  split at h
  · exact hP.jumpTo (branchTarget_even hw hpc) (fun _ hx => hx) hs h
  · obtain rfl : s = t := by simpa using h
    exact hs

theorem Kept.loadOp (hP : Kept P) {rd rs1 : Reg} {imm : BitVec 12} {n : Width} {ext : Word → Word} (hs : P s)
    (h : loadOp rd rs1 imm n ext s = .next t) : P t := by
  unfold Machine.loadOp at h
  rcases memRead_cases (effAddr rs1 imm s) n s with ⟨tm, -, e⟩ | ⟨-, ⟨-, e⟩ | ⟨tr, -, -, e⟩ | ⟨tr, -, -, e⟩⟩ <;>
    rw [e] at h <;> simp only at h
  · cases h; exact hP.reg _ _ _ hs
  · exact hP.trap _ _ _ h hs
  · exact hP.trap _ _ _ h (hP.writeBack _ hs)
  · cases h; exact hP.reg _ _ _ (hP.read _ _ _ (hP.writeBack _ hs))

theorem Kept.storeOp (hP : Kept P) {rs1 rs2 : Reg} {imm : BitVec 12} {n : Width} (hs : P s)
    (h : storeOp rs1 rs2 imm n s = .next t) : P t := by
  unfold Machine.storeOp at h
  rcases memWrite_cases (effAddr rs1 imm s) n (s.x rs2) s with ⟨tm, ht, e⟩ | ⟨-, ⟨-, e⟩ | ⟨tr, -, -, e⟩ | ⟨tr, -, -, e⟩⟩ <;>
    rw [e] at h <;> simp only at h
  · cases h; exact hP.timer _ _ _ _ _ ht hs
  · exact hP.trap _ _ _ h hs
  · exact hP.trap _ _ _ h (hP.writeBack _ hs)
  · cases h; exact hP.write _ _ _ _ (hP.writeBack _ hs)

theorem Kept.amoOp (hP : Kept P) {rd rs1 rs2 : Reg} {f : Word → Word → Word} (hs : P s)
    (h : amoOp rd rs1 rs2 f s = .next t) : P t := by
  unfold Machine.amoOp at h
  rcases translateAligned_cases (s.x rs1) .word .write true s with ⟨-, e⟩ | ⟨tr, -, -, e⟩ | ⟨tr, -, -, e⟩ <;>
    rw [e] at h <;> simp only at h
  · exact hP.trap _ _ _ h hs
  · exact hP.trap _ _ _ h (hP.writeBack _ hs)
  · cases h; exact hP.reg _ _ _ (hP.write _ _ _ _ (hP.read _ _ _ (hP.writeBack _ hs)))

theorem Kept.csrOp (hP : Kept P) {word : Word} {rd : Reg} {n : CsrNum} {writes : Bool} {new : Word → Word} (hs : P s)
    (h : csrOp word rd n writes new s = .next t) : P t := by
  unfold Machine.csrOp at h
  cases hc : csrCheck n writes s with
  | none => rw [hc] at h; exact hP.trap _ _ _ h hs
  | some r =>
    rw [hc] at h
    cases writes
    · cases h; exact hP.reg _ _ _ hs
    · cases h; exact hP.reg _ _ _ (hP.csr _ _ _ _ hc hs)

theorem Kept.lr (hP : Kept P) {rd rs1 : Reg} {aq rl : BitVec 1} (hs : P s) (h : execLrW rd rs1 aq rl s = .next t) : P t := by
  unfold execLrW at h
  rcases translateAligned_cases (s.x rs1) .word .read true s with ⟨-, e⟩ | ⟨tr, -, -, e⟩ | ⟨tr, -, -, e⟩ <;>
    rw [e] at h <;> simp only at h
  · exact hP.trap _ _ _ h hs
  · exact hP.trap _ _ _ h (hP.writeBack _ hs)
  · cases h; exact hP.reserve _ _ (hP.reg _ _ _ (hP.read _ _ _ (hP.writeBack _ hs)))

theorem Kept.sc (hP : Kept P) {rd rs1 rs2 : Reg} {aq rl : BitVec 1} (hs : P s)
    (h : execScW rd rs1 rs2 aq rl s = .next t) : P t := by
  unfold execScW at h
  rcases translateAligned_cases (s.x rs1) .word .write true s with ⟨-, e⟩ | ⟨tr, -, -, e⟩ | ⟨tr, -, -, e⟩ <;>
    rw [e] at h <;> simp only [if_true] at h
  · exact hP.trap _ _ _ h hs
  · exact hP.trap _ _ _ h (hP.writeBack _ hs)
  · split at h
    · cases h; exact hP.drop _ (hP.reg _ _ _ (hP.write _ _ _ _ (hP.writeBack _ hs)))
    · cases h; exact hP.drop _ (hP.reg _ _ _ (hP.writeBack _ hs))

/-- Every instruction keeps a property that its elementary updates keep. -/
theorem Kept.exec (hP : Kept P) {i : Instr} (hw : i.wf = true) (hpc : s.pc.getLsbD 0 = false) (hs : P s)
    (hmret : i = .mret → s.priv = .m → P (returnM s)) (hsret : i = .sret → s.priv ≠ .u → P (returnS s))
    (hwfi : i = .wfi → P (s.setStdby true)) (h : Machine.exec i s = .next t) : P t := by
  cases i <;> simp only [Machine.exec] at h
  case lui => exact hP.writeReg hs h
  case auipc => exact hP.writeReg hs h
  case addi => exact hP.writeReg hs h
  case slti => exact hP.writeReg hs h
  case sltiu => exact hP.writeReg hs h
  case xori => exact hP.writeReg hs h
  case ori => exact hP.writeReg hs h
  case andi => exact hP.writeReg hs h
  case slli => exact hP.writeReg hs h
  case srli => exact hP.writeReg hs h
  case srai => exact hP.writeReg hs h
  case add => exact hP.writeReg hs h
  case sub => exact hP.writeReg hs h
  case sll => exact hP.writeReg hs h
  case slt => exact hP.writeReg hs h
  case sltu => exact hP.writeReg hs h
  case xor => exact hP.writeReg hs h
  case srl => exact hP.writeReg hs h
  case sra => exact hP.writeReg hs h
  case or => exact hP.writeReg hs h
  case and => exact hP.writeReg hs h
  case mul => exact hP.writeReg hs h
  case mulh => exact hP.writeReg hs h
  case mulhsu => exact hP.writeReg hs h
  case mulhu => exact hP.writeReg hs h
  case div => exact hP.writeReg hs h
  case divu => exact hP.writeReg hs h
  case rem => exact hP.writeReg hs h
  case remu => exact hP.writeReg hs h
  case jal =>
    exact hP.jumpTo (jalTarget_even (of_decide_eq_true hw) hpc) (fun _ hx => hP.reg _ _ _ hx) hs h
  case jalr => exact hP.jumpTo (jalrTarget_even ..) (fun _ hx => hP.reg _ _ _ hx) hs h
  case beq => exact hP.branchIf (of_decide_eq_true hw) hpc hs h
  case bne => exact hP.branchIf (of_decide_eq_true hw) hpc hs h
  case blt => exact hP.branchIf (of_decide_eq_true hw) hpc hs h
  case bge => exact hP.branchIf (of_decide_eq_true hw) hpc hs h
  case bltu => exact hP.branchIf (of_decide_eq_true hw) hpc hs h
  case bgeu => exact hP.branchIf (of_decide_eq_true hw) hpc hs h
  case lb => exact hP.loadOp hs h
  case lh => exact hP.loadOp hs h
  case lw => exact hP.loadOp hs h
  case lbu => exact hP.loadOp hs h
  case lhu => exact hP.loadOp hs h
  case sb => exact hP.storeOp hs h
  case sh => exact hP.storeOp hs h
  case sw => exact hP.storeOp hs h
  case lrW => exact hP.lr hs h
  case scW => exact hP.sc hs h
  case amoswapW => exact hP.amoOp hs h
  case amoaddW => exact hP.amoOp hs h
  case amoxorW => exact hP.amoOp hs h
  case amoandW => exact hP.amoOp hs h
  case amoorW => exact hP.amoOp hs h
  case amominW => exact hP.amoOp hs h
  case amomaxW => exact hP.amoOp hs h
  case amominuW => exact hP.amoOp hs h
  case amomaxuW => exact hP.amoOp hs h
  case csrrw => exact hP.csrOp hs h
  case csrrs => exact hP.csrOp hs h
  case csrrc => exact hP.csrOp hs h
  case csrrwi => exact hP.csrOp hs h
  case csrrsi => exact hP.csrOp hs h
  case csrrci => exact hP.csrOp hs h
  case fence => cases h; exact hs
  case fenceI => cases h; exact hs
  case ecall => exact hP.trap _ _ _ h hs
  case ebreak => exact hP.trap _ _ _ h hs
  case mret =>
    unfold execMret at h
    split at h
    · rename_i hm; cases h; exact hmret rfl hm
    · exact hP.trap _ _ _ h hs
  case sret =>
    unfold execSret at h
    split at h
    · exact hP.trap _ _ _ h hs
    · rename_i hm; cases h; exact hsret rfl hm
  case wfi => cases h; exact hwfi rfl
  case sfenceVma =>
    unfold execSfenceVma at h
    split at h
    · exact hP.trap _ _ _ h hs
    · cases h; exact hs

end Sys2Proof.Machine
end

