-- ==== Sys2Proof/Laws/PerInstr.lean ====
section
/-! SUPPORT. Per instruction: a well-formed instruction is what its word decodes to. -/

namespace Sys2Proof.Laws

/-- Decoding the word of a well-formed instruction gives it back. -/
def RoundTrip.Statement (i : Instr) : Prop := i.wf = true → decodeWord (encode i) = some i

theorem RoundTrip.lui (rd : Reg) (imm : BitVec 20) : RoundTrip.Statement (.lui rd imm) := by
  intro _
  have hw : opcodeTable[0].hits (encode (.lui rd imm)) = true := beq_iff_eq.mpr (encU_mask ..)
  rw [decodeWord_at 0 (by decide) hw]
  simp [encode, opcodeTable, upperRows, immRows, regRows, controlRows, loadRows, storeRows, mulDivRows, atomicRows, csrRows,
    systemRows]

theorem RoundTrip.auipc (rd : Reg) (imm : BitVec 20) : RoundTrip.Statement (.auipc rd imm) := by
  intro _
  have hw : opcodeTable[1].hits (encode (.auipc rd imm)) = true := beq_iff_eq.mpr (encU_mask ..)
  rw [decodeWord_at 1 (by decide) hw]
  simp [encode, opcodeTable, upperRows, immRows, regRows, controlRows, loadRows, storeRows, mulDivRows, atomicRows, csrRows,
    systemRows]

theorem RoundTrip.addi (rd rs1 : Reg) (imm : BitVec 12) : RoundTrip.Statement (.addi rd rs1 imm) := by
  intro _
  have hw : opcodeTable[2].hits (encode (.addi rd rs1 imm)) = true := beq_iff_eq.mpr (encI_mask ..)
  rw [decodeWord_at 2 (by decide) hw]
  simp [encode, opcodeTable, upperRows, immRows, regRows, controlRows, loadRows, storeRows, mulDivRows, atomicRows, csrRows,
    systemRows]

theorem RoundTrip.slti (rd rs1 : Reg) (imm : BitVec 12) : RoundTrip.Statement (.slti rd rs1 imm) := by
  intro _
  have hw : opcodeTable[3].hits (encode (.slti rd rs1 imm)) = true := beq_iff_eq.mpr (encI_mask ..)
  rw [decodeWord_at 3 (by decide) hw]
  simp [encode, opcodeTable, upperRows, immRows, regRows, controlRows, loadRows, storeRows, mulDivRows, atomicRows, csrRows,
    systemRows]

theorem RoundTrip.sltiu (rd rs1 : Reg) (imm : BitVec 12) : RoundTrip.Statement (.sltiu rd rs1 imm) := by
  intro _
  have hw : opcodeTable[4].hits (encode (.sltiu rd rs1 imm)) = true := beq_iff_eq.mpr (encI_mask ..)
  rw [decodeWord_at 4 (by decide) hw]
  simp [encode, opcodeTable, upperRows, immRows, regRows, controlRows, loadRows, storeRows, mulDivRows, atomicRows, csrRows,
    systemRows]

theorem RoundTrip.xori (rd rs1 : Reg) (imm : BitVec 12) : RoundTrip.Statement (.xori rd rs1 imm) := by
  intro _
  have hw : opcodeTable[5].hits (encode (.xori rd rs1 imm)) = true := beq_iff_eq.mpr (encI_mask ..)
  rw [decodeWord_at 5 (by decide) hw]
  simp [encode, opcodeTable, upperRows, immRows, regRows, controlRows, loadRows, storeRows, mulDivRows, atomicRows, csrRows,
    systemRows]

theorem RoundTrip.ori (rd rs1 : Reg) (imm : BitVec 12) : RoundTrip.Statement (.ori rd rs1 imm) := by
  intro _
  have hw : opcodeTable[6].hits (encode (.ori rd rs1 imm)) = true := beq_iff_eq.mpr (encI_mask ..)
  rw [decodeWord_at 6 (by decide) hw]
  simp [encode, opcodeTable, upperRows, immRows, regRows, controlRows, loadRows, storeRows, mulDivRows, atomicRows, csrRows,
    systemRows]

theorem RoundTrip.andi (rd rs1 : Reg) (imm : BitVec 12) : RoundTrip.Statement (.andi rd rs1 imm) := by
  intro _
  have hw : opcodeTable[7].hits (encode (.andi rd rs1 imm)) = true := beq_iff_eq.mpr (encI_mask ..)
  rw [decodeWord_at 7 (by decide) hw]
  simp [encode, opcodeTable, upperRows, immRows, regRows, controlRows, loadRows, storeRows, mulDivRows, atomicRows, csrRows,
    systemRows]

theorem RoundTrip.slli (rd rs1 : Reg) (shamt : BitVec 5) : RoundTrip.Statement (.slli rd rs1 shamt) := by
  intro _
  have hw : opcodeTable[8].hits (encode (.slli rd rs1 shamt)) = true := beq_iff_eq.mpr (encR_mask ..)
  rw [decodeWord_at 8 (by decide) hw]
  simp [encode, opcodeTable, upperRows, immRows, regRows, controlRows, loadRows, storeRows, mulDivRows, atomicRows, csrRows,
    systemRows]

theorem RoundTrip.srli (rd rs1 : Reg) (shamt : BitVec 5) : RoundTrip.Statement (.srli rd rs1 shamt) := by
  intro _
  have hw : opcodeTable[9].hits (encode (.srli rd rs1 shamt)) = true := beq_iff_eq.mpr (encR_mask ..)
  rw [decodeWord_at 9 (by decide) hw]
  simp [encode, opcodeTable, upperRows, immRows, regRows, controlRows, loadRows, storeRows, mulDivRows, atomicRows, csrRows,
    systemRows]

theorem RoundTrip.srai (rd rs1 : Reg) (shamt : BitVec 5) : RoundTrip.Statement (.srai rd rs1 shamt) := by
  intro _
  have hw : opcodeTable[10].hits (encode (.srai rd rs1 shamt)) = true := beq_iff_eq.mpr (encR_mask ..)
  rw [decodeWord_at 10 (by decide) hw]
  simp [encode, opcodeTable, upperRows, immRows, regRows, controlRows, loadRows, storeRows, mulDivRows, atomicRows, csrRows,
    systemRows]

theorem RoundTrip.add (rd rs1 rs2 : Reg) : RoundTrip.Statement (.add rd rs1 rs2) := by
  intro _
  have hw : opcodeTable[11].hits (encode (.add rd rs1 rs2)) = true := beq_iff_eq.mpr (encR_mask ..)
  rw [decodeWord_at 11 (by decide) hw]
  simp [encode, opcodeTable, upperRows, immRows, regRows, controlRows, loadRows, storeRows, mulDivRows, atomicRows, csrRows,
    systemRows]

theorem RoundTrip.sub (rd rs1 rs2 : Reg) : RoundTrip.Statement (.sub rd rs1 rs2) := by
  intro _
  have hw : opcodeTable[12].hits (encode (.sub rd rs1 rs2)) = true := beq_iff_eq.mpr (encR_mask ..)
  rw [decodeWord_at 12 (by decide) hw]
  simp [encode, opcodeTable, upperRows, immRows, regRows, controlRows, loadRows, storeRows, mulDivRows, atomicRows, csrRows,
    systemRows]

theorem RoundTrip.sll (rd rs1 rs2 : Reg) : RoundTrip.Statement (.sll rd rs1 rs2) := by
  intro _
  have hw : opcodeTable[13].hits (encode (.sll rd rs1 rs2)) = true := beq_iff_eq.mpr (encR_mask ..)
  rw [decodeWord_at 13 (by decide) hw]
  simp [encode, opcodeTable, upperRows, immRows, regRows, controlRows, loadRows, storeRows, mulDivRows, atomicRows, csrRows,
    systemRows]

theorem RoundTrip.slt (rd rs1 rs2 : Reg) : RoundTrip.Statement (.slt rd rs1 rs2) := by
  intro _
  have hw : opcodeTable[14].hits (encode (.slt rd rs1 rs2)) = true := beq_iff_eq.mpr (encR_mask ..)
  rw [decodeWord_at 14 (by decide) hw]
  simp [encode, opcodeTable, upperRows, immRows, regRows, controlRows, loadRows, storeRows, mulDivRows, atomicRows, csrRows,
    systemRows]

theorem RoundTrip.sltu (rd rs1 rs2 : Reg) : RoundTrip.Statement (.sltu rd rs1 rs2) := by
  intro _
  have hw : opcodeTable[15].hits (encode (.sltu rd rs1 rs2)) = true := beq_iff_eq.mpr (encR_mask ..)
  rw [decodeWord_at 15 (by decide) hw]
  simp [encode, opcodeTable, upperRows, immRows, regRows, controlRows, loadRows, storeRows, mulDivRows, atomicRows, csrRows,
    systemRows]

theorem RoundTrip.xor (rd rs1 rs2 : Reg) : RoundTrip.Statement (.xor rd rs1 rs2) := by
  intro _
  have hw : opcodeTable[16].hits (encode (.xor rd rs1 rs2)) = true := beq_iff_eq.mpr (encR_mask ..)
  rw [decodeWord_at 16 (by decide) hw]
  simp [encode, opcodeTable, upperRows, immRows, regRows, controlRows, loadRows, storeRows, mulDivRows, atomicRows, csrRows,
    systemRows]

theorem RoundTrip.srl (rd rs1 rs2 : Reg) : RoundTrip.Statement (.srl rd rs1 rs2) := by
  intro _
  have hw : opcodeTable[17].hits (encode (.srl rd rs1 rs2)) = true := beq_iff_eq.mpr (encR_mask ..)
  rw [decodeWord_at 17 (by decide) hw]
  simp [encode, opcodeTable, upperRows, immRows, regRows, controlRows, loadRows, storeRows, mulDivRows, atomicRows, csrRows,
    systemRows]

theorem RoundTrip.sra (rd rs1 rs2 : Reg) : RoundTrip.Statement (.sra rd rs1 rs2) := by
  intro _
  have hw : opcodeTable[18].hits (encode (.sra rd rs1 rs2)) = true := beq_iff_eq.mpr (encR_mask ..)
  rw [decodeWord_at 18 (by decide) hw]
  simp [encode, opcodeTable, upperRows, immRows, regRows, controlRows, loadRows, storeRows, mulDivRows, atomicRows, csrRows,
    systemRows]

theorem RoundTrip.or (rd rs1 rs2 : Reg) : RoundTrip.Statement (.or rd rs1 rs2) := by
  intro _
  have hw : opcodeTable[19].hits (encode (.or rd rs1 rs2)) = true := beq_iff_eq.mpr (encR_mask ..)
  rw [decodeWord_at 19 (by decide) hw]
  simp [encode, opcodeTable, upperRows, immRows, regRows, controlRows, loadRows, storeRows, mulDivRows, atomicRows, csrRows,
    systemRows]

theorem RoundTrip.and (rd rs1 rs2 : Reg) : RoundTrip.Statement (.and rd rs1 rs2) := by
  intro _
  have hw : opcodeTable[20].hits (encode (.and rd rs1 rs2)) = true := beq_iff_eq.mpr (encR_mask ..)
  rw [decodeWord_at 20 (by decide) hw]
  simp [encode, opcodeTable, upperRows, immRows, regRows, controlRows, loadRows, storeRows, mulDivRows, atomicRows, csrRows,
    systemRows]

theorem RoundTrip.jal (rd : Reg) (off : BitVec 21) : RoundTrip.Statement (.jal rd off) := by
  intro h
  have h0 : off.getLsbD 0 = false := of_decide_eq_true h
  have hw : opcodeTable[21].hits (encode (.jal rd off)) = true := beq_iff_eq.mpr (encJ_mask ..)
  rw [decodeWord_at 21 (by decide) hw]
  simp [encode, opcodeTable, upperRows, immRows, regRows, controlRows, loadRows, storeRows, mulDivRows, atomicRows, csrRows,
    systemRows, fImmJ_encJ _ _ _ h0]

theorem RoundTrip.jalr (rd rs1 : Reg) (imm : BitVec 12) : RoundTrip.Statement (.jalr rd rs1 imm) := by
  intro _
  have hw : opcodeTable[22].hits (encode (.jalr rd rs1 imm)) = true := beq_iff_eq.mpr (encI_mask ..)
  rw [decodeWord_at 22 (by decide) hw]
  simp [encode, opcodeTable, upperRows, immRows, regRows, controlRows, loadRows, storeRows, mulDivRows, atomicRows, csrRows,
    systemRows]

theorem RoundTrip.beq (rs1 rs2 : Reg) (off : BitVec 13) : RoundTrip.Statement (.beq rs1 rs2 off) := by
  intro h
  have h0 : off.getLsbD 0 = false := of_decide_eq_true h
  have hw : opcodeTable[23].hits (encode (.beq rs1 rs2 off)) = true := beq_iff_eq.mpr (encB_mask ..)
  rw [decodeWord_at 23 (by decide) hw]
  simp [encode, opcodeTable, upperRows, immRows, regRows, controlRows, loadRows, storeRows, mulDivRows, atomicRows, csrRows,
    systemRows, fImmB_encB _ _ _ _ _ h0]

theorem RoundTrip.bne (rs1 rs2 : Reg) (off : BitVec 13) : RoundTrip.Statement (.bne rs1 rs2 off) := by
  intro h
  have h0 : off.getLsbD 0 = false := of_decide_eq_true h
  have hw : opcodeTable[24].hits (encode (.bne rs1 rs2 off)) = true := beq_iff_eq.mpr (encB_mask ..)
  rw [decodeWord_at 24 (by decide) hw]
  simp [encode, opcodeTable, upperRows, immRows, regRows, controlRows, loadRows, storeRows, mulDivRows, atomicRows, csrRows,
    systemRows, fImmB_encB _ _ _ _ _ h0]

theorem RoundTrip.blt (rs1 rs2 : Reg) (off : BitVec 13) : RoundTrip.Statement (.blt rs1 rs2 off) := by
  intro h
  have h0 : off.getLsbD 0 = false := of_decide_eq_true h
  have hw : opcodeTable[25].hits (encode (.blt rs1 rs2 off)) = true := beq_iff_eq.mpr (encB_mask ..)
  rw [decodeWord_at 25 (by decide) hw]
  simp [encode, opcodeTable, upperRows, immRows, regRows, controlRows, loadRows, storeRows, mulDivRows, atomicRows, csrRows,
    systemRows, fImmB_encB _ _ _ _ _ h0]

theorem RoundTrip.bge (rs1 rs2 : Reg) (off : BitVec 13) : RoundTrip.Statement (.bge rs1 rs2 off) := by
  intro h
  have h0 : off.getLsbD 0 = false := of_decide_eq_true h
  have hw : opcodeTable[26].hits (encode (.bge rs1 rs2 off)) = true := beq_iff_eq.mpr (encB_mask ..)
  rw [decodeWord_at 26 (by decide) hw]
  simp [encode, opcodeTable, upperRows, immRows, regRows, controlRows, loadRows, storeRows, mulDivRows, atomicRows, csrRows,
    systemRows, fImmB_encB _ _ _ _ _ h0]

theorem RoundTrip.bltu (rs1 rs2 : Reg) (off : BitVec 13) : RoundTrip.Statement (.bltu rs1 rs2 off) := by
  intro h
  have h0 : off.getLsbD 0 = false := of_decide_eq_true h
  have hw : opcodeTable[27].hits (encode (.bltu rs1 rs2 off)) = true := beq_iff_eq.mpr (encB_mask ..)
  rw [decodeWord_at 27 (by decide) hw]
  simp [encode, opcodeTable, upperRows, immRows, regRows, controlRows, loadRows, storeRows, mulDivRows, atomicRows, csrRows,
    systemRows, fImmB_encB _ _ _ _ _ h0]

theorem RoundTrip.bgeu (rs1 rs2 : Reg) (off : BitVec 13) : RoundTrip.Statement (.bgeu rs1 rs2 off) := by
  intro h
  have h0 : off.getLsbD 0 = false := of_decide_eq_true h
  have hw : opcodeTable[28].hits (encode (.bgeu rs1 rs2 off)) = true := beq_iff_eq.mpr (encB_mask ..)
  rw [decodeWord_at 28 (by decide) hw]
  simp [encode, opcodeTable, upperRows, immRows, regRows, controlRows, loadRows, storeRows, mulDivRows, atomicRows, csrRows,
    systemRows, fImmB_encB _ _ _ _ _ h0]

theorem RoundTrip.lb (rd rs1 : Reg) (imm : BitVec 12) : RoundTrip.Statement (.lb rd rs1 imm) := by
  intro _
  have hw : opcodeTable[29].hits (encode (.lb rd rs1 imm)) = true := beq_iff_eq.mpr (encI_mask ..)
  rw [decodeWord_at 29 (by decide) hw]
  simp [encode, opcodeTable, upperRows, immRows, regRows, controlRows, loadRows, storeRows, mulDivRows, atomicRows, csrRows,
    systemRows]

theorem RoundTrip.lh (rd rs1 : Reg) (imm : BitVec 12) : RoundTrip.Statement (.lh rd rs1 imm) := by
  intro _
  have hw : opcodeTable[30].hits (encode (.lh rd rs1 imm)) = true := beq_iff_eq.mpr (encI_mask ..)
  rw [decodeWord_at 30 (by decide) hw]
  simp [encode, opcodeTable, upperRows, immRows, regRows, controlRows, loadRows, storeRows, mulDivRows, atomicRows, csrRows,
    systemRows]

theorem RoundTrip.lw (rd rs1 : Reg) (imm : BitVec 12) : RoundTrip.Statement (.lw rd rs1 imm) := by
  intro _
  have hw : opcodeTable[31].hits (encode (.lw rd rs1 imm)) = true := beq_iff_eq.mpr (encI_mask ..)
  rw [decodeWord_at 31 (by decide) hw]
  simp [encode, opcodeTable, upperRows, immRows, regRows, controlRows, loadRows, storeRows, mulDivRows, atomicRows, csrRows,
    systemRows]

theorem RoundTrip.lbu (rd rs1 : Reg) (imm : BitVec 12) : RoundTrip.Statement (.lbu rd rs1 imm) := by
  intro _
  have hw : opcodeTable[32].hits (encode (.lbu rd rs1 imm)) = true := beq_iff_eq.mpr (encI_mask ..)
  rw [decodeWord_at 32 (by decide) hw]
  simp [encode, opcodeTable, upperRows, immRows, regRows, controlRows, loadRows, storeRows, mulDivRows, atomicRows, csrRows,
    systemRows]

theorem RoundTrip.lhu (rd rs1 : Reg) (imm : BitVec 12) : RoundTrip.Statement (.lhu rd rs1 imm) := by
  intro _
  have hw : opcodeTable[33].hits (encode (.lhu rd rs1 imm)) = true := beq_iff_eq.mpr (encI_mask ..)
  rw [decodeWord_at 33 (by decide) hw]
  simp [encode, opcodeTable, upperRows, immRows, regRows, controlRows, loadRows, storeRows, mulDivRows, atomicRows, csrRows,
    systemRows]

theorem RoundTrip.sb (rs1 rs2 : Reg) (imm : BitVec 12) : RoundTrip.Statement (.sb rs1 rs2 imm) := by
  intro _
  have hw : opcodeTable[34].hits (encode (.sb rs1 rs2 imm)) = true := beq_iff_eq.mpr (encS_mask ..)
  rw [decodeWord_at 34 (by decide) hw]
  simp [encode, opcodeTable, upperRows, immRows, regRows, controlRows, loadRows, storeRows, mulDivRows, atomicRows, csrRows,
    systemRows]

theorem RoundTrip.sh (rs1 rs2 : Reg) (imm : BitVec 12) : RoundTrip.Statement (.sh rs1 rs2 imm) := by
  intro _
  have hw : opcodeTable[35].hits (encode (.sh rs1 rs2 imm)) = true := beq_iff_eq.mpr (encS_mask ..)
  rw [decodeWord_at 35 (by decide) hw]
  simp [encode, opcodeTable, upperRows, immRows, regRows, controlRows, loadRows, storeRows, mulDivRows, atomicRows, csrRows,
    systemRows]

theorem RoundTrip.sw (rs1 rs2 : Reg) (imm : BitVec 12) : RoundTrip.Statement (.sw rs1 rs2 imm) := by
  intro _
  have hw : opcodeTable[36].hits (encode (.sw rs1 rs2 imm)) = true := beq_iff_eq.mpr (encS_mask ..)
  rw [decodeWord_at 36 (by decide) hw]
  simp [encode, opcodeTable, upperRows, immRows, regRows, controlRows, loadRows, storeRows, mulDivRows, atomicRows, csrRows,
    systemRows]

theorem RoundTrip.mul (rd rs1 rs2 : Reg) : RoundTrip.Statement (.mul rd rs1 rs2) := by
  intro _
  have hw : opcodeTable[37].hits (encode (.mul rd rs1 rs2)) = true := beq_iff_eq.mpr (encR_mask ..)
  rw [decodeWord_at 37 (by decide) hw]
  simp [encode, opcodeTable, upperRows, immRows, regRows, controlRows, loadRows, storeRows, mulDivRows, atomicRows, csrRows,
    systemRows]

theorem RoundTrip.mulh (rd rs1 rs2 : Reg) : RoundTrip.Statement (.mulh rd rs1 rs2) := by
  intro _
  have hw : opcodeTable[38].hits (encode (.mulh rd rs1 rs2)) = true := beq_iff_eq.mpr (encR_mask ..)
  rw [decodeWord_at 38 (by decide) hw]
  simp [encode, opcodeTable, upperRows, immRows, regRows, controlRows, loadRows, storeRows, mulDivRows, atomicRows, csrRows,
    systemRows]

theorem RoundTrip.mulhsu (rd rs1 rs2 : Reg) : RoundTrip.Statement (.mulhsu rd rs1 rs2) := by
  intro _
  have hw : opcodeTable[39].hits (encode (.mulhsu rd rs1 rs2)) = true := beq_iff_eq.mpr (encR_mask ..)
  rw [decodeWord_at 39 (by decide) hw]
  simp [encode, opcodeTable, upperRows, immRows, regRows, controlRows, loadRows, storeRows, mulDivRows, atomicRows, csrRows,
    systemRows]

theorem RoundTrip.mulhu (rd rs1 rs2 : Reg) : RoundTrip.Statement (.mulhu rd rs1 rs2) := by
  intro _
  have hw : opcodeTable[40].hits (encode (.mulhu rd rs1 rs2)) = true := beq_iff_eq.mpr (encR_mask ..)
  rw [decodeWord_at 40 (by decide) hw]
  simp [encode, opcodeTable, upperRows, immRows, regRows, controlRows, loadRows, storeRows, mulDivRows, atomicRows, csrRows,
    systemRows]

theorem RoundTrip.div (rd rs1 rs2 : Reg) : RoundTrip.Statement (.div rd rs1 rs2) := by
  intro _
  have hw : opcodeTable[41].hits (encode (.div rd rs1 rs2)) = true := beq_iff_eq.mpr (encR_mask ..)
  rw [decodeWord_at 41 (by decide) hw]
  simp [encode, opcodeTable, upperRows, immRows, regRows, controlRows, loadRows, storeRows, mulDivRows, atomicRows, csrRows,
    systemRows]

theorem RoundTrip.divu (rd rs1 rs2 : Reg) : RoundTrip.Statement (.divu rd rs1 rs2) := by
  intro _
  have hw : opcodeTable[42].hits (encode (.divu rd rs1 rs2)) = true := beq_iff_eq.mpr (encR_mask ..)
  rw [decodeWord_at 42 (by decide) hw]
  simp [encode, opcodeTable, upperRows, immRows, regRows, controlRows, loadRows, storeRows, mulDivRows, atomicRows, csrRows,
    systemRows]

theorem RoundTrip.rem (rd rs1 rs2 : Reg) : RoundTrip.Statement (.rem rd rs1 rs2) := by
  intro _
  have hw : opcodeTable[43].hits (encode (.rem rd rs1 rs2)) = true := beq_iff_eq.mpr (encR_mask ..)
  rw [decodeWord_at 43 (by decide) hw]
  simp [encode, opcodeTable, upperRows, immRows, regRows, controlRows, loadRows, storeRows, mulDivRows, atomicRows, csrRows,
    systemRows]

theorem RoundTrip.remu (rd rs1 rs2 : Reg) : RoundTrip.Statement (.remu rd rs1 rs2) := by
  intro _
  have hw : opcodeTable[44].hits (encode (.remu rd rs1 rs2)) = true := beq_iff_eq.mpr (encR_mask ..)
  rw [decodeWord_at 44 (by decide) hw]
  simp [encode, opcodeTable, upperRows, immRows, regRows, controlRows, loadRows, storeRows, mulDivRows, atomicRows, csrRows,
    systemRows]

theorem RoundTrip.lrW (rd rs1 : Reg) (aq rl : BitVec 1) : RoundTrip.Statement (.lrW rd rs1 aq rl) := by
  intro _
  have hw : opcodeTable[45].hits (encode (.lrW rd rs1 aq rl)) = true := beq_iff_eq.mpr (encAmo_maskRs2 ..)
  rw [decodeWord_at 45 (by decide) hw]
  simp [encode, opcodeTable, upperRows, immRows, regRows, controlRows, loadRows, storeRows, mulDivRows, atomicRows, csrRows,
    systemRows]

theorem RoundTrip.scW (rd rs1 rs2 : Reg) (aq rl : BitVec 1) : RoundTrip.Statement (.scW rd rs1 rs2 aq rl) := by
  intro _
  have hw : opcodeTable[46].hits (encode (.scW rd rs1 rs2 aq rl)) = true := beq_iff_eq.mpr (encAmo_mask ..)
  rw [decodeWord_at 46 (by decide) hw]
  simp [encode, opcodeTable, upperRows, immRows, regRows, controlRows, loadRows, storeRows, mulDivRows, atomicRows, csrRows,
    systemRows]

theorem RoundTrip.amoswapW (rd rs1 rs2 : Reg) (aq rl : BitVec 1) : RoundTrip.Statement (.amoswapW rd rs1 rs2 aq rl) := by
  intro _
  have hw : opcodeTable[47].hits (encode (.amoswapW rd rs1 rs2 aq rl)) = true := beq_iff_eq.mpr (encAmo_mask ..)
  rw [decodeWord_at 47 (by decide) hw]
  simp [encode, opcodeTable, upperRows, immRows, regRows, controlRows, loadRows, storeRows, mulDivRows, atomicRows, csrRows,
    systemRows]

theorem RoundTrip.amoaddW (rd rs1 rs2 : Reg) (aq rl : BitVec 1) : RoundTrip.Statement (.amoaddW rd rs1 rs2 aq rl) := by
  intro _
  have hw : opcodeTable[48].hits (encode (.amoaddW rd rs1 rs2 aq rl)) = true := beq_iff_eq.mpr (encAmo_mask ..)
  rw [decodeWord_at 48 (by decide) hw]
  simp [encode, opcodeTable, upperRows, immRows, regRows, controlRows, loadRows, storeRows, mulDivRows, atomicRows, csrRows,
    systemRows]

theorem RoundTrip.amoxorW (rd rs1 rs2 : Reg) (aq rl : BitVec 1) : RoundTrip.Statement (.amoxorW rd rs1 rs2 aq rl) := by
  intro _
  have hw : opcodeTable[49].hits (encode (.amoxorW rd rs1 rs2 aq rl)) = true := beq_iff_eq.mpr (encAmo_mask ..)
  rw [decodeWord_at 49 (by decide) hw]
  simp [encode, opcodeTable, upperRows, immRows, regRows, controlRows, loadRows, storeRows, mulDivRows, atomicRows, csrRows,
    systemRows]

theorem RoundTrip.amoandW (rd rs1 rs2 : Reg) (aq rl : BitVec 1) : RoundTrip.Statement (.amoandW rd rs1 rs2 aq rl) := by
  intro _
  have hw : opcodeTable[50].hits (encode (.amoandW rd rs1 rs2 aq rl)) = true := beq_iff_eq.mpr (encAmo_mask ..)
  rw [decodeWord_at 50 (by decide) hw]
  simp [encode, opcodeTable, upperRows, immRows, regRows, controlRows, loadRows, storeRows, mulDivRows, atomicRows, csrRows,
    systemRows]

theorem RoundTrip.amoorW (rd rs1 rs2 : Reg) (aq rl : BitVec 1) : RoundTrip.Statement (.amoorW rd rs1 rs2 aq rl) := by
  intro _
  have hw : opcodeTable[51].hits (encode (.amoorW rd rs1 rs2 aq rl)) = true := beq_iff_eq.mpr (encAmo_mask ..)
  rw [decodeWord_at 51 (by decide) hw]
  simp [encode, opcodeTable, upperRows, immRows, regRows, controlRows, loadRows, storeRows, mulDivRows, atomicRows, csrRows,
    systemRows]

theorem RoundTrip.amominW (rd rs1 rs2 : Reg) (aq rl : BitVec 1) : RoundTrip.Statement (.amominW rd rs1 rs2 aq rl) := by
  intro _
  have hw : opcodeTable[52].hits (encode (.amominW rd rs1 rs2 aq rl)) = true := beq_iff_eq.mpr (encAmo_mask ..)
  rw [decodeWord_at 52 (by decide) hw]
  simp [encode, opcodeTable, upperRows, immRows, regRows, controlRows, loadRows, storeRows, mulDivRows, atomicRows, csrRows,
    systemRows]

theorem RoundTrip.amomaxW (rd rs1 rs2 : Reg) (aq rl : BitVec 1) : RoundTrip.Statement (.amomaxW rd rs1 rs2 aq rl) := by
  intro _
  have hw : opcodeTable[53].hits (encode (.amomaxW rd rs1 rs2 aq rl)) = true := beq_iff_eq.mpr (encAmo_mask ..)
  rw [decodeWord_at 53 (by decide) hw]
  simp [encode, opcodeTable, upperRows, immRows, regRows, controlRows, loadRows, storeRows, mulDivRows, atomicRows, csrRows,
    systemRows]

theorem RoundTrip.amominuW (rd rs1 rs2 : Reg) (aq rl : BitVec 1) : RoundTrip.Statement (.amominuW rd rs1 rs2 aq rl) := by
  intro _
  have hw : opcodeTable[54].hits (encode (.amominuW rd rs1 rs2 aq rl)) = true := beq_iff_eq.mpr (encAmo_mask ..)
  rw [decodeWord_at 54 (by decide) hw]
  simp [encode, opcodeTable, upperRows, immRows, regRows, controlRows, loadRows, storeRows, mulDivRows, atomicRows, csrRows,
    systemRows]

theorem RoundTrip.amomaxuW (rd rs1 rs2 : Reg) (aq rl : BitVec 1) : RoundTrip.Statement (.amomaxuW rd rs1 rs2 aq rl) := by
  intro _
  have hw : opcodeTable[55].hits (encode (.amomaxuW rd rs1 rs2 aq rl)) = true := beq_iff_eq.mpr (encAmo_mask ..)
  rw [decodeWord_at 55 (by decide) hw]
  simp [encode, opcodeTable, upperRows, immRows, regRows, controlRows, loadRows, storeRows, mulDivRows, atomicRows, csrRows,
    systemRows]

theorem RoundTrip.csrrw (rd : Reg) (csr : CsrNum) (rs1 : Reg) : RoundTrip.Statement (.csrrw rd csr rs1) := by
  intro _
  have hw : opcodeTable[56].hits (encode (.csrrw rd csr rs1)) = true := beq_iff_eq.mpr (encI_mask ..)
  rw [decodeWord_at 56 (by decide) hw]
  simp [encode, opcodeTable, upperRows, immRows, regRows, controlRows, loadRows, storeRows, mulDivRows, atomicRows, csrRows,
    systemRows]

theorem RoundTrip.csrrs (rd : Reg) (csr : CsrNum) (rs1 : Reg) : RoundTrip.Statement (.csrrs rd csr rs1) := by
  intro _
  have hw : opcodeTable[57].hits (encode (.csrrs rd csr rs1)) = true := beq_iff_eq.mpr (encI_mask ..)
  rw [decodeWord_at 57 (by decide) hw]
  simp [encode, opcodeTable, upperRows, immRows, regRows, controlRows, loadRows, storeRows, mulDivRows, atomicRows, csrRows,
    systemRows]

theorem RoundTrip.csrrc (rd : Reg) (csr : CsrNum) (rs1 : Reg) : RoundTrip.Statement (.csrrc rd csr rs1) := by
  intro _
  have hw : opcodeTable[58].hits (encode (.csrrc rd csr rs1)) = true := beq_iff_eq.mpr (encI_mask ..)
  rw [decodeWord_at 58 (by decide) hw]
  simp [encode, opcodeTable, upperRows, immRows, regRows, controlRows, loadRows, storeRows, mulDivRows, atomicRows, csrRows,
    systemRows]

theorem RoundTrip.csrrwi (rd : Reg) (csr : CsrNum) (uimm : BitVec 5) : RoundTrip.Statement (.csrrwi rd csr uimm) := by
  intro _
  have hw : opcodeTable[59].hits (encode (.csrrwi rd csr uimm)) = true := beq_iff_eq.mpr (encI_mask ..)
  rw [decodeWord_at 59 (by decide) hw]
  simp [encode, opcodeTable, upperRows, immRows, regRows, controlRows, loadRows, storeRows, mulDivRows, atomicRows, csrRows,
    systemRows]

theorem RoundTrip.csrrsi (rd : Reg) (csr : CsrNum) (uimm : BitVec 5) : RoundTrip.Statement (.csrrsi rd csr uimm) := by
  intro _
  have hw : opcodeTable[60].hits (encode (.csrrsi rd csr uimm)) = true := beq_iff_eq.mpr (encI_mask ..)
  rw [decodeWord_at 60 (by decide) hw]
  simp [encode, opcodeTable, upperRows, immRows, regRows, controlRows, loadRows, storeRows, mulDivRows, atomicRows, csrRows,
    systemRows]

theorem RoundTrip.csrrci (rd : Reg) (csr : CsrNum) (uimm : BitVec 5) : RoundTrip.Statement (.csrrci rd csr uimm) := by
  intro _
  have hw : opcodeTable[61].hits (encode (.csrrci rd csr uimm)) = true := beq_iff_eq.mpr (encI_mask ..)
  rw [decodeWord_at 61 (by decide) hw]
  simp [encode, opcodeTable, upperRows, immRows, regRows, controlRows, loadRows, storeRows, mulDivRows, atomicRows, csrRows,
    systemRows]

theorem RoundTrip.fence (fm pred succ : BitVec 4) (rs1 rd : Reg) : RoundTrip.Statement (.fence fm pred succ rs1 rd) := by
  intro _
  have hw : opcodeTable[62].hits (encode (.fence fm pred succ rs1 rd)) = true := beq_iff_eq.mpr (encI_mask ..)
  rw [decodeWord_at 62 (by decide) hw]
  simp [encode, opcodeTable, upperRows, immRows, regRows, controlRows, loadRows, storeRows, mulDivRows, atomicRows, csrRows,
    systemRows]

theorem RoundTrip.fenceI (imm : BitVec 12) (rs1 rd : Reg) : RoundTrip.Statement (.fenceI imm rs1 rd) := by
  intro _
  have hw : opcodeTable[63].hits (encode (.fenceI imm rs1 rd)) = true := beq_iff_eq.mpr (encI_mask ..)
  rw [decodeWord_at 63 (by decide) hw]
  simp [encode, opcodeTable, upperRows, immRows, regRows, controlRows, loadRows, storeRows, mulDivRows, atomicRows, csrRows,
    systemRows]

theorem RoundTrip.ecall : RoundTrip.Statement .ecall := by
  intro _
  exact decodeWord_at 64 (by decide) (w := encode .ecall) (by decide)

theorem RoundTrip.ebreak : RoundTrip.Statement .ebreak := by
  intro _
  exact decodeWord_at 65 (by decide) (w := encode .ebreak) (by decide)

theorem RoundTrip.mret : RoundTrip.Statement .mret := by
  intro _
  exact decodeWord_at 66 (by decide) (w := encode .mret) (by decide)

theorem RoundTrip.sret : RoundTrip.Statement .sret := by
  intro _
  exact decodeWord_at 67 (by decide) (w := encode .sret) (by decide)

theorem RoundTrip.wfi : RoundTrip.Statement .wfi := by
  intro _
  exact decodeWord_at 68 (by decide) (w := encode .wfi) (by decide)

theorem RoundTrip.sfenceVma (rs1 rs2 : Reg) : RoundTrip.Statement (.sfenceVma rs1 rs2) := by
  intro _
  have hw : opcodeTable[69].hits (encode (.sfenceVma rs1 rs2)) = true := beq_iff_eq.mpr (encR_maskFull ..)
  rw [decodeWord_at 69 (by decide) hw]
  simp [encode, opcodeTable, upperRows, immRows, regRows, controlRows, loadRows, storeRows, mulDivRows, atomicRows, csrRows,
    systemRows]

end Sys2Proof.Laws
end

