-- ==== Sys2Proof/Laws/Tick.lean ====
section
/-! SUPPORT. The tick: everything each of its phases can do, said once. -/

namespace Sys2Proof.Machine

variable {P : State → Prop} {s t : State}

-- ---- phase 1 ----

/-- A fetch changes the decode cache alone. -/
theorem dicFetch_eq {af : Bool} {phys : PAddr} {w : Word} (h : dicFetch af phys s = some (w, t)) :
    t = { s with dic := t.dic, valid := t.valid } := by
  unfold dicFetch at h
  simp only at h
  split at h
  · split at h
    · cases h; rfl
    · cases h; rfl
  · split at h
    · split at h
      · cases h
      · cases h; rfl
    · cases h; rfl

/-- A fetch that is given its cache entry is the fetch that is never refused one. -/
theorem dicFetch_some {af : Bool} {phys : PAddr} {r : Word × State} (h : dicFetch af phys s = some r) :
    dicFetch false phys s = some r := by
  cases af
  · exact h
  · unfold dicFetch at h ⊢
    simp only at h ⊢
    split at h
    · exact h
    · split at h
      · simp at h
      · rename_i hr; simp only [hr]; exact h

/-- What phase 1 can come to. -/
theorem phase1_cases (af : Bool) (s : State) :
    (s.stdby = true ∧ phase1 af s = .next (clearExc s)) ∨
    (s.stdby = false ∧ translation s.pc .fetch s = none ∧
      phase1 af s = takeException { exception := .instructionPageFault, tval := some s.pc } (clearExc s)) ∨
    (s.stdby = false ∧ ∃ tr, translation s.pc .fetch s = some tr ∧
      ((dicFetch af tr.phys (writeBackState tr.writeBack (clearExc s)) = none ∧ phase1 af s = .fault .dicAllocation) ∨
       (∃ w e, dicFetch af tr.phys (writeBackState tr.writeBack (clearExc s)) = some (w, e) ∧
         phase1 af s = execWord w e))) := by
  unfold phase1
  cases hs : s.stdby
  · right
    simp only [Bool.false_eq_true, if_false]
    have hc : translation s.pc .fetch (clearExc s) = translation s.pc .fetch s :=
      translation_congr rfl rfl rfl (fun _ => rfl) rfl rfl _ _
    unfold fetchAndExec
    cases ht : translation s.pc .fetch s with
    | none => left; rw [clearExc_pc, translate_none (hc.trans ht)]; exact ⟨trivial, rfl, rfl⟩
    | some tr =>
      right
      refine ⟨trivial, tr, rfl, ?_⟩
      rw [clearExc_pc, translate_some (hc.trans ht)]
      simp only [if_true]
      cases hd : dicFetch af tr.phys (writeBackState tr.writeBack (clearExc s)) with
      | none => exact .inl ⟨rfl, rfl⟩
      | some r => exact .inr ⟨r.1, r.2, rfl, rfl⟩
  · left; exact ⟨rfl, rfl⟩

/-- A property that instructions keep is kept by executing a word. -/
theorem Kept.execWord (hP : Kept P) {w : Word} (hpc : s.pc.getLsbD 0 = false) (hs : P s)
    (hmret : s.priv = .m → P (returnM s)) (hsret : s.priv ≠ .u → P (returnS s)) (hwfi : P (s.setStdby true))
    (h : Machine.execWord w s = .next t) : P t := by
  unfold Machine.execWord at h
  cases hd : decodeWord w with
  | none => rw [hd] at h; exact hP.trap _ _ _ h hs
  | some i =>
    rw [hd] at h
    exact hP.exec (decodeWord_wf hd) hpc hs (fun _ => hmret) (fun _ => hsret) (fun _ => hwfi) h

-- ---- phase 3 ----

/-- What the interrupt check can come to (spec 60_exceptions.md R430): at most one interrupt is taken. -/
theorem tryInterrupt_cases (s : State) :
    (mStage s = none ∧ sStage s = none ∧ tryInterrupt s = .next s) ∨
    (∃ i, mStage s = some i ∧ tryInterrupt s = enterM (.interrupt i) s) ∨
    (∃ i, mStage s = none ∧ sStage s = some i ∧ tryInterrupt s = enterS (.interrupt i) s) := by
  unfold tryInterrupt
  cases hm : mStage s with
  | some i => exact .inr (.inl ⟨i, rfl, rfl⟩)
  | none =>
    cases hs : sStage s with
    | some i => exact .inr (.inr ⟨i, rfl, rfl, rfl⟩)
    | none => exact .inl ⟨rfl, rfl, rfl⟩

/-- An interrupt enters S-mode only from below M-mode. -/
theorem sStage_priv {i : Interrupt} (h : sStage s = some i) : s.priv ≠ .m := by
  intro hm
  simp [sStage, canTrapS, hm] at h

-- ---- the accounting ----

@[simp] theorem account_regs (p : Mode) (b : Bool) (d : DWord) (s : State) : (account p b d s).regs = s.regs := rfl
@[simp] theorem account_pc (p : Mode) (b : Bool) (d : DWord) (s : State) : (account p b d s).pc = s.pc := rfl
@[simp] theorem account_pcNext (p : Mode) (b : Bool) (d : DWord) (s : State) : (account p b d s).pcNext = s.pcNext := rfl
@[simp] theorem account_priv (p : Mode) (b : Bool) (d : DWord) (s : State) : (account p b d s).priv = s.priv := rfl
@[simp] theorem account_stdby (p : Mode) (b : Bool) (d : DWord) (s : State) : (account p b d s).stdby = s.stdby := rfl
@[simp] theorem account_mem (p : Mode) (b : Bool) (d : DWord) (s : State) : (account p b d s).mem = s.mem := rfl
@[simp] theorem account_exc (p : Mode) (b : Bool) (d : DWord) (s : State) : (account p b d s).exc = s.exc := rfl

/-- The accounting changes the counters, `mtime` and the timer bits of `mip`, nothing else. -/
theorem account_eq (p : Mode) (b : Bool) (d : DWord) (s : State) :
    account p b d s = { s with csr := { s.csr with
      cycle := (account p b d s).csr.cycle
      mtime := (account p b d s).csr.mtime
      instret := (account p b d s).csr.instret
      hpmcounters := (account p b d s).csr.hpmcounters
      mip := (account p b d s).csr.mip } } := rfl

/-- The accounting keeps the CSR block legal. -/
theorem account_legal (p : Mode) (b : Bool) (d : DWord) {s : State} (h : s.csr.Legal) : (account p b d s).csr.Legal := by
  obtain ⟨a1, a2, a3, a4, a5, a6, a7, a8, a9⟩ := h
  exact ⟨a1, a2, a3, timersPending_mip_within a4, a5, a6, a7, a8, a9⟩

-- ---- the end of the tick ----

/-- A tick that ends gives the advance of what the interrupt check left. -/
theorem finishTick_next {b s1 : State} {d : DWord} (h : finishTick b s1 d = .next t) :
    ∃ u, interruptPhase (account (accountView b s1).1 (accountView b s1).2 d s1) = .next u ∧ t = advance u := by
  unfold finishTick at h
  split at h
  · rename_i u hu; cases h; exact ⟨u, hu, rfl⟩
  · cases h
  · cases h

/-- A tick that ends has run phase 1 and the rest. -/
theorem tickWith_next {d : DWord} {af : Bool} (h : tickWith d af s = .next t) :
    s.finished = false ∧ ∃ s1, phase1 af s = .next s1 ∧ finishTick s s1 d = .next t := by
  unfold tickWith at h
  cases hf : s.finished
  · rw [hf] at h
    simp only [Bool.false_eq_true, if_false] at h
    split at h
    · rename_i s1 hs1; exact ⟨rfl, s1, hs1, h⟩
    · cases h
    · cases h
  · rw [hf] at h; cases h

/-- A step that ends has performed the host operations and run a tick. -/
theorem step_next (h : step s = .next t) :
    ∃ s1, runHostOps (nextInput s).ops (dropInput s) = .next s1 ∧
      tickWith (nextInput s).timeDelta (nextInput s).allocFails s1 = .next t := by
  unfold step at h
  split at h
  · rename_i s1 hs1; exact ⟨s1, hs1, h⟩
  · cases h
  · cases h

/-- A property that every host operation keeps is kept by any sequence of them. -/
theorem runHostOps_keeps (hP : ∀ op s t, applyHostOp op s = .next t → P s → P t) :
    ∀ ops s t, runHostOps ops s = .next t → P s → P t := by
  intro ops
  induction ops with
  | nil => intro s t h hs; cases h; exact hs
  | cons op ops ih =>
    intro s t h hs
    rw [runHostOps] at h
    split at h
    · rename_i s1 hs1; exact ih _ _ h (hP op s s1 hs1 hs)
    · cases h
    · cases h

@[simp] theorem advance_exc (s : State) : (advance s).exc = none := rfl
@[simp] theorem advance_priv (s : State) : (advance s).priv = s.priv := by unfold advance movePc; split <;> rfl
@[simp] theorem advance_stdby (s : State) : (advance s).stdby = s.stdby := by unfold advance movePc; split <;> rfl
@[simp] theorem advance_mem (s : State) : (advance s).mem = s.mem := by unfold advance movePc; split <;> rfl
@[simp] theorem advance_csr (s : State) : (advance s).csr = { s.csr with tvalNext := 0#32 } := by
  unfold advance movePc; split <;> rfl

/-- The pc moves unless the hart is in standby (spec 10_state.md R23). -/
theorem advance_pc (s : State) : (advance s).pc = if s.stdby then s.pc else s.pcNext := by
  unfold advance movePc; split <;> rfl

theorem advance_pcNext (s : State) : (advance s).pcNext = if s.stdby then s.pcNext else s.pcNext + 4#32 := by
  unfold advance movePc; split <;> rfl

/-- The end of the tick changes no register that can be read. -/
@[simp] theorem advance_x (s : State) (r : Reg) : (advance s).x r = s.x r := by
  have hr : (advance s).regs = s.regs.set 0 0#32 := by unfold advance movePc; split <;> rfl
  unfold State.x
  rw [hr]
  by_cases h : r = 0#5
  · simp [h]
  · have : r.toNat ≠ 0 := fun h0 => h (BitVec.eq_of_toNat_eq h0)
    simp [h, this.symm]

end Sys2Proof.Machine
end

