-- ==== Sys2Proof/Tests/Slice0.lean ====
section
/-! SUPPORT. The model's own tests.  Expected results come from the spec: the words and vectors of 95_test_vectors.md and the
examples of the instruction rules.  The witnesses show, for every statement with hypotheses, a state and operands that meet them. -/

namespace Sys2Proof.Tests

open Sys2Proof Sys2Proof.Machine Sys2Proof.Claim

-- ================ well-formedness ================

theorem test_wf_jal_odd_refused : (Instr.jal 1#5 0x00003#21).wf = false := by decide
theorem test_wf_beq_odd_refused : (Instr.beq 1#5 2#5 0x0011#13).wf = false := by decide
theorem test_wf_bne_odd_refused : (Instr.bne 1#5 2#5 0x0001#13).wf = false := by decide
theorem test_wf_blt_odd_refused : (Instr.blt 1#5 2#5 0x1FFF#13).wf = false := by decide
theorem test_wf_bge_odd_refused : (Instr.bge 1#5 2#5 0x0011#13).wf = false := by decide
theorem test_wf_bltu_odd_refused : (Instr.bltu 1#5 2#5 0x0011#13).wf = false := by decide
theorem test_wf_bgeu_odd_refused : (Instr.bgeu 1#5 2#5 0x0011#13).wf = false := by decide
theorem test_wf_even_accepted :
    (Instr.jal 1#5 0x1FFFFE#21).wf = true ∧ (Instr.beq 1#5 2#5 0x1FFE#13).wf = true ∧ Instr.ecall.wf = true := by decide

-- ================ decoding: words of 95_test_vectors.md and of the rules' examples ================

theorem test_decode_upper_and_imm :
    decodeWord 0xFFFFF2B7#32 = some (.lui 5#5 0xFFFFF#20) ∧
    decodeWord 0x00001297#32 = some (.auipc 5#5 0x00001#20) ∧
    decodeWord 0xFFF10093#32 = some (.addi 1#5 2#5 0xFFF#12) ∧
    decodeWord 0xFFF12093#32 = some (.slti 1#5 2#5 0xFFF#12) ∧
    decodeWord 0x00113093#32 = some (.sltiu 1#5 2#5 0x001#12) ∧
    decodeWord 0xFFF14093#32 = some (.xori 1#5 2#5 0xFFF#12) ∧
    decodeWord 0x80016093#32 = some (.ori 1#5 2#5 0x800#12) ∧
    decodeWord 0xFF017093#32 = some (.andi 1#5 2#5 0xFF0#12) ∧
    decodeWord 0x01F11093#32 = some (.slli 1#5 2#5 31#5) ∧
    decodeWord 0x00415093#32 = some (.srli 1#5 2#5 4#5) ∧
    decodeWord 0x40415093#32 = some (.srai 1#5 2#5 4#5) := by decide

theorem test_decode_register :
    decodeWord 0x003100B3#32 = some (.add 1#5 2#5 3#5) ∧ decodeWord 0x403100B3#32 = some (.sub 1#5 2#5 3#5) ∧
    decodeWord 0x003110B3#32 = some (.sll 1#5 2#5 3#5) ∧ decodeWord 0x003120B3#32 = some (.slt 1#5 2#5 3#5) ∧
    decodeWord 0x003130B3#32 = some (.sltu 1#5 2#5 3#5) ∧ decodeWord 0x003140B3#32 = some (.xor 1#5 2#5 3#5) ∧
    decodeWord 0x003150B3#32 = some (.srl 1#5 2#5 3#5) ∧ decodeWord 0x403150B3#32 = some (.sra 1#5 2#5 3#5) ∧
    decodeWord 0x003160B3#32 = some (.or 1#5 2#5 3#5) ∧ decodeWord 0x003170B3#32 = some (.and 1#5 2#5 3#5) := by decide

theorem test_decode_muldiv :
    decodeWord 0x023100B3#32 = some (.mul 1#5 2#5 3#5) ∧ decodeWord 0x023110B3#32 = some (.mulh 1#5 2#5 3#5) ∧
    decodeWord 0x023120B3#32 = some (.mulhsu 1#5 2#5 3#5) ∧ decodeWord 0x023130B3#32 = some (.mulhu 1#5 2#5 3#5) ∧
    decodeWord 0x023140B3#32 = some (.div 1#5 2#5 3#5) ∧ decodeWord 0x023150B3#32 = some (.divu 1#5 2#5 3#5) ∧
    decodeWord 0x023160B3#32 = some (.rem 1#5 2#5 3#5) ∧ decodeWord 0x023170B3#32 = some (.remu 1#5 2#5 3#5) := by decide

theorem test_decode_control :
    decodeWord 0x7FFFF0EF#32 = some (.jal 1#5 0x0FFFFE#21) ∧ decodeWord 0x800000EF#32 = some (.jal 1#5 0x100000#21) ∧
    decodeWord 0xFFC100E7#32 = some (.jalr 1#5 2#5 0xFFC#12) ∧
    decodeWord 0x7E000FE3#32 = some (.beq 0#5 0#5 0x0FFE#13) ∧ decodeWord 0x80000063#32 = some (.beq 0#5 0#5 0x1000#13) ∧
    decodeWord 0xFE209CE3#32 = some (.bne 1#5 2#5 0x1FF8#13) ∧ decodeWord 0x0020C863#32 = some (.blt 1#5 2#5 16#13) ∧
    decodeWord 0x0020D863#32 = some (.bge 1#5 2#5 16#13) ∧ decodeWord 0x0020E863#32 = some (.bltu 1#5 2#5 16#13) ∧
    decodeWord 0x0020F863#32 = some (.bgeu 1#5 2#5 16#13) := by decide

theorem test_decode_memory :
    decodeWord 0x00310083#32 = some (.lb 1#5 2#5 3#12) ∧ decodeWord 0x00211083#32 = some (.lh 1#5 2#5 2#12) ∧
    decodeWord 0xFFC12083#32 = some (.lw 1#5 2#5 0xFFC#12) ∧ decodeWord 0x00314083#32 = some (.lbu 1#5 2#5 3#12) ∧
    decodeWord 0x00215083#32 = some (.lhu 1#5 2#5 2#12) ∧ decodeWord 0x003101A3#32 = some (.sb 2#5 3#5 3#12) ∧
    decodeWord 0x00311123#32 = some (.sh 2#5 3#5 2#12) ∧ decodeWord 0xFE312E23#32 = some (.sw 2#5 3#5 0xFFC#12) := by decide

theorem test_decode_atomic :
    decodeWord 0x100522AF#32 = some (.lrW 5#5 10#5 0#1 0#1) ∧ decodeWord 0x1875232F#32 = some (.scW 6#5 10#5 7#5 0#1 0#1) ∧
    decodeWord 0x0E65232F#32 = some (.amoswapW 6#5 10#5 6#5 1#1 1#1) ∧
    decodeWord 0x006522AF#32 = some (.amoaddW 5#5 10#5 6#5 0#1 0#1) ∧
    decodeWord 0x206522AF#32 = some (.amoxorW 5#5 10#5 6#5 0#1 0#1) ∧
    decodeWord 0x606522AF#32 = some (.amoandW 5#5 10#5 6#5 0#1 0#1) ∧
    decodeWord 0x406522AF#32 = some (.amoorW 5#5 10#5 6#5 0#1 0#1) ∧
    decodeWord 0x806522AF#32 = some (.amominW 5#5 10#5 6#5 0#1 0#1) ∧
    decodeWord 0xA06522AF#32 = some (.amomaxW 5#5 10#5 6#5 0#1 0#1) ∧
    decodeWord 0xC06522AF#32 = some (.amominuW 5#5 10#5 6#5 0#1 0#1) ∧
    decodeWord 0xE06522AF#32 = some (.amomaxuW 5#5 10#5 6#5 0#1 0#1) := by decide

theorem test_decode_system :
    decodeWord 0x340110F3#32 = some (.csrrw 1#5 0x340#12 2#5) ∧ decodeWord 0x344120F3#32 = some (.csrrs 1#5 0x344#12 2#5) ∧
    decodeWord 0x304130F3#32 = some (.csrrc 1#5 0x304#12 2#5) ∧ decodeWord 0x340FD073#32 = some (.csrrwi 0#5 0x340#12 31#5) ∧
    decodeWord 0x30046073#32 = some (.csrrsi 0#5 0x300#12 8#5) ∧ decodeWord 0x300470F3#32 = some (.csrrci 1#5 0x300#12 8#5) ∧
    decodeWord 0x8330000F#32 = some (.fence 8#4 3#4 3#4 0#5 0#5) ∧ decodeWord 0x0000100F#32 = some (.fenceI 0#12 0#5 0#5) ∧
    decodeWord 0x00000073#32 = some .ecall ∧ decodeWord 0x00100073#32 = some .ebreak ∧
    decodeWord 0x30200073#32 = some .mret ∧ decodeWord 0x10200073#32 = some .sret ∧ decodeWord 0x10500073#32 = some .wfi ∧
    decodeWord 0x12628073#32 = some (.sfenceVma 5#5 6#5) := by decide

/-- Illegal words (95_test_vectors.md V-X1 to V-X28, V-T10). -/
theorem test_decode_illegal :
    ([0x00000000#32, 0xFFFFFFFF#32, 0x00000001#32, 0x0000707F#32, 0x02011093#32, 0x40011093#32, 0x20015093#32, 0x40001033#32,
      0x02015093#32, 0x000110E7#32, 0x00013083#32, 0x00016083#32, 0x00313023#32, 0x0020A863#32, 0x0020B863#32] ++
     [0x0000200F#32, 0x283120AF#32, 0x100532AF#32, 0x00200073#32, 0x10400073#32, 0x302000F3#32, 0x00004073#32, 0x120000F3#32,
      0x0000000B#32, 0x00000053#32, 0x00000007#32, 0x0000003B#32, 0x00010001#32, 0x103522AF#32]).all
      (fun w => (decodeWord w).isNone) = true := by decide

/-- Bytes in address order, least significant first (30_encoding.md R171). -/
theorem test_decode_bytes :
    decode [0xB3#8, 0x00#8, 0x31#8, 0x00#8, 0x13#8] = .ok (.add 1#5 2#5 3#5, [0x13#8]) ∧
    decode [0xB3#8, 0x00#8, 0x31#8] = .error .tooFewBytes ∧
    decodeTableWord 32 0x003100B3 = some (.add 1#5 2#5 3#5) := ⟨rfl, rfl, by decide⟩

-- ================ one instruction on a small state ================

/-- One tick with no clock delta and nothing from outside. -/
def quiet : TickInput := { ops := [], timeDelta := 0#64, allocFails := false }

/-- The start state of 95_test_vectors.md section 0, with its trap vectors. -/
def start : State :=
  { State.reset with
    csr := { CsrBlock.reset with mtvec := 0x100#32, stvec := 0x800#32 }
    inputs := [quiet] }

/-- The state with a word stored at an address. -/
def put (a : Nat) (w : Word) (s : State) : State := { s with mem := s.mem.writeValue a w .word }

/-- The word at an address. -/
def wordAt (a : Nat) (s : State) : Word := s.mem.readValue a .word

/-- The timers parked: neither compare value is reached (95_test_vectors.md section 0). -/
def parked (s : State) : State :=
  { s with csr := { s.csr with mtimecmp := 0xFFFFFFFFFFFFFFFF#64, scyclecmp := 0xFFFFFFFF#32 } }

/-- The outcome is a next state of which the check holds. -/
def goes (o : Out) (P : State → Bool) : Bool :=
  match o with
  | .next t => P t
  | .fault _ | .refused _ => false

theorem goes_next {o : Out} {P : State → Bool} (h : goes o P = true) : ∃ t, o = .next t ∧ P t = true := by
  cases o with
  | next t => exact ⟨t, rfl, h⟩
  | fault _ => cases h
  | refused _ => cases h

/-- An instruction of two sources run on `x2` = a, `x3` = b leaves `x1` = r. -/
def gives (i : Instr) (a b r : Word) : Bool :=
  goes (exec i ((start.setX 2#5 a).setX 3#5 b)) fun t => t.x 1#5 == r && t.pcNext == 0x1004#32

/-- 95_test_vectors.md section 2. -/
theorem test_alu_immediate :
    gives (.lui 1#5 0xFFFFF#20) 0#32 0#32 0xFFFFF000#32 = true ∧
    gives (.auipc 1#5 0xFFFFF#20) 0#32 0#32 0#32 = true ∧
    gives (.addi 1#5 2#5 0x800#12) 0x80000000#32 0#32 0x7FFFF800#32 = true ∧
    gives (.slti 1#5 2#5 0xFFF#12) 0xFFFFFFFE#32 0#32 1#32 = true ∧
    gives (.sltiu 1#5 2#5 0xFFF#12) 0xFFFFFFFE#32 0#32 1#32 = true ∧
    gives (.xori 1#5 2#5 0xFFF#12) 0x0F0F0F0F#32 0#32 0xF0F0F0F0#32 = true ∧
    gives (.ori 1#5 2#5 0x800#12) 0x000000FF#32 0#32 0xFFFFF8FF#32 = true ∧
    gives (.andi 1#5 2#5 0xFF0#12) 0x12345678#32 0#32 0x12345670#32 = true ∧
    gives (.slli 1#5 2#5 31#5) 0x80000001#32 0#32 0x80000000#32 = true ∧
    gives (.srli 1#5 2#5 4#5) 0x80000001#32 0#32 0x08000000#32 = true ∧
    gives (.srai 1#5 2#5 4#5) 0x80000001#32 0#32 0xF8000000#32 = true := by decide

theorem test_alu_register :
    gives (.add 1#5 2#5 3#5) 0xFFFFFFFF#32 1#32 0#32 = true ∧
    gives (.sub 1#5 2#5 3#5) 0#32 1#32 0xFFFFFFFF#32 = true ∧
    gives (.sll 1#5 2#5 3#5) 1#32 0xFFFFFFFF#32 0x80000000#32 = true ∧
    gives (.slt 1#5 2#5 3#5) 0x80000000#32 0x7FFFFFFF#32 1#32 = true ∧
    gives (.sltu 1#5 2#5 3#5) 0x80000000#32 0x7FFFFFFF#32 0#32 = true ∧
    gives (.xor 1#5 2#5 3#5) 0xFF00FF00#32 0x0FF00FF0#32 0xF0F0F0F0#32 = true ∧
    gives (.srl 1#5 2#5 3#5) 0x80000000#32 33#32 0x40000000#32 = true ∧
    gives (.sra 1#5 2#5 3#5) 0x80000000#32 33#32 0xC0000000#32 = true ∧
    gives (.or 1#5 2#5 3#5) 0xF0F00000#32 0x0000F0F0#32 0xF0F0F0F0#32 = true ∧
    gives (.and 1#5 2#5 3#5) 0xFF00FF00#32 0x0FF00FF0#32 0x0F000F00#32 = true := by decide

/-- 95_test_vectors.md section 3. -/
theorem test_muldiv :
    gives (.mul 1#5 2#5 3#5) 0x12345678#32 0x9ABCDEF0#32 0x242D2080#32 = true ∧
    gives (.mulh 1#5 2#5 3#5) 0x12345678#32 0x9ABCDEF0#32 0xF8CC93D6#32 = true ∧
    gives (.mulhsu 1#5 2#5 3#5) 0x80000000#32 0xFFFFFFFF#32 0x80000000#32 = true ∧
    gives (.mulhu 1#5 2#5 3#5) 0x12345678#32 0x9ABCDEF0#32 0x0B00EA4E#32 = true ∧
    gives (.div 1#5 2#5 3#5) 0xFFFFFFF9#32 2#32 0xFFFFFFFD#32 = true ∧
    gives (.divu 1#5 2#5 3#5) 0xFFFFFFF9#32 2#32 0x7FFFFFFC#32 = true ∧
    gives (.rem 1#5 2#5 3#5) 0xFFFFFFF9#32 2#32 0xFFFFFFFF#32 = true ∧
    gives (.remu 1#5 2#5 3#5) 0xFFFFFFF9#32 2#32 1#32 = true := by decide

theorem test_division_corners :
    gives (.div 1#5 2#5 3#5) 7#32 0#32 0xFFFFFFFF#32 = true ∧
    gives (.div 1#5 2#5 3#5) 0x80000000#32 0xFFFFFFFF#32 0x80000000#32 = true ∧
    gives (.divu 1#5 2#5 3#5) 7#32 0#32 0xFFFFFFFF#32 = true ∧
    gives (.rem 1#5 2#5 3#5) 7#32 0#32 7#32 = true ∧
    gives (.rem 1#5 2#5 3#5) 0x80000000#32 0xFFFFFFFF#32 0#32 = true ∧
    gives (.remu 1#5 2#5 3#5) 7#32 0#32 7#32 = true := by decide

/-- A branch with `x1` = a, `x2` = b leaves `pc_next` = p. -/
def branches (i : Instr) (a b p : Word) : Bool :=
  goes (exec i ((start.setX 1#5 a).setX 2#5 b)) fun t => t.pcNext == p

/-- 95_test_vectors.md V-J11 to V-J25. -/
theorem test_branches :
    branches (.beq 1#5 2#5 16#13) 5#32 5#32 0x1010#32 = true ∧ branches (.beq 1#5 2#5 16#13) 5#32 6#32 0x1004#32 = true ∧
    branches (.bne 1#5 2#5 0x1FF8#13) 5#32 6#32 0x0FF8#32 = true ∧ branches (.bne 1#5 2#5 16#13) 5#32 5#32 0x1004#32 = true ∧
    branches (.blt 1#5 2#5 16#13) 0xFFFFFFFF#32 1#32 0x1010#32 = true ∧
    branches (.bge 1#5 2#5 16#13) 1#32 0xFFFFFFFF#32 0x1010#32 = true ∧
    branches (.bltu 1#5 2#5 16#13) 0xFFFFFFFF#32 1#32 0x1004#32 = true ∧
    branches (.bgeu 1#5 2#5 16#13) 1#32 0xFFFFFFFF#32 0x1004#32 = true := by decide

/-- 95_test_vectors.md V-J7 and V-J5. -/
theorem test_jalr_reads_before_linking :
    goes (exec (.jalr 1#5 1#5 0#12) (start.setX 1#5 0x2000#32))
      (fun t => t.pcNext == 0x2000#32 && t.x 1#5 == 0x1004#32) = true := by decide

theorem test_jal_misaligned_target :
    goes (exec (.jal 1#5 2#21) start) (fun t => t.csr.mcause == 0#32 && t.csr.mtval == 0x1002#32 &&
      t.csr.mepc == 0x1000#32 && t.x 1#5 == 0#32 && t.pcNext == 0x100#32) = true := by decide

/-- The load and store fixture of 95_test_vectors.md section 5. -/
def loadFixture : State := (put 0x2004 0x00FF7F80#32 (put 0x2000 0x8191A1F1#32 start)).setX 2#5 0x2000#32

def loads (i : Instr) (r : Word) : Bool := goes (exec i loadFixture) fun t => t.x 1#5 == r

theorem test_loads :
    loads (.lb 1#5 2#5 3#12) 0xFFFFFF81#32 = true ∧ loads (.lh 1#5 2#5 2#12) 0xFFFF8191#32 = true ∧
    loads (.lw 1#5 2#5 4#12) 0x00FF7F80#32 = true ∧ loads (.lbu 1#5 2#5 0#12) 0x000000F1#32 = true ∧
    loads (.lhu 1#5 2#5 2#12) 0x00008191#32 = true := by decide

/-- 95_test_vectors.md V-L15, V-L21. -/
theorem test_load_unmapped_and_misaligned :
    goes (exec (.lw 1#5 2#5 0#12) (start.setX 2#5 0x00200000#32)) (fun t => t.x 1#5 == 0xFFFFFFFF#32) = true ∧
    goes (exec (.lw 1#5 2#5 2#12) loadFixture)
      (fun t => t.csr.mcause == 4#32 && t.csr.mtval == 0x2002#32 && t.x 1#5 == 0#32) = true := by decide

def storeFixture (v : Word) : State := (put 0x2000 0x11223344#32 start |>.setX 2#5 0x2000#32).setX 3#5 v

def stores (i : Instr) (v r : Word) : Bool := goes (exec i (storeFixture v)) fun t => wordAt 0x2000 t == r

theorem test_stores :
    stores (.sb 2#5 3#5 3#12) 0x123456AB#32 0xAB223344#32 = true ∧ stores (.sh 2#5 3#5 2#12) 0x1234ABCD#32 0xABCD3344#32 = true ∧
    stores (.sw 2#5 3#5 0#12) 0xDEADBEEF#32 0xDEADBEEF#32 = true := by decide

/-- The fixture of 95_test_vectors.md section 6: the word `old` at 0x40, `x10` = 0x40, `x6` = v. -/
def atomicFixture (old v : Word) : State := ((put 0x40 old start).setX 10#5 0x40#32).setX 6#5 v

def amos (i : Instr) (old v r : Word) : Bool :=
  goes (exec i (atomicFixture old v)) fun t => t.x 5#5 == old && wordAt 0x40 t == r

/-- 95_test_vectors.md V-T11 to V-T22. -/
theorem test_amos :
    amos (.amoswapW 5#5 10#5 6#5 0#1 0#1) 7#32 9#32 9#32 = true ∧
    amos (.amoaddW 5#5 10#5 6#5 0#1 0#1) 0xFFFFFFFF#32 2#32 1#32 = true ∧
    amos (.amoxorW 5#5 10#5 6#5 0#1 0#1) 0xFF00FF00#32 0x0FF00FF0#32 0xF0F0F0F0#32 = true ∧
    amos (.amoandW 5#5 10#5 6#5 0#1 0#1) 0xFF00FF00#32 0x0FF00FF0#32 0x0F000F00#32 = true ∧
    amos (.amoorW 5#5 10#5 6#5 0#1 0#1) 0xF0F00000#32 0x0000F0F0#32 0xF0F0F0F0#32 = true ∧
    amos (.amominW 5#5 10#5 6#5 0#1 0#1) 0xFFFFFFFF#32 1#32 0xFFFFFFFF#32 = true ∧
    amos (.amomaxW 5#5 10#5 6#5 0#1 0#1) 0xFFFFFFFF#32 1#32 1#32 = true ∧
    amos (.amominuW 5#5 10#5 6#5 0#1 0#1) 0xFFFFFFFF#32 1#32 1#32 = true ∧
    amos (.amomaxuW 5#5 10#5 6#5 0#1 0#1) 0xFFFFFFFF#32 1#32 0xFFFFFFFF#32 = true := by decide

/-- The state with the reservation held on 0x40. -/
def reserved : State := (atomicFixture 0x11#32 0x99#32).setReservation 0x40#36 true

/-- 95_test_vectors.md V4 and V-T5. -/
theorem test_load_reserved :
    goes (exec (.lrW 5#5 10#5 0#1 0#1) (atomicFixture 0x11#32 0#32))
      (fun t => t.x 5#5 == 0x11#32 && t.reservedValid && t.reservedAddr == 0x40#36) = true := by decide

theorem test_store_conditional :
    goes (exec (.scW 7#5 10#5 6#5 0#1 0#1) reserved)
      (fun t => t.x 7#5 == 0#32 && wordAt 0x40 t == 0x99#32 && !t.reservedValid) = true ∧
    goes (exec (.scW 7#5 10#5 6#5 0#1 0#1) (atomicFixture 0x11#32 0x99#32))
      (fun t => t.x 7#5 == 1#32 && wordAt 0x40 t == 0x11#32 && !t.reservedValid) = true := by decide

/-- A byte store inside the reserved word ends the reservation (95_test_vectors.md V-T3, V-T4). -/
theorem test_store_ends_reservation :
    goes (exec (.sb 10#5 6#5 3#12) reserved) (fun t => !t.reservedValid) = true ∧
    goes (exec (.sw 10#5 6#5 4#12) reserved) (fun t => t.reservedValid) = true := by decide

-- ---- CSR and system instructions, in a mode, with `x2` = v ----

def csrRuns (p : Mode) (c : CsrBlock) (i : Instr) (v : Word) (P : State → Bool) : Bool :=
  goes (exec i (({ start with priv := p, csr := c } : State).setX 2#5 v)) P

/-- 95_test_vectors.md V-Z1, V-Z38, V-Z24. -/
theorem test_csr_register_forms :
    csrRuns .m { start.csr with mscratch := 0xAAAA#32 } (.csrrw 1#5 0x340#12 2#5) 0x5555#32
      (fun t => t.x 1#5 == 0xAAAA#32 && t.csr.mscratch == 0x5555#32) = true ∧
    csrRuns .m { start.csr with externalSeip := true } (.csrrs 1#5 0x344#12 2#5) 2#32
      (fun t => t.x 1#5 == 0x200#32 && t.csr.mip == 2#32) = true ∧
    csrRuns .m { start.csr with mie := 0xAAA#32 } (.csrrc 1#5 0x304#12 2#5) 0x80#32
      (fun t => t.x 1#5 == 0xAAA#32 && t.csr.mie == 0xA2A#32) = true := by decide

/-- 95_test_vectors.md V-Z23, V-Z20, V-Z21. -/
theorem test_csr_immediate_forms :
    csrRuns .m start.csr (.csrrwi 0#5 0x340#12 31#5) 0#32 (fun t => t.csr.mscratch == 31#32) = true ∧
    csrRuns .m start.csr (.csrrsi 0#5 0x300#12 8#5) 0#32 (fun t => t.csr.mstatus == 8#32) = true ∧
    csrRuns .m { start.csr with mstatus := 8#32 } (.csrrci 1#5 0x300#12 8#5) 0#32
      (fun t => t.csr.mstatus == 0#32 && t.x 1#5 == 8#32) = true := by decide

/-- 95_test_vectors.md V-Z3, V-Z4, V-Z5, V-Z9, V-Z18, V-Z25, V-Z29. -/
theorem test_csr_rules :
    csrRuns .m start.csr (.csrrw 0#5 0x300#12 2#5) 0xFFFFFFFF#32 (fun t => t.csr.mstatus == 0x000E19AA#32) = true ∧
    csrRuns .m { start.csr with mstatus := 0x800#32 } (.csrrw 0#5 0x300#12 2#5) 0x1000#32
      (fun t => t.csr.mstatus == 0x800#32) = true ∧
    csrRuns .m { start.csr with mstatus := 0x1888#32 } (.csrrw 0#5 0x100#12 2#5) 0xFFFFFFFF#32
      (fun t => t.csr.mstatus == 0x000C19AA#32) = true ∧
    csrRuns .m start.csr (.csrrw 0#5 0x302#12 2#5) 0xFFFFFFFF#32 (fun t => t.csr.medeleg == 0xB3FF#32) = true ∧
    csrRuns .m start.csr (.csrrs 1#5 0xF14#12 2#5) 0#32
      (fun t => t.csr.mcause == 2#32 && t.csr.mtval == 0xF14120F3#32) = true ∧
    csrRuns .s start.csr (.csrrs 1#5 0x300#12 0#5) 0#32
      (fun t => t.csr.mtval == 0x300020F3#32 && t.csr.mstatus == 0x800#32 && t.priv == .m) = true ∧
    csrRuns .u { start.csr with mcounteren := 1#32 } (.csrrs 1#5 0xC00#12 0#5) 0#32
      (fun t => t.csr.mtval == 0xC00020F3#32) = true := by decide

/-- 95_test_vectors.md V-S1, V-S4, V-S6. -/
theorem test_calls :
    csrRuns .u start.csr .ecall 0#32 (fun t => t.csr.mcause == 8#32 && t.csr.mepc == 0x1000#32 && t.csr.mstatus == 0#32) = true ∧
    csrRuns .s { start.csr with medeleg := 0x200#32, mstatus := 2#32 } .ecall 0#32
      (fun t => t.csr.scause == 9#32 && t.csr.sepc == 0x1000#32 && t.csr.mstatus == 0x120#32 && t.priv == .s &&
        t.pcNext == 0x800#32) = true ∧
    csrRuns .u start.csr .ebreak 0#32 (fun t => t.csr.mcause == 3#32 && t.csr.mtval == 0#32) = true := by decide

/-- 95_test_vectors.md V-S8, V-S9, V-S11, V-S12. -/
theorem test_trap_returns :
    csrRuns .m { start.csr with mstatus := 0x21880#32 } .mret 0#32 (fun t => t.priv == .m && t.csr.mstatus == 0x20088#32) = true ∧
    csrRuns .m { start.csr with mstatus := 0x20800#32, mepc := 0x2000#32 } .mret 0#32
      (fun t => t.priv == .s && t.csr.mstatus == 0x80#32 && t.pcNext == 0x2000#32) = true ∧
    csrRuns .s { start.csr with mstatus := 0x120#32, sepc := 0x3000#32 } .sret 0#32
      (fun t => t.priv == .s && t.csr.mstatus == 0x22#32 && t.pcNext == 0x3000#32) = true ∧
    csrRuns .m { start.csr with mstatus := 0x21800#32 } .sret 0#32
      (fun t => t.priv == .u && t.csr.mstatus == 0x1820#32) = true := by decide

/-- 95_test_vectors.md V-S10, V-S13, V-S16. -/
theorem test_privileged_below :
    csrRuns .s start.csr .mret 0#32 (fun t => t.csr.mcause == 2#32 && t.csr.mtval == 0x30200073#32) = true ∧
    csrRuns .u start.csr .sret 0#32 (fun t => t.csr.mcause == 2#32 && t.csr.mtval == 0x10200073#32) = true ∧
    csrRuns .u start.csr (.sfenceVma 0#5 0#5) 0#32 (fun t => t.csr.mtval == 0x12000073#32) = true := by decide

/-- 95_test_vectors.md V-S15, V-S17 to V-S19. -/
theorem test_wait_and_fences :
    csrRuns .u start.csr .wfi 0#32 (fun t => t.stdby && t.pcNext == 0x1004#32) = true ∧
    csrRuns .s start.csr (.sfenceVma 5#5 6#5) 0#32 (fun t => t.pcNext == 0x1004#32 && t.priv == .s) = true ∧
    csrRuns .u start.csr (.fence 0#4 15#4 15#4 0#5 0#5) 0#32 (fun t => t.pcNext == 0x1004#32) = true ∧
    csrRuns .u start.csr (.fenceI 0#12 0#5 0#5) 0#32 (fun t => t.pcNext == 0x1004#32) = true := by decide

-- ================ the source's scenarios, one step each ================

/-- V1 of 95_test_vectors.md. -/
theorem test_scenario_add :
    goes (step (put 0x1000 0x003100B3#32 ((start.setX 2#5 7#32).setX 3#5 5#32)))
      (fun t => t.x 1#5 == 12#32 && t.pc == 0x1004#32 && t.pcNext == 0x1008#32 && t.csr.cycle == 1#64 && t.csr.instret == 1#64 &&
        t.csr.mip == 0xA0#32) = true := by decide

/-- V2 of 95_test_vectors.md. -/
theorem test_scenario_illegal :
    goes (step { start with pc := 0x2000#32, pcNext := 0x2004#32 })
      (fun t => t.csr.mcause == 2#32 && t.csr.mepc == 0x2000#32 && t.csr.mtval == 0#32 && t.csr.mstatus == 0x1800#32 &&
        t.pc == 0x100#32 && t.pcNext == 0x104#32 && t.csr.cycle == 1#64 && t.csr.instret == 0#64) = true := by decide

/-- V3 of 95_test_vectors.md. -/
theorem test_scenario_ecall_delegated :
    goes (step (put 0x1000 0x00000073#32 { start with priv := .u, csr := { start.csr with medeleg := 0x100#32 } }))
      (fun t => t.priv == .s && t.csr.sepc == 0x1000#32 && t.csr.scause == 8#32 && t.csr.stval == 0#32 && t.csr.mstatus == 0#32 &&
        t.pc == 0x800#32 && t.csr.mcause == 0#32 && t.csr.instret == 0#64) = true := by decide

/-- The fixture of 95_test_vectors.md section 7, moved into the 64 KiB of `start`: root table at 0x2000, whose entry 1 leads to
the table at 0x3000 and whose entry 2 is `mega`; the leaf `pte` for virtual page 0x00400000; 0x12345678 at physical 0x4ABC. -/
def paged (p : Mode) (mstatus pte mega : Word) : State :=
  put 0x2004 0x00000C01#32 (put 0x2008 mega (put 0x3000 pte (put 0x4ABC 0x12345678#32
    { start with priv := p, csr := { start.csr with satp := 0x80000002#32, mstatus := mstatus } })))

/-- V5 of 95_test_vectors.md. -/
theorem test_scenario_sum :
    goes (exec (.lw 1#5 2#5 0#12) ((paged .m 0x20800#32 0x1013#32 0#32).setX 2#5 0x00400ABC#32))
      (fun t => t.csr.mcause == 13#32 && t.csr.mtval == 0x00400ABC#32 && t.x 1#5 == 0#32 && wordAt 0x3000 t == 0x1013#32) = true ∧
    goes (exec (.lw 1#5 2#5 0#12) ((paged .m 0x60800#32 0x1013#32 0#32).setX 2#5 0x00400ABC#32))
      (fun t => t.x 1#5 == 0x12345678#32 && wordAt 0x3000 t == 0x1053#32) = true := by decide

/-- V6 of 95_test_vectors.md. -/
theorem test_scenario_timer_interrupt :
    goes (step (put 0x1000 0x00000013#32 { start with
        csr := { start.csr with
          mtime := 100#64, mtimecmp := 50#64, mie := 0x80#32, mstatus := 8#32, scyclecmp := 0xFFFFFFFF#32 } }))
      (fun t => t.csr.mcause == 0x80000007#32 && t.csr.mepc == 0x1004#32 && t.csr.mip == 0x80#32 && t.csr.mstatus == 0x1880#32 &&
        t.pc == 0x100#32 && t.csr.instret == 1#64) = true := by decide

/-- From reset, with a word placed by `withFetchWord`, the first step runs it (log 13). -/
theorem test_first_step_runs_placed_word :
    goes (step (State.reset.withFetchWord 32 0x7FF00093)) (fun t => t.x 1#5 == 0x7FF#32 && t.pc == 0x1004#32) = true := by decide

/-- 95_test_vectors.md V-E22: a vector of mode 2 is fatal. -/
theorem test_bad_vector_fatal :
    exec .ecall { start with csr := { start.csr with mtvec := 0x102#32 } } = .fault .badTvecMode := by rfl

/-- 95_test_vectors.md V-K6, V-K7: byte lanes of `mtime`. -/
theorem test_timer_lanes :
    goes (exec (.sb 1#5 2#5 5#12)
        (({ start with csr := { start.csr with mtime := 0x0000000100000002#64 } }.setX 1#5 0xFF000000#32).setX 2#5 0xAB#32))
      (fun t => t.csr.mtime == 0x0000AB0100000002#64) = true ∧
    goes (exec (.lhu 3#5 1#5 4#12)
        ({ start with csr := { start.csr with mtime := 0x0000AB0100000002#64 } }.setX 1#5 0xFF000000#32))
      (fun t => t.x 3#5 == 0xAB01#32) = true := by decide

-- ================ witnesses: states and operands that meet the statements' hypotheses ================

/-- `start` with a word at its pc. -/
def code (w : Word) (s : State) : State := put 0x1000 w s

/-- DecodeOfEncode, EncodeOfDecode. -/
theorem test_witness_encoding :
    (Instr.jal 1#5 0x1FFFFE#21).wf = true ∧ (Instr.bgeu 31#5 31#5 0x1000#13).wf = true ∧
    decodeWord 0xFFDFF06F#32 = some (.jal 0#5 0x1FFFFC#21) := by decide

/-- UnexecutableTraps: a fetch that faults, with a legal and with a fatal vector; words that are no instruction. -/
theorem test_witness_unexecutable :
    (paged .s 0#32 0x1003#32 0#32).stdby = false ∧
    translation 0x00400000#32 .fetch (paged .s 0#32 0x1003#32 0#32) = none ∧
    HandlerReady .instructionPageFault (paged .s 0#32 0x1003#32 0#32) ∧
    ¬HandlerReady .illegalInstruction { start with csr := { start.csr with mtvec := 0x102#32 } } ∧
    (0x00000000#32).toNat % 4 ≠ 3 ∧ decodeWord 0xFFFFFFFF#32 = none := by decide

/-- DivisionIdentity. -/
theorem test_witness_division :
    ∃ tq tr uq ur, (1#5 : Reg) ≠ 0#5 ∧ exec (.div 1#5 2#5 3#5) start = .next tq ∧ exec (.rem 1#5 2#5 3#5) start = .next tr ∧
      exec (.divu 1#5 2#5 3#5) start = .next uq ∧ exec (.remu 1#5 2#5 3#5) start = .next ur :=
  ⟨_, _, _, _, by decide, rfl, rfl, rfl, rfl⟩

/-- JumpsTransfer: an aligned and a misaligned target of JAL, an aligned and a misaligned one of JALR, and a wrap of the pc. -/
theorem test_witness_jumps :
    start.pc.toNat % 4 = 0 ∧ IsSum 0x1004#32 start.pc 4 ∧
    (Instr.jal 1#5 0x100000#21).wf = true ∧ IsSum 0xFFF01000#32 start.pc (0x100000#21).toInt ∧ (0xFFF01000#32).toNat % 4 = 0 ∧
    (Instr.jal 1#5 0x0FFFFE#21).wf = true ∧ IsSum 0x00100FFE#32 start.pc (0x0FFFFE#21).toInt ∧ (0x00100FFE#32).toNat % 4 ≠ 0 ∧
    IsSum 0xFFFFFFFE#32 ((start.setX 2#5 2#32).x 2#5) (0xFFC#12).toInt ∧ (0xFFFFFFFE#32).toNat / 2 * 2 % 4 ≠ 0 ∧
    IsSum 0x00002001#32 ((start.setX 2#5 0x2000#32).x 2#5) (1#12).toInt ∧ (0x2001#32).toNat / 2 * 2 % 4 = 0 := by decide

/-- BranchesDecide: taken to an aligned and to a misaligned target, and not taken. -/
theorem test_witness_branches :
    branchOffsetWf 0x1000#13 ∧ branchOffsetWf 0x0FFE#13 ∧ start.pc.toNat % 4 = 0 ∧ start.x 1#5 = start.x 2#5 ∧
    IsSum 0x0000#32 start.pc (0x1000#13).toInt ∧ (0x0000#32).toNat % 4 = 0 ∧
    IsSum 0x1FFE#32 start.pc (0x0FFE#13).toInt ∧ (0x1FFE#32).toNat % 4 ≠ 0 ∧ ¬start.x 1#5 ≠ start.x 2#5 := by decide

/-- The address of the fixture's page, with `x2` pointing to it. -/
def pagedAt (pte : Word) : State := (paged .u 0#32 pte 0#32).setX 2#5 0x00400ABC#32

/-- LoadsComplete, StoresComplete, AmoCompletes, LoadReservedCompletes, StoreConditionalCompletes: a translated access, an
untranslated one, and for loads and stores a timer hit. -/
theorem test_witness_accesses :
    (pagedAt 0x1017#32).mem.wf ∧ start.mem.wf ∧
    IsSum 0x00400ABC#32 ((pagedAt 0x1017#32).x 2#5) (0#12).toInt ∧ timerHit 0x00400ABC#32 .word (pagedAt 0x1017#32) = none ∧
    translation 0x00400ABC#32 .read (pagedAt 0x1017#32) =
      some { phys := 0x4ABC#36, writeBack := some (0x3000#36, 0x1057#32) } ∧
    translation 0x00400ABC#32 .write (pagedAt 0x1017#32) =
      some { phys := 0x4ABC#36, writeBack := some (0x3000#36, 0x10D7#32) } ∧
    (0x00400ABC#32).toNat % 4 = 0 ∧
    translation 0xFFFFFFFC#32 .read start = some { phys := 0x0FFFFFFFC#36, writeBack := none } ∧
    timerHit 0xFF000000#32 .word start = some .mtime ∧ timerHit 0xFF00000F#32 .byte start = some .mtimecmp := by decide

/-- StoreConditionalCompletes: the reservation held and not held; ReservationProbe likewise. -/
theorem test_witness_reservation :
    reserved.mem.wf ∧ translation (reserved.x 10#5) .write reserved = some { phys := 0x40#36, writeBack := none } ∧
    (reserved.x 10#5).toNat % 4 = 0 ∧ (reserved.reservedValid = true ∧ reserved.reservedAddr.toNat = (0x43#36).toNat / 4 * 4) ∧
    ¬(reserved.reservedValid = true ∧ reserved.reservedAddr.toNat = (0x44#36).toNat / 4 * 4) ∧
    (pmWrite 0x43#36 .byte 5#32 true reserved).1 = true := by decide

/-- DataAccessTraps: a translation that fails, and a misaligned access whose translation succeeds. -/
theorem test_witness_access_traps :
    (pagedAt 0x1013#32).mem.wf ∧ IsSum 0x00400ABC#32 ((pagedAt 0x1013#32).x 2#5) (0#12).toInt ∧
    translation 0x00400ABC#32 .write (pagedAt 0x1013#32) = none ∧ translation 0x00400ABC#32 .read (pagedAt 0x1007#32) = none ∧
    (translation 0x00400ABF#32 .read (pagedAt 0x1013#32)).isSome = true ∧ (0x00400ABF#32).toNat % bytesOf .half ≠ 0 ∧
    (translation 0x00400ABE#32 .write (pagedAt 0x1017#32)).isSome = true ∧ (0x00400ABE#32).toNat % bytesOf .word ≠ 0 ∧
    HandlerReady .storeAmoPageFault (pagedAt 0x1013#32) := by decide

/-- TimerWindow: the first and the last byte of each register, and the bytes around them. -/
theorem test_witness_timer_window :
    start.platform.wf ∧ effPriv .read start = .m ∧
    timerHit 0xFEFFFFFF#32 .byte start = none ∧ timerHit 0xFF000000#32 .byte start = some .mtime ∧
    timerHit 0xFF000007#32 .byte start = some .mtime ∧ timerHit 0xFF000008#32 .word start = some .mtimecmp ∧
    timerHit 0xFF00000F#32 .byte start = some .mtimecmp ∧ timerHit 0xFF000010#32 .byte start = none ∧
    timerHit 0xFF000002#32 .word start = none := by decide

/-- CsrInstructionsRun: a granted write, a granted shadow at the edge of its range, and accesses that are not granted. -/
theorem test_witness_csr :
    CsrGranted 0x340#12 True start .mscratch ∧
    CsrGranted 0xC1F#12 False { start with priv := .u, csr := { start.csr with mcounteren := 0x80000000#32, scounteren := 0x80000000#32 } }
      (.hpmcounter 28) ∧
    csrOf start.platform 0xB01#12 = none ∧ csrOf start.platform 0x7C0#12 = none ∧
    ¬CsrGranted 0xC00#12 False { start with priv := .s } .cycle ∧ ¬CsrGranted 0xF14#12 True start .mhartid := by
  refine ⟨⟨by decide, by decide, by decide, by decide⟩, ⟨by decide, by decide, by decide, by decide⟩, by decide, by decide, ?_, ?_⟩
  · intro h; exact absurd (h.2.2.2 (by decide)).1 (by decide)
  · intro h; exact h.2.2.1 ⟨trivial, by decide⟩

/-- CallsEnterHandler: a call that goes to M, one that goes to S, and a breakpoint. -/
theorem test_witness_calls :
    HandlerReady .environmentCallFromM start ∧ ¬GoesToS .environmentCallFromM start ∧
    HandlerReady .environmentCallFromU { start with priv := .u, csr := { start.csr with medeleg := 0x100#32 } } ∧
    GoesToS .environmentCallFromU { start with priv := .u, csr := { start.csr with medeleg := 0x100#32 } } ∧
    HandlerReady .breakpoint start := by decide

/-- TrapReturnsRestore and PrivilegedTrapBelow: the modes that may and may not. -/
theorem test_witness_returns :
    start.priv = .m ∧ start.priv ≠ .u ∧ ({ start with priv := .s } : State).priv ≠ .m ∧ ({ start with priv := .u } : State).priv = .u ∧
    HandlerReady .illegalInstruction { start with priv := .u } := by decide

/-- MachineTrapEntry, SupervisorTrapEntry, VectorAndCause: each mode field of a vector register. -/
theorem test_witness_vectors :
    trapVector 0x100#32 (.exception .breakpoint) = some 0x100#32 ∧ trapVector 0x101#32 (.interrupt .mti) = some 0x11C#32 ∧
    trapVector 0x801#32 (.interrupt .sei) = some 0x824#32 ∧ trapVector 0x102#32 (.interrupt .sei) = none ∧
    trapVector 0x103#32 (.exception .breakpoint) = none := by decide

/-- ExceptionDelegation: delegated and not, and a next state. -/
theorem test_witness_delegation :
    (∃ t, handleException .breakpoint start = .next t) ∧
    GoesToS .breakpoint { start with priv := .s, csr := { start.csr with medeleg := 8#32 } } ∧
    ¬GoesToS .breakpoint { start with csr := { start.csr with medeleg := 8#32 } } := ⟨⟨_, rfl⟩, by decide, by decide⟩

/-- ExceptionsPrecise and ModeChangesOnlyByTraps: a trap to M that wrote a page-table entry, a trap to S, and a return. -/
theorem test_witness_precise :
    (∃ t, exec (.lw 1#5 2#5 2#12) (pagedAt 0x1017#32) = .next t ∧ (t.exc == some .loadAddressMisaligned && t.priv == .m) = true) ∧
    (∃ t, exec .ebreak { start with priv := .u, csr := { start.csr with medeleg := 8#32 } } = .next t ∧
      (t.exc == some .breakpoint && t.priv == .s) = true) ∧
    (∃ t, exec .mret start = .next t ∧ (t.exc == none && t.priv == .u) = true) ∧
    (pagedAt 0x1017#32).exc = none ∧ start.exc = none :=
  ⟨goes_next (by decide), goes_next (by decide), goes_next (by decide), rfl, rfl⟩

/-- CycleCountsTicks, TimersRecomputed, InstretCountsCompletions, EventCountersAdvance: a tick that completes its instruction, one
that traps, and one in standby. -/
theorem test_witness_ticks :
    (∃ s1, phase1 false (code 0x00000013#32 start) = .next s1 ∧ (s1.exc == none && !s1.stdby) = true) ∧
    (∃ t, tickWith 1#64 false (code 0x00000013#32 start) = .next t ∧ (t.csr.cycle == 1#64) = true) ∧
    (∃ s1, phase1 false start = .next s1 ∧ (s1.exc == some .illegalInstruction) = true) ∧
    (∃ t, tickWith 1#64 false start = .next t ∧ (t.csr.instret == 0#64) = true) ∧
    (∃ s1, phase1 false { start with stdby := true } = .next s1 ∧ (s1.stdby) = true) ∧
    (∃ t, tickWith 1#64 false { start with stdby := true } = .next t ∧ (t.stdby) = true) :=
  ⟨goes_next (by decide), goes_next (by decide), goes_next (by decide), goes_next (by decide), goes_next (by decide),
    goes_next (by decide)⟩

/-- The state of 95_test_vectors.md section 10: a mode, `mstatus`, `mie`, `mip`, `mideleg`. -/
def pending (p : Mode) (mstatus mie mip mideleg : Word) : State :=
  { start with priv := p, csr := { start.csr with mstatus := mstatus, mie := mie, mip := mip, mideleg := mideleg } }

/-- InterruptPriority: the first and the last of the M order, the last of the S order, and none. -/
theorem test_witness_interrupts :
    TakableM .mei (pending .m 8#32 0xAAA#32 0xAAA#32 0#32) ∧
    (TakableM .sti (pending .m 8#32 0x20#32 0x20#32 0#32) ∧ ∀ j ∈ beforeM .sti, ¬TakableM j (pending .m 8#32 0x20#32 0x20#32 0#32)) ∧
    ((∀ j, ¬TakableM j (pending .s 2#32 0x20#32 0x20#32 0x222#32)) ∧ TakableS .sti (pending .s 2#32 0x20#32 0x20#32 0x222#32) ∧
      ∀ j ∈ beforeS .sti, ¬TakableS j (pending .s 2#32 0x20#32 0x20#32 0x222#32)) ∧
    ((∀ j, ¬TakableM j (pending .m 0xA#32 0x20#32 0x20#32 0x222#32)) ∧
      ∀ j, ¬TakableS j (pending .m 0xA#32 0x20#32 0x20#32 0x222#32)) := by
  refine ⟨by decide, ⟨by decide, by decide⟩, ⟨fun j => ?_, by decide, by decide⟩, ⟨fun j => ?_, fun j => ?_⟩⟩ <;>
    cases j <;> decide

/-- DelegationMasksInterrupts: M-mode with every pending interrupt delegated, U-mode with one that is not, and a delegated and a
non-delegated one pending together. -/
theorem test_witness_delegation_masks :
    (∃ t, tryInterrupt (pending .m 0xA#32 0x20#32 0x20#32 0x222#32) = .next t ∧ (t.priv == .m) = true) ∧
    (∀ i, PendingEnabled i (pending .m 0xA#32 0x20#32 0x20#32 0x222#32) →
      (pending .m 0xA#32 0x20#32 0x20#32 0x222#32).csr.mideleg.getLsbD (interruptCode i) = true) ∧
    (∃ t, tryInterrupt (pending .u 0#32 0x80#32 0x80#32 0#32) = .next t ∧ (t.priv == .m) = true) ∧
    PendingEnabled .mti (pending .u 0#32 0x80#32 0x80#32 0#32) ∧
    (∃ t, tryInterrupt (pending .m 0xA#32 0x280#32 0x280#32 0x222#32) = .next t ∧ (t.csr.mcause == 0x80000007#32) = true) ∧
    (∃ t, tryInterrupt (pending .u 0#32 0x220#32 0x220#32 0x222#32) = .next t ∧ (t.csr.scause == 0x80000009#32) = true) := by
  refine ⟨goes_next (by decide), fun i => ?_, goes_next (by decide), by decide, goes_next (by decide), goes_next (by decide)⟩
  cases i <;> decide

/-- ExceptionExcludesInterrupt: an exception with an interrupt pending and enabled (95_test_vectors.md V-E43). -/
theorem test_witness_exception_first :
    (∃ s1, phase1 false (code 0x00000073#32 (pending .m 8#32 0x800#32 0x800#32 0#32)) = .next s1 ∧
      (s1.exc == some .environmentCallFromM) = true) ∧
    (∃ t, tickWith 0#64 false (code 0x00000073#32 (pending .m 8#32 0x800#32 0x800#32 0#32)) = .next t ∧
      (t.csr.mepc == 0x1000#32 && t.csr.mcause == 11#32) = true) := ⟨goes_next (by decide), goes_next (by decide)⟩

/-- StandbyTick: a tick that stays in standby, one that leaves it to M and one that leaves it to S. -/
theorem test_witness_standby :
    (∃ t, tickWith 0#64 false { start with stdby := true } = .next t ∧ t.stdby = true) ∧
    (∃ t, tickWith 0#64 false { pending .m 8#32 0x800#32 0x800#32 0#32 with stdby := true } = .next t ∧
      (!t.stdby && t.priv == .m) = true) ∧
    (∃ t, tickWith 0#64 false { pending .s 2#32 0x20#32 0x20#32 0x222#32 with stdby := true } = .next t ∧
      (!t.stdby && t.priv == .s) = true) := ⟨goes_next (by decide), goes_next (by decide), goes_next (by decide)⟩

/-- A state with its accounting done. -/
def accounted (s : State) : State := account s.priv s.stdby 0#64 s

/-- QuietTickAdvances: interrupts pending and enabled of which none is takable, awake and in standby; one that enters M and one that
enters S through a vector of mode 1. -/
theorem test_witness_quiet_tick :
    start.exc = none ∧
    ((∀ i, ¬TakableM i (accounted (pending .m 0#32 0xAAA#32 0xA0A#32 0x222#32))) ∧
      ∀ i, ¬TakableS i (accounted (pending .m 0#32 0xAAA#32 0xA0A#32 0x222#32))) ∧
    ((∀ i, ¬TakableM i (accounted { pending .s 0#32 0x222#32 0x222#32 0x222#32 with stdby := true })) ∧
      ∀ i, ¬TakableS i (accounted { pending .s 0#32 0x222#32 0x222#32 0x222#32 with stdby := true })) ∧
    TakenM .mei (accounted (pending .u 0#32 0x800#32 0x800#32 0#32)) ∧
    TakenS .ssi (accounted (pending .s 2#32 0x2#32 0x2#32 0x222#32)) ∧
    trapVector 0x101#32 (.interrupt .mei) = some 0x12C#32 ∧ trapVector 0x801#32 (.interrupt .ssi) = some 0x804#32 ∧
    (code 0x00000013#32 start).csr.tvalNext = 0#32 ∧
    ∃ s1, phase1 false (code 0x00000013#32 start) = .next s1 ∧ (s1.exc == none) = true := by
  refine ⟨rfl, ⟨fun i => ?_, fun i => ?_⟩, ⟨fun i => ?_, fun i => ?_⟩, ⟨by decide, by decide⟩,
    ⟨fun j => ?_, by decide, by decide⟩, by decide, by decide, rfl, goes_next (by decide)⟩
  all_goals first | (cases i <;> decide) | (cases j <;> decide)

/-- A frame of `start` is RAM. -/
theorem frame_in_ram {s : State} (hp : s.platform.wf) (hr : s.inRam 0x1000#36 = true) :
    ∀ phys : PAddr, frameOf phys.toNat = 0x1000 → s.inRam phys = true :=
  fun _ h => inRam_frame hp hr h

/-- `start` with the frame at 0x1000 decoded and valid, holding a no-operation at the pc. -/
def decodedStart : State :=
  { code 0x00000013#32 start with dic := [decodedNow 0x1000 (code 0x00000013#32 start)], valid := [0x1000] }

/-- The same with a stale entry: the frame was written since, and is no longer valid. -/
def staleStart : State :=
  { code 0x00000013#32 start with dic := [decodedNow 0x1000 start], valid := [] }

/-- FetchSeesMemory: a coherent cache with a valid entry, and one with a stale entry. -/
theorem test_witness_cache :
    decodedStart.platform.wf ∧ DicCoherent decodedStart ∧ staleStart.platform.wf ∧ DicCoherent staleStart ∧
    staleStart.dic ≠ decodedStart.dic := by
  refine ⟨by decide, ⟨by decide, ?_, ?_⟩, by decide, ⟨by decide, ?_, ?_⟩, by decide⟩
  · intro e he
    obtain rfl := List.mem_singleton.mp he
    exact frame_in_ram (by decide) (by decide)
  · intro e he _
    obtain rfl := List.mem_singleton.mp he
    rfl
  · intro e he
    obtain rfl := List.mem_singleton.mp he
    exact frame_in_ram (by decide) (by decide)
  · intro e he hv
    cases hv

/-- StepRunsDecoded: an untranslated fetch through the cache, and a translated one. -/
theorem test_witness_step :
    decodedStart.mem.wf ∧ decodedStart.platform.wf ∧ DicCoherent decodedStart ∧ decodedStart.finished = false ∧
    decodedStart.stdby = false ∧ (nextInput decodedStart).ops = [] ∧ (nextInput decodedStart).allocFails = false ∧
    translation decodedStart.pc .fetch decodedStart = some { phys := 0x1000#36, writeBack := none } ∧
    (paged .u 0#32 0x1019#32 0#32).mem.wf ∧ DicCoherent (paged .u 0#32 0x1019#32 0#32) ∧
    translation 0x00400000#32 .fetch (paged .u 0#32 0x1019#32 0#32) =
      some { phys := 0x4000#36, writeBack := some (0x3000#36, 0x1059#32) } :=
  ⟨by decide, by decide, test_witness_cache.2.1, rfl, rfl, rfl, rfl, by decide, by decide,
    ⟨List.Pairwise.nil, fun _ h => (by cases h), fun _ h => (by cases h)⟩, by decide⟩

/-- TranslationWalk, TranslationEffects: bare, a 4 KiB page, a megapage, and no hit; MPRV selects the privilege. -/
theorem test_witness_walk :
    (start.csr.satp.toNat < 2 ^ 31) ∧
    2 ^ 31 ≤ (paged .s 0x40000#32 0x1017#32 0x00100007#32).csr.satp.toNat ∧
    effPriv .read (paged .s 0x40000#32 0x1017#32 0x00100007#32) ≠ .m ∧
    MegaHit 0x00801234#32 .write (paged .s 0x40000#32 0x1017#32 0x00100007#32) ∧
    EntryValid (entry1 0x00400ABC#32 (paged .s 0x40000#32 0x1017#32 0x00100007#32)) ∧
    ¬EntryLeaf (entry1 0x00400ABC#32 (paged .s 0x40000#32 0x1017#32 0x00100007#32)) ∧
    EntryLeaf (entry0 0x00400ABC#32 (paged .s 0x40000#32 0x1017#32 0x00100007#32)) ∧
    EntryAllows (entry0 0x00400ABC#32 (paged .s 0x40000#32 0x1017#32 0x00100007#32)) .read .s 0x40000#32 ∧
    ¬EntryValid (entry1 0x00C00000#32 (paged .s 0x40000#32 0x1017#32 0x00100007#32)) ∧
    (0x20800#32 : Word).getLsbD 17 = true ∧ (0x20800#32 : Word).toNat / 2 ^ 11 % 4 = modeNum .s := by
  refine ⟨by decide, by decide, by decide, ⟨by decide, by decide, by decide, ?_⟩, by decide, by decide, by decide, ?_,
    by decide, by decide, by decide⟩
  · exact ⟨by decide, by decide, by decide, by decide, by decide⟩
  · exact ⟨by decide, by decide, by decide, by decide, by decide⟩

/-- A platform with RAM, ROM and a device. -/
def threeRegions : State :=
  { start with platform := { start.platform with
    regions := [{ start := 0, size := 0x1000, writable := true, backing := .buffer },
      { start := 0x1000, size := 0x1000, writable := false, backing := .buffer },
      { start := 0x20000, size := 4, writable := true, backing := .device }] } }

/-- PhysicalReads, PhysicalWrites: RAM, ROM, a device, no region, at the edges of the regions. -/
theorem test_witness_physical :
    threeRegions.platform.wf ∧ threeRegions.mem.wf ∧
    (threeRegions.regionAt 0xFFF#36).map (·.writable) = some true ∧ (threeRegions.regionAt 0x1000#36).map (·.writable) = some false ∧
    (threeRegions.regionAt 0x20003#36).map (·.backing) = some .device ∧ threeRegions.regionAt 0x20004#36 = none ∧
    threeRegions.regionAt 0x2000#36 = none ∧ (pmWrite 0x20000#36 .word 5#32 true threeRegions).1 = true ∧
    (pmWrite 0x1000#36 .word 5#32 true threeRegions).1 = false := by decide

/-- CsrNumbersNamed: a row of the map, a number of no row, `scyclecmp` under its own number, and under that of another row. -/
theorem test_witness_csr_numbers :
    csrOf start.platform 0x33F#12 = some (.mhpmevent 28) ∧ csrOf start.platform 0xB01#12 = none ∧
    csrOf start.platform 0x5C0#12 = some .scyclecmp ∧
    csrOf { start.platform with scyclecmpCsr := 0x105#12 } 0x105#12 = some .stvec ∧
    csrOf { start.platform with scyclecmpCsr := 0x105#12 } 0x5C0#12 = none := by decide

/-- A noisy host load that faults, before the tick of an ECALL: the trap value is 0 (46_system.md R342; log 12). -/
theorem test_host_fault_leaves_no_trap_value :
    goes (step { put 0x1000 0x00000073#32 { start with csr := { start.csr with satp := 0x80000002#32, mstatus := 0x20800#32 } } with
        inputs := [{ ops := [.readMem 0x00800000#32 .word false true], timeDelta := 0#64, allocFails := false }] })
      (fun t => t.csr.mcause == 11#32 && t.csr.mtval == 0#32) = true := by decide

/-- HostAccess, InterruptLines, InitResets. -/
theorem test_witness_host :
    start.finished = false ∧ IsSum 0x0#32 0xFFFFFFFC#32 4 ∧ (0xFFFFFFFC#32).toNat % 4 = 0 ∧ IsSum 0x1006#32 0x1002#32 4 ∧
    (0x1002#32).toNat % 4 ≠ 0 ∧ (11 : Nat) ≠ 9 ∧ (∃ t, applyHostOp (.init 7#32) start = .next t ∧ (t.csr.mhartid == 7#32) = true) :=
  ⟨rfl, by decide, by decide, by decide, by decide, by decide, goes_next (by decide)⟩

/-- StepKeepsInv: a good state with a cache in use, and its step. -/
theorem test_witness_invariant : Inv decodedStart ∧ ∃ t, step decodedStart = .next t ∧ (t.pc == 0x1004#32) = true :=
  ⟨⟨⟨by decide, by decide, by decide, by decide, by decide, by decide, by decide, by decide, by decide⟩, ⟨by decide, by decide⟩,
    ⟨by decide, by decide, by decide⟩, by decide, by decide, by decide, by decide, test_witness_cache.2.1⟩, goes_next (by decide)⟩

/-- LowerModesLeaveMachineState: an instruction that completes in U-mode and a CSR write that completes in S-mode. -/
theorem test_witness_lower_modes :
    start.platform.wf ∧ start.csr.mstatus.getLsbD 17 = false ∧ start.exc = none ∧
    (∃ t, exec (.addi 1#5 0#5 1#12) { start with priv := .u } = .next t ∧ (t.exc == none) = true) ∧
    (∃ t, exec (.csrrwi 0#5 0x100#12 31#5) { start with priv := .s } = .next t ∧
      (t.exc == none && t.csr.mstatus == 0x2#32) = true) :=
  ⟨by decide, by decide, rfl, goes_next (by decide), goes_next (by decide)⟩

end Sys2Proof.Tests
end

section
/-! PROOF. What a CSR write below M-mode can touch, and what an instruction keeps whatever its operands. -/

namespace Sys2Proof.Machine

-- ---- CSR writes below M-mode ----

/-- The registers that a write below M-mode can reach: the S-level ones and `scyclecmp` (spec 10_state.md R41). -/
def CsrReg.sLevel : CsrReg → Bool
  | .sstatus | .sie | .stvec | .scounteren | .sscratch | .sepc | .scause | .stval | .sip | .satp | .scyclecmp => true
  | _ => false

theorem csrMinPriv_eq (n : CsrNum) : csrMinPriv n = n.toNat / 256 % 4 := by
  simp [csrMinPriv, BitVec.extractLsb'_toNat, Nat.shiftRight_eq_div_pow]

theorem csrReadOnly_iff (n : CsrNum) : csrReadOnly n = true ↔ n.toNat / 1024 = 3 := by
  have := n.isLt
  simp only [csrReadOnly, beq_iff_eq, ← BitVec.toNat_inj, BitVec.extractLsb'_toNat, Nat.shiftRight_eq_div_pow,
    BitVec.toNat_ofNat]
  omega

/-- A writable number of the fixed list belongs to M-mode, or names an S-level register. -/
theorem fixedCsrs_writable : ∀ e ∈ fixedCsrs, csrReadOnly e.1 = false →
    csrMinPriv e.1 = 3 ∨ (e.2.sLevel = true ∧ csrMinPriv e.1 = 1) := by decide

/-- A writable number belongs to M-mode, or names an S-level register by a number of S-mode or the platform's own. -/
theorem csrOf_writable {p : Platform} {n : CsrNum} {r : CsrReg} (h : csrOf p n = some r) (hw : csrReadOnly n = false) :
    csrMinPriv n = 3 ∨ (r.sLevel = true ∧ (csrMinPriv n = 1 ∨ n = p.scyclecmpCsr)) := by
  rcases csrOf_some h with hf | ⟨i, hi⟩ | ⟨hn, rfl⟩
  · exact (fixedCsrs_writable _ hf hw).imp_right fun ⟨hr, hp⟩ => ⟨hr, .inl hp⟩
  · left
    have hro : ¬n.toNat / 1024 = 3 := fun h3 => by simp [(csrReadOnly_iff n).mpr h3] at hw
    rw [csrMinPriv_eq]
    omega
  · exact .inr ⟨rfl, .inr hn⟩

/-- A write that is granted below M-mode is one of an S-level register. -/
theorem csrCheck_sLevel {n : CsrNum} {s : State} {r : CsrReg} (h : csrCheck n true s = some r) (hp : s.priv ≠ .m) :
    r.sLevel = true := by
  obtain ⟨hof, hmin, hro, -⟩ := csrCheck_some h
  rcases csrOf_writable hof (by simpa using hro) with h3 | ⟨hr, -⟩
  · cases hm : s.priv <;> simp_all [modeNum]
  · exact hr

/-- On a well-formed platform no write is granted in U-mode (spec 10_state.md R41; 00_scope.md R9). -/
theorem csrCheck_priv_ne_u {n : CsrNum} {s : State} {r : CsrReg} (hw : s.platform.wf) (h : csrCheck n true s = some r) :
    s.priv ≠ .u := by
  intro hu
  obtain ⟨hof, hmin, hro, -⟩ := csrCheck_some h
  obtain ⟨-, -, -, -, hs, -⟩ := hw
  have hcmp : csrMinPriv s.platform.scyclecmpCsr = 1 := by simp [csrMinPriv, hs]
  rw [hu, modeNum] at hmin
  rcases csrOf_writable hof (by simpa using hro) with h3 | ⟨-, h1 | rfl⟩ <;> omega

/-- A masked write leaves alone what a mask apart from its own shows. -/
theorem maskedWrite_and_of_disjoint {m k : Word} (h : m &&& k = 0#32) (old new : Word) :
    maskedWrite m old new &&& k = old &&& k := by
  apply word_ext
  intro i _
  have hi := congrArg (fun w : Word => w.getLsbD i) h
  simp only [BitVec.getLsbD_and, BitVec.getLsbD_zero, getLsbD_maskedWrite] at hi ⊢
  cases hm : m.getLsbD i <;> simp_all

/-- The CSR block as far as the machine level alone owns it: the S-level registers left out, of `mstatus` and `mie` the M-level
bits, of `mip` every bit but SSIP (spec 10_state.md R43, R48, R50). -/
def CsrBlock.machineView (c : CsrBlock) : CsrBlock :=
  { c with
    mstatus := c.mstatus &&& 0x00021888#32
    mie := c.mie &&& 0x00000888#32
    mip := c.mip &&& 0xFFFFFFFD#32
    stvec := 0#32, scounteren := 0#32, sscratch := 0#32, sepc := 0#32, scause := 0#32, stval := 0#32, satp := 0#32
    scyclecmp := 0#32 }

/-- A write of an S-level register leaves the machine level alone. -/
theorem writeCsr_machineView {r : CsrReg} (hr : r.sLevel = true) (v : Word) (c : CsrBlock) :
    (writeCsr r v c).machineView = c.machineView := by
  have hstatus := maskedWrite_and_of_disjoint (m := sstatusMask) (k := 0x00021888#32) rfl c.mstatus v
  have hie := maskedWrite_and_of_disjoint (m := sIntMask) (k := 0x00000888#32) rfl c.mie v
  have hip := maskedWrite_and_of_disjoint (m := 0x00000002#32) (k := 0xFFFFFFFD#32) rfl c.mip v
  cases r <;> simp_all [CsrReg.sLevel, writeCsr, CsrBlock.machineView]

/-- What the machine level's view fixes of `mstatus`. -/
theorem mstatus_bit_of_machineView {c d : CsrBlock} (h : d.machineView = c.machineView) {k : Nat}
    (hk : (0x00021888#32 : Word).getLsbD k = true) : d.mstatus.getLsbD k = c.mstatus.getLsbD k := by
  have hb := congrArg (fun b : CsrBlock => b.mstatus.getLsbD k) h
  simpa [CsrBlock.machineView, hk] using hb

/-- What the machine level's view fixes of `mie`. -/
theorem mie_bit_of_machineView {c d : CsrBlock} (h : d.machineView = c.machineView) {k : Nat}
    (hk : (0x00000888#32 : Word).getLsbD k = true) : d.mie.getLsbD k = c.mie.getLsbD k := by
  have hb := congrArg (fun b : CsrBlock => b.mie.getLsbD k) h
  simpa [CsrBlock.machineView, hk] using hb

/-- What the machine level's view fixes of `mip`. -/
theorem mip_bit_of_machineView {c d : CsrBlock} (h : d.machineView = c.machineView) {k : Nat} (hk : k ≠ 1) :
    d.mip.getLsbD k = c.mip.getLsbD k := by
  by_cases h32 : k < 32
  · have hb := congrArg (fun b : CsrBlock => b.mip.getLsbD k) h
    have hm : (0xFFFFFFFD#32 : Word).getLsbD k = true := by
      rw [show (0xFFFFFFFD#32 : Word) = setBit (BitVec.allOnes 32) 1 false from rfl, getLsbD_setBit,
        if_neg (fun h1 => hk h1.1), BitVec.getLsbD_allOnes, decide_eq_true h32]
    simpa [CsrBlock.machineView, hm] using hb
  · rw [BitVec.getLsbD_of_ge _ _ (by omega), BitVec.getLsbD_of_ge _ _ (by omega)]

-- ---- what every instruction keeps, whatever its offset and the pc ----

variable {P : State → Prop} {s t : State}

theorem Kept.jumpTo_of_setPcNext (hP : Kept P) (hj : ∀ x w, P x → P (x.setPcNext w)) {target : Word} {link : State → State}
    (hl : ∀ x, P x → P (link x)) (hs : P s) (h : Machine.jumpTo target link s = .next t) : P t := by
  unfold Machine.jumpTo at h
  split at h
  · exact hP.trap _ _ _ h hs
  · cases h; exact hj _ _ (hl _ hs)

theorem Kept.branchIf_of_setPcNext (hP : Kept P) (hj : ∀ x w, P x → P (x.setPcNext w)) {taken : Bool} {off : BitVec 13}
    (hs : P s) (h : Machine.branchIf taken off s = .next t) : P t := by
  unfold Machine.branchIf at h
  split at h
  · exact hP.jumpTo_of_setPcNext hj (fun _ hx => hx) hs h
  · cases h; exact hs

/-- A property that says nothing of `pc_next` is kept by every instruction, well-formed or not, wherever it is executed. -/
theorem Kept.exec_of_setPcNext (hP : Kept P) (hj : ∀ x w, P x → P (x.setPcNext w)) {i : Instr} (hs : P s)
    (hmret : s.priv = .m → P (returnM s)) (hsret : s.priv ≠ .u → P (returnS s)) (hwfi : P (s.setStdby true))
    (h : Machine.exec i s = .next t) : P t := by
  cases i <;> simp only [Machine.exec] at h
  case lui | auipc | addi | slti | sltiu | xori | ori | andi | slli | srli | srai | add | sub | sll | slt | sltu | xor | srl
      | sra | or | and | mul | mulh | mulhsu | mulhu | div | divu | rem | remu =>
    exact hP.writeReg hs h
  case jal | jalr => exact hP.jumpTo_of_setPcNext hj (fun _ hx => hP.reg _ _ _ hx) hs h
  case beq | bne | blt | bge | bltu | bgeu => exact hP.branchIf_of_setPcNext hj hs h
  case lb | lh | lw | lbu | lhu => exact hP.loadOp hs h
  case sb | sh | sw => exact hP.storeOp hs h
  case lrW => exact hP.lr hs h
  case scW => exact hP.sc hs h
  case amoswapW | amoaddW | amoxorW | amoandW | amoorW | amominW | amomaxW | amominuW | amomaxuW => exact hP.amoOp hs h
  case csrrw | csrrs | csrrc | csrrwi | csrrsi | csrrci => exact hP.csrOp hs h
  case fence | fenceI => cases h; exact hs
  case ecall | ebreak => exact hP.trap _ _ _ h hs
  case mret =>
    unfold execMret at h
    split at h
    · rename_i hm; cases h; exact hmret hm
    · exact hP.trap _ _ _ h hs
  case sret =>
    unfold execSret at h
    split at h
    · exact hP.trap _ _ _ h hs
    · rename_i hm; cases h; exact hsret hm
  case wfi => cases h; exact hwfi
  case sfenceVma =>
    unfold execSfenceVma at h
    split at h
    · exact hP.trap _ _ _ h hs
    · cases h; exact hs

end Sys2Proof.Machine
end

section
/-! PROOF. Every step keeps the invariant of a good state (StepKeepsInv), which the reset state meets (ResetSatisfiesInv). -/

namespace Sys2Proof.Machine

-- ---- inside a tick ----

/-- What holds of a good state all through a tick: the invariant without what only the end of a tick establishes. -/
structure MidTick (s : State) : Prop where
  csr_legal    : s.csr.Legal
  pc_aligned   : within 0xFFFFFFFC#32 s.pc
  next_aligned : within 0xFFFFFFFC#32 s.pcNext
  reservation  : ReservationAligned s
  mprv_clear   : MprvClear s
  memory_wf    : s.mem.wf
  platform_wf  : s.platform.wf
  dic_coherent : DicCoherent s

/-- The hart executes: a good state in the middle of a tick, and not in standby. -/
abbrev Awake (s : State) : Prop := MidTick s ∧ s.stdby = false

/-- A word is a multiple of 4 iff its two low bits are 0. -/
theorem within_aligned_iff (w : Word) : within 0xFFFFFFFC#32 w ↔ w &&& 3#32 = 0#32 := Iff.rfl

theorem aligned_iff_toNat (w : Word) : within 0xFFFFFFFC#32 w ↔ w.toNat % 4 = 0 := by
  rw [within_aligned_iff, ← BitVec.toNat_inj, BitVec.toNat_and, show (3#32 : Word).toNat = 2 ^ 2 - 1 from rfl,
    Nat.and_two_pow_sub_one_eq_mod]
  rfl

/-- The successor of an aligned word is aligned. -/
theorem aligned_add_four {w : Word} (h : within 0xFFFFFFFC#32 w) : within 0xFFFFFFFC#32 (w + 4#32) := by
  rw [aligned_iff_toNat] at *
  simp only [BitVec.toNat_add, BitVec.toNat_ofNat]
  omega

theorem even_of_aligned {w : Word} (h : within 0xFFFFFFFC#32 w) : w.getLsbD 0 = false :=
  (within_iff _ _).mp h 0 (by omega) rfl

theorem Inv.midTick {s : State} (h : Inv s) : MidTick s where
  csr_legal := h.csr_legal
  pc_aligned := h.pc_ready.aligned
  next_aligned := h.pc_ready.successor ▸ aligned_add_four h.pc_ready.aligned
  reservation := h.reservation
  mprv_clear := h.mprv_clear
  memory_wf := h.memory_wf
  platform_wf := h.platform_wf
  dic_coherent := h.dic_coherent

-- ---- the elementary updates ----

section
variable {s t : State}

/-- An update of memory and what goes with it keeps the middle of a tick good if it keeps memory canonical and the cache coherent. -/
theorem MidTick.of_memory (h : MidTick s) (hm : t.mem.wf) (hd : DicCoherent t) (hcsr : t.csr = s.csr) (hpc : t.pc = s.pc)
    (hnext : t.pcNext = s.pcNext) (hpriv : t.priv = s.priv) (ha : t.reservedAddr = s.reservedAddr)
    (hp : t.platform = s.platform) : MidTick t where
  csr_legal := hcsr ▸ h.csr_legal
  pc_aligned := hpc ▸ h.pc_aligned
  next_aligned := hnext ▸ h.next_aligned
  reservation := by rw [ReservationAligned, ha]; exact h.reservation
  mprv_clear := by rw [MprvClear, hcsr, hpriv]; exact h.mprv_clear
  memory_wf := hm
  platform_wf := hp ▸ h.platform_wf
  dic_coherent := hd

/-- An update of the CSR block, the mode and `pc_next` keeps the middle of a tick good if they stay good. -/
theorem MidTick.of_control (h : MidTick s) (hcsr : t.csr.Legal) (hnext : within 0xFFFFFFFC#32 t.pcNext) (hmprv : MprvClear t)
    (hpc : t.pc = s.pc) (ha : t.reservedAddr = s.reservedAddr) (hmem : t.mem = s.mem) (hv : t.valid = s.valid)
    (hdic : t.dic = s.dic) (hp : t.platform = s.platform) : MidTick t where
  csr_legal := hcsr
  pc_aligned := hpc ▸ h.pc_aligned
  next_aligned := hnext
  reservation := by rw [ReservationAligned, ha]; exact h.reservation
  mprv_clear := hmprv
  memory_wf := hmem ▸ h.memory_wf
  platform_wf := hp ▸ h.platform_wf
  dic_coherent := h.dic_coherent.congr hdic hv hmem hp

theorem MidTick.setX (h : MidTick s) (rd : Reg) (v : Word) : MidTick (s.setX rd v) := by
  rw [State.setX_eq]
  exact ⟨h.csr_legal, h.pc_aligned, h.next_aligned, h.reservation, h.mprv_clear, h.memory_wf, h.platform_wf,
    h.dic_coherent.congr rfl rfl rfl rfl⟩

theorem MidTick.pmRead (h : MidTick s) (phys : PAddr) (n : Width) (noisy : Bool) : MidTick (pmReadState phys n noisy s) := by
  rw [pmReadState_eq]
  exact h.of_memory h.memory_wf (h.dic_coherent.congr rfl rfl rfl rfl) rfl rfl rfl rfl rfl rfl

theorem MidTick.pmWrite (h : MidTick s) (phys : PAddr) (n : Width) (v : Word) (noisy : Bool) :
    MidTick (pmWrite phys n v noisy s).2 := by
  have he := pmWrite_eq phys n v noisy s
  refine h.of_memory (pmWrite_mem_wf _ _ _ _ _ h.memory_wf) (pmWrite_coherent _ _ _ _ _ h.dic_coherent) ?_ ?_ ?_ ?_ ?_ ?_ <;>
    rw [he]

theorem MidTick.writeBack (h : MidTick s) (wb : Option (PAddr × Word)) : MidTick (writeBackState wb s) := by
  cases wb with
  | none => exact h
  | some p => exact h.pmWrite ..

/-- A timer write changes a timer and nothing else. -/
theorem timerWrite_eq (tm : Timer) (v : Word) (n : Width) (val : Word) (s : State) :
    timerWrite tm v n val s = { s with csr := { s.csr with
      mtime := (timerWrite tm v n val s).csr.mtime, mtimecmp := (timerWrite tm v n val s).csr.mtimecmp } } := by
  cases tm <;> rfl

theorem MidTick.timerWrite (h : MidTick s) (tm : Timer) (v : Word) (n : Width) (val : Word) :
    MidTick (timerWrite tm v n val s) := by
  rw [timerWrite_eq]
  exact h.of_control (h.csr_legal.congr rfl rfl rfl rfl rfl rfl rfl rfl) h.next_aligned h.mprv_clear rfl rfl rfl rfl rfl rfl

theorem MidTick.setReservation (h : MidTick s) (phys : PAddr) (b : Bool) :
    MidTick (s.setReservation (granuleOf phys) b) :=
  ⟨h.csr_legal, h.pc_aligned, h.next_aligned, granuleOf_aligned phys, h.mprv_clear, h.memory_wf, h.platform_wf,
    h.dic_coherent.congr rfl rfl rfl rfl⟩

theorem MidTick.dropReservation (h : MidTick s) : MidTick s.dropReservation :=
  h.of_control h.csr_legal h.next_aligned h.mprv_clear rfl rfl rfl rfl rfl rfl

theorem MidTick.setPcNext (h : MidTick s) {target : Word} (ht : target &&& 3#32 = 0#32) : MidTick (s.setPcNext target) :=
  h.of_control h.csr_legal ht h.mprv_clear rfl rfl rfl rfl rfl rfl

/-- A CSR write keeps MPRV clear below M-mode, for only M-mode reaches the bit (spec 10_state.md R43; 45_zicsr.md R321). -/
theorem MidTick.writeCsr (h : MidTick s) {n : CsrNum} {r : CsrReg} (hc : csrCheck n true s = some r) (v : Word) :
    MidTick (s.setCsr (writeCsr r v s.csr)) := by
  refine h.of_control (writeCsr_legal h.csr_legal r v) h.next_aligned (fun hp => ?_) rfl rfl rfl rfl rfl rfl
  have hv := writeCsr_machineView (csrCheck_sLevel hc hp) v s.csr
  exact (mstatus_bit_of_machineView hv rfl).trans (h.mprv_clear hp)

-- ---- traps and returns ----

/-- The pc a trap saves is aligned. -/
theorem MidTick.savedPc_aligned (h : MidTick s) (c : Trap) : within 0xFFFFFFFC#32 (savedPc c s) := by
  cases c with
  | exception e => exact h.pc_aligned
  | interrupt i => exact h.next_aligned

theorem MidTick.enterM (h : MidTick s) {c : Trap} (he : enterM c s = .next t) : Awake t := by
  rcases enterM_cases c s with ⟨-, e⟩ | ⟨target, ht, e⟩ <;> rw [e] at he
  · cases he
  · cases he
    obtain ⟨hm, hmpp⟩ := mstatusEnterM_legal s.priv h.csr_legal.status
    obtain ⟨-, -, hie, hip, hed, hid, -, hsepc, hinh⟩ := h.csr_legal
    exact ⟨h.of_control ⟨hm, hmpp, hie, hip, hed, hid, h.savedPc_aligned c, hsepc, hinh⟩ (trapVector_aligned ht)
      (fun hp => absurd rfl hp) rfl rfl rfl rfl rfl rfl, rfl⟩

theorem MidTick.enterS (h : MidTick s) {c : Trap} (hp : s.priv ≠ .m) (he : enterS c s = .next t) : Awake t := by
  rcases enterS_cases c s with ⟨-, e⟩ | ⟨target, ht, e⟩ <;> rw [e] at he
  · cases he
  · cases he
    obtain ⟨hm, hmpp⟩ := mstatusEnterS_legal s.priv h.csr_legal.status
    obtain ⟨-, -, hie, hip, hed, hid, hmepc, -, hinh⟩ := h.csr_legal
    have hmprv : mstatusMprv (mstatusEnterS s.csr.mstatus s.priv) = false := by
      rw [mstatusMprv, getLsbD_mstatusEnterS _ _ (by omega)]
      exact h.mprv_clear hp
    exact ⟨h.of_control ⟨hm, hmpp, hie, hip, hed, hid, hmepc, h.savedPc_aligned c, hinh⟩ (trapVector_aligned ht)
      (fun _ => hmprv) rfl rfl rfl rfl rfl rfl, rfl⟩

theorem MidTick.noteRaised (h : MidTick s) (e : Raised) : MidTick (noteRaised e s) :=
  h.of_control (h.csr_legal.congr rfl rfl rfl rfl rfl rfl rfl rfl) h.next_aligned h.mprv_clear rfl rfl rfl rfl rfl rfl

theorem MidTick.takeException (h : MidTick s) {e : Raised} (he : takeException e s = .next t) : Awake t := by
  unfold Machine.takeException handleException at he
  split at he
  · rename_i hd; exact (h.noteRaised e).enterS ((delegated_iff ..).mp hd).1 he
  · exact (h.noteRaised e).enterM he

theorem MidTick.returnM (h : MidTick s) : MidTick (returnM s) := by
  obtain ⟨hm, hmpp⟩ := mstatusReturnM_legal h.csr_legal.status
  obtain ⟨-, -, hie, hip, hed, hid, hmepc, hsepc, hinh⟩ := h.csr_legal
  refine h.of_control ⟨hm, hmpp, hie, hip, hed, hid, hmepc, hsepc, hinh⟩ hmepc (fun hp => ?_) rfl rfl rfl rfl rfl rfl
  have hp : mstatusMpp s.csr.mstatus ≠ .m := hp
  change (mstatusReturnM s.csr.mstatus).getLsbD 17 = false
  rw [getLsbD_mstatusReturnM]
  simp [hp]

theorem MidTick.returnS (h : MidTick s) : MidTick (returnS s) := by
  obtain ⟨hm, hmpp⟩ := mstatusReturnS_legal h.csr_legal.status
  obtain ⟨-, -, hie, hip, hed, hid, hmepc, hsepc, hinh⟩ := h.csr_legal
  refine h.of_control ⟨hm, hmpp, hie, hip, hed, hid, hmepc, hsepc, hinh⟩ hsepc (fun _ => ?_) rfl rfl rfl rfl rfl rfl
  change (mstatusReturnS s.csr.mstatus).getLsbD 17 = false
  rw [getLsbD_mstatusReturnS]
  rfl

-- ---- phase 1 ----

/-- Every elementary update of an instruction keeps an executing hart good. -/
theorem awake_kept : Kept Awake where
  reg := fun s rd v ⟨h, hs⟩ => ⟨h.setX rd v, by simpa using hs⟩
  jump := fun _ _ ht ⟨h, hs⟩ => ⟨h.setPcNext ht, hs⟩
  read := fun s phys n ⟨h, hs⟩ => ⟨h.pmRead phys n true, by rw [pmReadState_eq]; exact hs⟩
  write := fun s phys n v ⟨h, hs⟩ => ⟨h.pmWrite phys n v true, by rw [pmWrite_eq]; exact hs⟩
  timer := fun s tm v n val _ ⟨h, hs⟩ => ⟨h.timerWrite tm v n val, by rw [timerWrite_eq]; exact hs⟩
  reserve := fun _ phys ⟨h, hs⟩ => ⟨h.setReservation phys true, hs⟩
  drop := fun _ ⟨h, hs⟩ => ⟨h.dropReservation, hs⟩
  csr := fun _ _ _ v hc ⟨h, hs⟩ => ⟨h.writeCsr hc v, hs⟩
  trap := fun _ _ _ he ⟨h, _⟩ => h.takeException he

/-- In the middle of a tick: good, and in standby only with `pc_next` still the successor of the pc (spec 10_state.md R25, R27). -/
abbrev Settled (s : State) : Prop := MidTick s ∧ (s.stdby = true → s.pcNext = s.pc + 4#32)

theorem Awake.settled (h : Awake s) : Settled s := ⟨h.1, fun hs => by simp [h.2] at hs⟩

/-- Executing a word: WFI alone enters standby, and it leaves `pc_next` as it was. -/
theorem Awake.execWord (h : Awake s) (hn : s.pcNext = s.pc + 4#32) {w : Word} (he : execWord w s = .next t) : Settled t := by
  unfold Machine.execWord at he
  cases hd : decodeWord w with
  | none => rw [hd] at he; exact (h.1.takeException he).settled
  | some i =>
    rw [hd] at he
    by_cases hw : i = .wfi
    · subst hw
      cases he
      exact ⟨h.1.of_control h.1.csr_legal h.1.next_aligned h.1.mprv_clear rfl rfl rfl rfl rfl rfl, fun _ => hn⟩
    · exact Awake.settled (awake_kept.exec (decodeWord_wf hd) (even_of_aligned h.1.pc_aligned) h (fun _ _ => ⟨h.1.returnM, h.2⟩)
        (fun _ _ => ⟨h.1.returnS, h.2⟩) (fun hi => absurd hi hw) he)

theorem MidTick.clearExc (h : MidTick s) : MidTick (clearExc s) :=
  h.of_control h.csr_legal h.next_aligned h.mprv_clear rfl rfl rfl rfl rfl rfl

/-- A fetch keeps the cache coherent and changes nothing else. -/
theorem MidTick.dicFetch (h : MidTick s) {af : Bool} {phys : PAddr} {w : Word} (hf : dicFetch af phys s = some (w, t)) :
    MidTick t := by
  obtain ⟨u, hu, hd, -⟩ := dicFetch_coherent h.platform_wf h.dic_coherent phys
  obtain ⟨-, rfl⟩ : pmValue (granuleOf phys) .word false s = w ∧ u = t := by
    simpa using hu.symm.trans (dicFetch_some hf)
  have he := dicFetch_eq hf
  have hmem : u.mem = s.mem := by rw [he]
  refine h.of_memory (hmem ▸ h.memory_wf) hd ?_ ?_ ?_ ?_ ?_ ?_ <;> rw [he]

theorem Inv.phase1 (h : Inv s) {af : Bool} (hp : phase1 af s = .next t) : Settled t := by
  rcases phase1_cases af s with ⟨-, e⟩ | ⟨-, -, e⟩ | ⟨hs, tr, -, ⟨-, e⟩ | ⟨w, f, hf, e⟩⟩ <;> rw [e] at hp
  · cases hp; exact ⟨h.midTick.clearExc, fun _ => h.pc_ready.successor⟩
  · exact (h.midTick.clearExc.takeException hp).settled
  · cases hp
  · have hm := (h.midTick.clearExc.writeBack tr.writeBack).dicFetch hf
    have hfe := dicFetch_eq hf
    rw [writeBackState_eq] at hfe
    refine Awake.execWord ⟨hm, ?_⟩ ?_ hp
    · rw [hfe]; exact hs
    · rw [hfe]; exact h.pc_ready.successor

-- ---- the rest of the tick ----

theorem Settled.account (h : Settled s) (p : Mode) (b : Bool) (d : DWord) : Settled (account p b d s) :=
  ⟨h.1.of_control (account_legal p b d h.1.csr_legal) h.1.next_aligned h.1.mprv_clear rfl rfl rfl rfl rfl rfl, h.2⟩

theorem Settled.interruptPhase (h : Settled s) (he : interruptPhase s = .next t) : Settled t := by
  unfold Machine.interruptPhase at he
  split at he
  · cases he; exact h
  · rcases tryInterrupt_cases s with ⟨-, -, e⟩ | ⟨i, -, e⟩ | ⟨i, -, hi, e⟩ <;> rw [e] at he
    · cases he; exact h
    · exact (h.1.enterM he).settled
    · exact (h.1.enterS (sStage_priv hi) he).settled

/-- The end of a tick changes the pc, `x0`, `tval_next` and the model's own fields, nothing else. -/
theorem advance_eq (s : State) : advance s = { s with
    pc := (advance s).pc, pcNext := (advance s).pcNext, regs := s.regs.set 0 0#32
    csr := { s.csr with tvalNext := 0#32 }, exc := none, tick := s.tick + 1 } := by
  unfold advance movePc; split <;> rfl

/-- The end of a tick establishes the rest of the invariant (spec 60_exceptions.md R400 phase 4). -/
theorem Settled.advance (h : Settled s) : Inv (advance s) := by
  obtain ⟨h, hn⟩ := h
  have hpc : PcReady (Machine.advance s) := by
    constructor <;> rw [advance_pc]
    · split
      · exact h.pc_aligned
      · exact h.next_aligned
    · rw [advance_pcNext]
      split
      · rename_i hs; exact hn hs
      · rfl
  rw [advance_eq] at hpc ⊢
  exact ⟨h.csr_legal.congr rfl rfl rfl rfl rfl rfl rfl rfl, hpc, ⟨by simp, rfl, rfl⟩, h.reservation, h.mprv_clear, h.memory_wf,
    h.platform_wf, h.dic_coherent.congr rfl rfl rfl rfl⟩

theorem Inv.tickWith (h : Inv s) {d : DWord} {af : Bool} (ht : tickWith d af s = .next t) : Inv t := by
  obtain ⟨-, s1, h1, hfin⟩ := tickWith_next ht
  obtain ⟨u, hu, rfl⟩ := finishTick_next hfin
  exact (((h.phase1 h1).account ..).interruptPhase hu).advance

-- ---- the host's operations ----

/-- Between ticks: what a host operation that leaves the pc alone must keep beside the middle of a tick. -/
theorem Inv.of_midTick (h : Inv s) (hm : MidTick t) (hpc : t.pc = s.pc) (hn : t.pcNext = s.pcNext) (hr : t.regs = s.regs)
    (ht : t.csr.tvalNext = s.csr.tvalNext) (he : t.exc = s.exc) : Inv t where
  csr_legal := hm.csr_legal
  pc_ready := ⟨hm.pc_aligned, by rw [hpc, hn]; exact h.pc_ready.successor⟩
  boundary := ⟨by simpa only [hr] using h.boundary.reg_zero, ht ▸ h.boundary.tval_zero, he ▸ h.boundary.no_exc⟩
  reservation := hm.reservation
  mprv_clear := hm.mprv_clear
  memory_wf := hm.memory_wf
  platform_wf := hm.platform_wf
  dic_coherent := hm.dic_coherent

/-- A legal update of the CSR block that leaves `mstatus` and `tval_next` alone keeps the invariant. -/
theorem Inv.of_csr (h : Inv s) (hl : t.csr.Legal) (hm : t.csr.mstatus = s.csr.mstatus) (ht : t.csr.tvalNext = s.csr.tvalNext)
    (hf : t = { s with csr := t.csr, reservedValid := t.reservedValid, inputs := t.inputs }) : Inv t := by
  have hmprv : s.priv ≠ .m → mstatusMprv t.csr.mstatus = false := by rw [hm]; exact h.mprv_clear
  rw [hf] at hl hmprv ht ⊢
  exact h.of_midTick (h.midTick.of_control hl h.midTick.next_aligned hmprv rfl rfl rfl rfl rfl rfl) rfl rfl rfl ht rfl

/-- A cache without entries is coherent. -/
theorem DicCoherent.of_nil (h : s.dic = []) : DicCoherent s := by
  constructor <;> simp [h]

theorem Inv.pmRead (h : Inv s) (phys : PAddr) (n : Width) (noisy : Bool) : Inv (pmReadState phys n noisy s) := by
  refine h.of_midTick (h.midTick.pmRead ..) ?_ ?_ ?_ ?_ ?_ <;> rw [pmReadState_eq]

theorem Inv.pmWrite (h : Inv s) (phys : PAddr) (n : Width) (v : Word) (noisy : Bool) : Inv (pmWrite phys n v noisy s).2 := by
  refine h.of_midTick (h.midTick.pmWrite ..) ?_ ?_ ?_ ?_ ?_ <;> rw [pmWrite_eq]

theorem Inv.timerWrite (h : Inv s) (tm : Timer) (v : Word) (n : Width) (val : Word) : Inv (timerWrite tm v n val s) := by
  refine h.of_midTick (h.midTick.timerWrite ..) ?_ ?_ ?_ ?_ ?_ <;> rw [timerWrite_eq]

theorem Inv.writeBack (h : Inv s) (wb : Option (PAddr × Word)) : Inv (writeBackState wb s) := by
  cases wb with
  | none => exact h
  | some p => exact h.pmWrite ..

theorem Inv.translateAligned (h : Inv s) (v : Word) (n : Width) (intent : Intent) (noisy : Bool) :
    Inv (hostAccessState (translateAligned v n intent noisy s)) := by
  have hwb : ∀ wb, Inv (if noisy then writeBackState wb s else s) := fun wb => by
    split
    · exact h.writeBack wb
    · exact h
  rcases translateAligned_cases v n intent noisy s with ⟨-, e⟩ | ⟨tr, -, -, e⟩ | ⟨tr, -, -, e⟩ <;> rw [e]
  · exact h
  · exact hwb _
  · exact hwb _

theorem Inv.readMem (h : Inv s) (v : Word) (n : Width) (fetch noisy : Bool) :
    Inv (hostAccessState (readMem v n fetch noisy s)) := by
  unfold Machine.readMem
  split
  · exact h
  · have ht := h.translateAligned v n (if fetch then .fetch else .read) noisy
    split <;> rename_i e <;> rw [e] at ht
    · exact ht
    · exact ht.pmRead ..

theorem Inv.writeMem (h : Inv s) (v : Word) (n : Width) (val : Word) (noisy : Bool) :
    Inv (hostAccessState (writeMem v n val noisy s)) := by
  unfold Machine.writeMem
  split
  · exact h.timerWrite ..
  · have ht := h.translateAligned v n .write noisy
    split <;> rename_i e <;> rw [e] at ht
    · exact ht
    · exact ht.pmWrite ..

theorem Inv.scAccess (h : Inv s) (phys : PAddr) : Inv (scAccess phys s).2 := by
  rw [scAccess_eq]
  exact h.of_csr h.csr_legal rfl rfl rfl

/-- A line sets a bit of `mip` that the word may hold (spec 60_exceptions.md R440). -/
theorem lineBit_in_mask (code : Nat) : (0xAAA#32 : Word).getLsbD (lineBit code) = true := by
  unfold lineBit
  split
  · rfl
  · split <;> rfl

theorem Inv.driveLine (h : Inv s) (code : Nat) (level : Bool) : Inv (driveLine code level s) := by
  unfold Machine.driveLine
  split
  · exact h.of_csr (h.csr_legal.congr rfl rfl rfl rfl rfl rfl rfl rfl) rfl rfl rfl
  · obtain ⟨hm, hmpp, hie, hip, hed, hid, hmepc, hsepc, hinh⟩ := h.csr_legal
    exact h.of_csr ⟨hm, hmpp, hie, within_setBit (lineBit_in_mask code) hip level, hed, hid, hmepc, hsepc, hinh⟩ rfl rfl rfl

/-- The block that `cpu_init` gives is legal. -/
theorem CsrBlock.reset_legal : CsrBlock.reset.Legal := by constructor <;> decide

/-- `cpu_init` gives a good state, whatever hart id it is given. -/
theorem Inv.cpuInit (h : Inv s) (hartid : Word) : Inv (cpuInit hartid s) where
  csr_legal := CsrBlock.reset_legal.congr rfl rfl rfl rfl rfl rfl rfl rfl
  pc_ready := ⟨(aligned_iff_toNat _).mpr h.platform_wf.1, rfl⟩
  boundary := ⟨rfl, rfl, rfl⟩
  reservation := BitVec.zero_and
  mprv_clear := fun hp => absurd rfl hp
  memory_wf := h.memory_wf
  platform_wf := h.platform_wf
  dic_coherent := .of_nil rfl

theorem Inv.cpuDone (h : Inv s) : Inv (cpuDone s) :=
  h.of_midTick (h.midTick.of_memory h.memory_wf (.of_nil rfl) rfl rfl rfl rfl rfl rfl) rfl rfl rfl rfl rfl

theorem Inv.cpuSetPc (h : Inv s) {value : Word} (hc : cpuSetPc value s = .next t) : Inv t := by
  unfold Machine.cpuSetPc at hc
  split at hc
  · rename_i ha
    cases hc
    have hv : within 0xFFFFFFFC#32 value := (aligned_iff_toNat value).mpr ((isAligned_iff value .word).mp ha)
    obtain ⟨hreg, htval, hexc⟩ := h.boundary
    exact ⟨h.csr_legal, ⟨hv, rfl⟩, ⟨hreg, htval, hexc⟩, h.reservation, h.mprv_clear, h.memory_wf, h.platform_wf,
      h.dic_coherent.congr rfl rfl rfl rfl⟩
  · cases hc

theorem Inv.applyHostOp (h : Inv s) {op : HostOp} (ho : applyHostOp op s = .next t) : Inv t := by
  unfold Machine.applyHostOp at ho
  split at ho
  · cases ho
  · cases op with
    | init hartid => cases ho; exact h.cpuInit hartid
    | done => cases ho; exact h.cpuDone
    | setPc value => exact h.cpuSetPc ho
    | readMem v n fetch noisy => cases ho; exact h.readMem ..
    | writeMem v n val noisy => cases ho; exact h.writeMem ..
    | interruptUp code => cases ho; exact h.driveLine ..
    | interruptDown code => cases ho; exact h.driveLine ..
    | scAccess phys => cases ho; exact h.scAccess phys
    | physWrite phys n v => cases ho; exact h.pmWrite ..

theorem Inv.dropInput (h : Inv s) : Inv (dropInput s) :=
  h.of_csr h.csr_legal rfl rfl rfl

theorem Inv.step (h : Inv s) (ht : step s = .next t) : Inv t := by
  obtain ⟨s1, h1, h2⟩ := step_next ht
  exact (runHostOps_keeps (fun _ _ _ ho hx => hx.applyHostOp ho) _ _ _ h1 h.dropInput).tickWith h2

end

/-- Settles O58: the host operations keep the invariant, and so does the tick. -/
theorem stepKeepsInv : Obligations.StepKeepsInv := fun _ _ h ht => h.step ht

/-- Settles O57: every part of the invariant is a fact about the literal reset state. -/
theorem resetSatisfiesInv : Obligations.ResetSatisfiesInv where
  csr_legal := CsrBlock.reset_legal
  pc_ready := by constructor <;> decide
  boundary := ⟨rfl, rfl, rfl⟩
  reservation := rfl
  mprv_clear := fun _ => rfl
  memory_wf := by decide
  platform_wf := by decide
  dic_coherent := .of_nil rfl

end Sys2Proof.Machine
end

section
/-! PROOF. The CSR file: the number map (CsrNumbersNamed), and what the registers read and take (CsrMaskedAndPlainWrites, StatusWrites,
InterruptWordViews, CounterHalves). -/

namespace Sys2Proof.Machine

open Sys2Proof.Claim

-- ---- the number map ----

theorem eq_ofNat_of_toNat {n : CsrNum} {k : Nat} (h : n.toNat = k) : n = BitVec.ofNat 12 k := by
  rw [← h, BitVec.ofNat_toNat, BitVec.setWidth_eq]

/-- No number stands twice in the fixed list. -/
theorem fixedCsrs_find : ∀ e ∈ fixedCsrs, fixedCsrs.find? (fun d => d.1 == e.1) = some e := by decide

/-- A number of the fixed list names its register. -/
theorem csrOf_fixed (p : Platform) {n : CsrNum} {r : CsrReg} (h : (n, r) ∈ fixedCsrs) : csrOf p n = some r := by
  unfold csrOf
  rw [fixedCsrs_find _ h]
  rfl

/-- The fixed list agrees with the rows of the map. -/
theorem csrRow_of_fixed : ∀ e ∈ fixedCsrs, CsrRow e.1.toNat e.2 := by simp [fixedCsrs, CsrRow]

theorem hpmCsrOf_mhpmevent {n : CsrNum} {i : Fin 29} (h : n.toNat = 0x323 + i.val) : hpmCsrOf n = some (.mhpmevent i) := by
  rw [hpmCsrOf, h, hpmIndex_add]; rfl

theorem hpmCsrOf_mhpmcounter {n : CsrNum} {i : Fin 29} (h : n.toNat = 0xB03 + i.val) :
    hpmCsrOf n = some (.mhpmcounter i) := by
  rw [hpmCsrOf, h, hpmIndex_none (base := 0x323) (by omega), hpmIndex_add]; rfl

theorem hpmCsrOf_mhpmcounterh {n : CsrNum} {i : Fin 29} (h : n.toNat = 0xB83 + i.val) :
    hpmCsrOf n = some (.mhpmcounterh i) := by
  rw [hpmCsrOf, h, hpmIndex_none (base := 0x323) (by omega), hpmIndex_none (base := 0xB03) (by omega), hpmIndex_add]; rfl

theorem hpmCsrOf_hpmcounter {n : CsrNum} {i : Fin 29} (h : n.toNat = 0xC03 + i.val) :
    hpmCsrOf n = some (.hpmcounter i) := by
  rw [hpmCsrOf, h, hpmIndex_none (base := 0x323) (by omega), hpmIndex_none (base := 0xB03) (by omega),
    hpmIndex_none (base := 0xB83) (by omega), hpmIndex_add]; rfl

theorem hpmCsrOf_hpmcounterh {n : CsrNum} {i : Fin 29} (h : n.toNat = 0xC83 + i.val) :
    hpmCsrOf n = some (.hpmcounterh i) := by
  rw [hpmCsrOf, h, hpmIndex_none (base := 0x323) (by omega), hpmIndex_none (base := 0xB03) (by omega),
    hpmIndex_none (base := 0xB83) (by omega), hpmIndex_none (base := 0xC03) (by omega), hpmIndex_add]; rfl

/-- Each row of the map gives its number its register, on every platform. -/
theorem csrOf_of_row (p : Platform) {n : CsrNum} {r : CsrReg} (h : CsrRow n.toNat r) : csrOf p n = some r := by
  cases r
  case scyclecmp => exact h.elim
  case mhpmevent => exact csrOf_hpm p (hpmCsrOf_mhpmevent h)
  case mhpmcounter => exact csrOf_hpm p (hpmCsrOf_mhpmcounter h)
  case mhpmcounterh => exact csrOf_hpm p (hpmCsrOf_mhpmcounterh h)
  case hpmcounter => exact csrOf_hpm p (hpmCsrOf_hpmcounter h)
  case hpmcounterh => exact csrOf_hpm p (hpmCsrOf_hpmcounterh h)
  all_goals exact csrOf_fixed p (eq_ofNat_of_toNat h ▸ (by decide))

/-- A number names a register by its row of the map, or is the platform's own number of `scyclecmp`. -/
theorem row_of_csrOf {p : Platform} {n : CsrNum} {r : CsrReg} (h : csrOf p n = some r) :
    CsrRow n.toNat r ∨ (r = .scyclecmp ∧ n = p.scyclecmpCsr) := by
  rcases csrOf_some h with hf | ⟨i, hi⟩ | ⟨hn, rfl⟩
  · exact .inl (csrRow_of_fixed _ hf)
  · rcases hi with ⟨hn, rfl⟩ | ⟨hn, rfl⟩ | ⟨hn, rfl⟩ | ⟨hn, rfl⟩ | ⟨hn, rfl⟩ <;> exact .inl hn
  · exact .inr ⟨rfl, hn⟩

/-- Where a row of the map and the number of `scyclecmp` meet, the row wins (log 25). -/
theorem csrOf_eq_some_iff (p : Platform) (n : CsrNum) (r : CsrReg) :
    csrOf p n = some r ↔ CsrRow n.toNat r ∨ (r = .scyclecmp ∧ n = p.scyclecmpCsr ∧ ∀ q, ¬CsrRow n.toNat q) := by
  constructor
  · intro h
    refine (row_of_csrOf h).imp_right fun ⟨hr, hn⟩ => ⟨hr, hn, fun q hq => ?_⟩
    obtain rfl : r = q := Option.some.inj (h.symm.trans (csrOf_of_row p hq))
    exact (hr ▸ hq : CsrRow n.toNat .scyclecmp)
  · rintro (h | ⟨rfl, hn, hno⟩)
    · exact csrOf_of_row p h
    · cases hq : csrOf p n with
      | none => simp [csrOf, hn] at hq
      | some q =>
        rcases row_of_csrOf hq with h | ⟨rfl, -⟩
        · exact absurd h (hno q)
        · rfl

/-- The numbers of the rows of the map. -/
theorem exists_csrRow_iff (n : Nat) : (∃ r, CsrRow n r) ↔
    n ∈ [0x100, 0x104, 0x105, 0x106, 0x140, 0x141, 0x142, 0x143, 0x144, 0x180, 0x320] ∨
    (0x300 ≤ n ∧ n ≤ 0x306) ∨ (0x323 ≤ n ∧ n ≤ 0x33F) ∨ (0x340 ≤ n ∧ n ≤ 0x344) ∨ (0xF11 ≤ n ∧ n ≤ 0xF14) ∨
    (0xB00 ≤ n ∧ n ≤ 0xB1F ∧ n ≠ 0xB01) ∨ (0xB80 ≤ n ∧ n ≤ 0xB9F ∧ n ≠ 0xB81) ∨ (0xC00 ≤ n ∧ n ≤ 0xC1F) ∨
    (0xC80 ≤ n ∧ n ≤ 0xC9F) := by
  constructor
  · rintro ⟨r, h⟩
    cases r <;> simp only [CsrRow] at h <;> simp only [List.mem_cons, List.not_mem_nil] <;> omega
  · have hfixed : n ∈ fixedCsrs.map (·.1.toNat) → ∃ r, CsrRow n r := fun hn => by
      obtain ⟨e, he, rfl⟩ := List.mem_map.mp hn
      exact ⟨e.2, csrRow_of_fixed e he⟩
    have hlist : ∀ k ∈ [0x100, 0x104, 0x105, 0x106, 0x140, 0x141, 0x142, 0x143, 0x144, 0x180, 0x320],
        k ∈ fixedCsrs.map (·.1.toNat) := by decide
    rintro (h | ⟨h1, h2⟩ | h | ⟨h1, h2⟩ | ⟨h1, h2⟩ | h | h | h | h)
    · exact hfixed (hlist n h)
    · interval_cases n <;> exact hfixed (by decide)
    · exact ⟨.mhpmevent ⟨n - 0x323, by omega⟩, by simp only [CsrRow]; omega⟩
    · interval_cases n <;> exact hfixed (by decide)
    · interval_cases n <;> exact hfixed (by decide)
    · obtain rfl | rfl | hc : n = 0xB00 ∨ n = 0xB02 ∨ 0xB03 ≤ n := by omega
      · exact hfixed (by decide)
      · exact hfixed (by decide)
      · exact ⟨.mhpmcounter ⟨n - 0xB03, by omega⟩, by simp only [CsrRow]; omega⟩
    · obtain rfl | rfl | hc : n = 0xB80 ∨ n = 0xB82 ∨ 0xB83 ≤ n := by omega
      · exact hfixed (by decide)
      · exact hfixed (by decide)
      · exact ⟨.mhpmcounterh ⟨n - 0xB83, by omega⟩, by simp only [CsrRow]; omega⟩
    · obtain rfl | rfl | rfl | hc : n = 0xC00 ∨ n = 0xC01 ∨ n = 0xC02 ∨ 0xC03 ≤ n := by omega
      · exact hfixed (by decide)
      · exact hfixed (by decide)
      · exact hfixed (by decide)
      · exact ⟨.hpmcounter ⟨n - 0xC03, by omega⟩, by simp only [CsrRow]; omega⟩
    · obtain rfl | rfl | rfl | hc : n = 0xC80 ∨ n = 0xC81 ∨ n = 0xC82 ∨ 0xC83 ≤ n := by omega
      · exact hfixed (by decide)
      · exact hfixed (by decide)
      · exact hfixed (by decide)
      · exact ⟨.hpmcounterh ⟨n - 0xC83, by omega⟩, by simp only [CsrRow]; omega⟩

/-- Settles O24: the map's rows, one by one, and the numbers they take together. -/
theorem csrNumbersNamed : Obligations.CsrNumbersNamed := by
  intro p n
  refine ⟨?_, csrOf_eq_some_iff p n⟩
  rw [Option.isSome_iff_exists, ← exists_csrRow_iff]
  constructor
  · rintro ⟨r, h⟩
    exact (row_of_csrOf h).elim (fun hr => .inr ⟨r, hr⟩) fun hs => .inl hs.2
  · rintro (hn | ⟨r, hr⟩)
    · by_cases hq : ∃ q, CsrRow n.toNat q
      · exact hq.imp fun q hq => csrOf_of_row p hq
      · exact ⟨.scyclecmp, (csrOf_eq_some_iff ..).mpr (.inr ⟨rfl, hn, not_exists.mp hq⟩)⟩
    · exact ⟨r, csrOf_of_row p hr⟩

-- ---- masked writes and views ----

/-- The model's masked write is the statements' replacement of bits. -/
theorem masked_maskedWrite (mask old v : Word) : Masked mask old v (maskedWrite mask old v) :=
  fun k _ => getLsbD_maskedWrite mask old v k

/-- Cutting a word down to a mask replaces the bits of 0 by it. -/
theorem masked_zero_and (mask v : Word) : Masked mask 0#32 v (v &&& mask) := by
  intro k _
  rw [BitVec.getLsbD_and, BitVec.getLsbD_zero]
  cases mask.getLsbD k <;> simp

/-- The registers that hold every bit written, each in a word of its own (spec 10_state.md R51 to R53, R55 to R57, R59, R63, R65). -/
def CsrReg.isPlain : CsrReg → Bool
  | .mtvec | .stvec | .mscratch | .sscratch | .mcause | .scause | .mtval | .stval | .satp | .scyclecmp | .mcounteren
  | .scounteren | .mhpmevent _ => true
  | _ => false

/-- One element of a vector replaced. -/
theorem getElem_vector_set {α : Type} (a : Vector α 29) (i j : Fin 29) (x : α) :
    (a.set i x)[j] = if j = i then x else a[j] := by
  simp [Vector.getElem_set, Fin.ext_iff, eq_comm]

/-- A plain register reads what was written to it, and every other register as before. -/
theorem readCsr_writeCsr_plain {r : CsrReg} (hr : r.isPlain = true) (q : CsrReg) (v : Word) (c : CsrBlock) :
    readCsr q (writeCsr r v c) = if q = r then v else readCsr q c := by
  cases r
  case mtvec | stvec | mscratch | sscratch | mcause | scause | mtval | stval | satp | scyclecmp | mcounteren | scounteren =>
    cases q <;> rfl
  case mhpmevent i =>
    cases q
    case mhpmevent j => simpa [readCsr, writeCsr] using getElem_vector_set c.hpmevents i j v
    all_goals rfl
  all_goals cases hr

/-- Settles O25: each write replaces one word of the block, whole or under its mask. -/
theorem csrMaskedAndPlainWrites : Obligations.CsrMaskedAndPlainWrites := by
  intro c v i
  have hplain : ∀ r ∈ [CsrReg.mtvec, .stvec, .mscratch, .sscratch, .mcause, .scause, .mtval, .stval, .satp, .scyclecmp,
      .mcounteren, .scounteren, .mhpmevent i], r.isPlain = true := by simp [CsrReg.isPlain]
  have hevent : (c.hpmevents.set i v)[i] = v ∧ ∀ j : Fin 29, j ≠ i → (c.hpmevents.set i v)[j] = c.hpmevents[j] := by
    refine ⟨?_, fun j hj => ?_⟩ <;> rw [getElem_vector_set]
    · exact if_pos rfl
    · exact if_neg hj
  exact ⟨⟨_, rfl, masked_zero_and _ _⟩, rfl, ⟨_, rfl, masked_zero_and _ _⟩, rfl, ⟨_, rfl, masked_zero_and _ _⟩, rfl,
    ⟨_, rfl, masked_zero_and _ _⟩, rfl, ⟨_, rfl, masked_zero_and _ _⟩, rfl, ⟨_, rfl, masked_zero_and _ _⟩, rfl,
    rfl, rfl, rfl, rfl, rfl, rfl,
    fun r hr => ⟨(readCsr_writeCsr_plain (hplain r hr) r v c).trans (if_pos rfl),
      fun q hq => (readCsr_writeCsr_plain (hplain r hr) q v c).trans (if_neg hq)⟩,
    rfl, rfl, rfl, rfl, rfl, rfl, rfl, rfl, rfl, rfl, rfl, rfl, ⟨_, rfl, hevent⟩⟩

-- ---- the status word ----

/-- The MPP field as a number. -/
theorem mppBits_eq_two_iff (w : Word) : mstatusMppBits w = 2#2 ↔ w.toNat / 2 ^ 11 % 4 = 2 := by
  rw [mstatusMppBits, ← BitVec.toNat_inj, BitVec.extractLsb'_toNat, Nat.shiftRight_eq_div_pow]
  rfl

/-- Settles O26: MPP is left out of the mask exactly when 2 is written to it. -/
theorem statusWrites : Obligations.StatusWrites := by
  intro c v
  refine ⟨⟨writeMstatus c.mstatus v, rfl, fun h => ?_, fun h => ?_⟩, ⟨_, rfl, masked_maskedWrite _ _ _⟩, rfl,
    masked_zero_and _ _⟩ <;> rw [writeMstatus]
  · rw [if_neg (mt (mppBits_eq_two_iff v).mp h)]; exact masked_maskedWrite _ _ _
  · rw [if_pos ((mppBits_eq_two_iff v).mpr h)]; exact masked_maskedWrite _ _ _

-- ---- the interrupt words ----

/-- The pending word as it is read: `mip` with the external line in bit 9 (spec 10_state.md R49, R32). -/
theorem getLsbD_effectiveMip (c : CsrBlock) (k : Nat) :
    (effectiveMip c).getLsbD k = (c.mip.getLsbD k || (decide (k = 9) && c.externalSeip)) := by
  have hbit : (0x200#32 : Word).getLsbD k = decide (k = 9) := by
    rw [show (0x200#32 : Word) = setBit 0#32 9 true from rfl, getLsbD_setBit]
    by_cases h9 : k = 9 <;> simp [h9]
  unfold effectiveMip
  rw [BitVec.getLsbD_or]
  cases c.externalSeip
  · simp
  · rw [if_pos rfl, hbit, Bool.and_true]

/-- Settles O27: each view and each write is a mask of one stored word. -/
theorem interruptWordViews : Obligations.InterruptWordViews := by
  intro c v
  refine ⟨⟨_, rfl, masked_maskedWrite _ _ _⟩, ⟨_, rfl, masked_maskedWrite _ _ _⟩, ⟨_, rfl, masked_maskedWrite _ _ _⟩, rfl,
    masked_zero_and _ _, fun k _ => getLsbD_effectiveMip c k, masked_zero_and _ _, rfl, masked_zero_and _ _, fun r hm hs => ?_⟩
  cases r
  case mip => exact absurd rfl hm
  case sip => exact absurd rfl hs
  all_goals rfl

-- ---- the counters ----

theorem lowHalf_toNat (d : DWord) : (lowHalf d).toNat = d.toNat % 2 ^ 32 := by
  rw [lowHalf, BitVec.extractLsb'_toNat, Nat.shiftRight_zero]

theorem highHalf_toNat (d : DWord) : (highHalf d).toNat = d.toNat / 2 ^ 32 := by
  rw [highHalf, BitVec.extractLsb'_toNat, Nat.shiftRight_eq_div_pow]
  omega

theorem withLowHalf_toNat (d : DWord) (v : Word) : (withLowHalf d v).toNat = d.toNat / 2 ^ 32 * 2 ^ 32 + v.toNat := by
  rw [withLowHalf, BitVec.toNat_append, highHalf_toNat, ← Nat.shiftLeft_add_eq_or_of_lt v.isLt, Nat.shiftLeft_eq]

theorem withHighHalf_toNat (d : DWord) (v : Word) : (withHighHalf d v).toNat = v.toNat * 2 ^ 32 + d.toNat % 2 ^ 32 := by
  rw [withHighHalf, BitVec.toNat_append, lowHalf_toNat, ← Nat.shiftLeft_add_eq_or_of_lt (Nat.mod_lt _ (by omega)),
    Nat.shiftLeft_eq]

/-- One counter of the file replaced, told by its number. -/
theorem set_counter_toNat (a : Vector DWord 29) (i j : Fin 29) {d : DWord} {k : Nat} (hd : d.toNat = k) :
    (a.set i d)[i].toNat = k ∧ (j ≠ i → (a.set i d)[j] = a[j]) := by
  rw [getElem_vector_set, getElem_vector_set, if_pos rfl]
  exact ⟨hd, fun hj => if_neg hj⟩

/-- Settles O28: every counter register reads or replaces one half of its counter. -/
theorem counterHalves : Obligations.CounterHalves := by
  intro c v i j
  exact ⟨lowHalf_toNat _, highHalf_toNat _, lowHalf_toNat _, highHalf_toNat _, lowHalf_toNat _, highHalf_toNat _,
    lowHalf_toNat _, highHalf_toNat _, rfl, rfl, rfl, rfl, rfl, rfl, ⟨_, rfl, withLowHalf_toNat ..⟩,
    ⟨_, rfl, withHighHalf_toNat ..⟩, ⟨_, rfl, withLowHalf_toNat ..⟩, ⟨_, rfl, withHighHalf_toNat ..⟩,
    ⟨_, rfl, set_counter_toNat _ _ _ (withLowHalf_toNat ..)⟩, ⟨_, rfl, set_counter_toNat _ _ _ (withHighHalf_toNat ..)⟩⟩

end Sys2Proof.Machine
end

section
/-! PROOF. What an instruction that does not trap leaves alone (LowerModesLeaveMachineState), and the end of a tick that raised nothing
(QuietTickAdvances). -/

namespace Sys2Proof.Machine

open Sys2Proof.Claim

section
variable {s t : State}

-- ---- what holds of the control state until a trap ----

/-- A trap that is entered is recorded (log 6). -/
theorem takeException_exc {e : Raised} (h : takeException e s = .next t) : t.exc = some e.exception := by
  rcases takeException_cases e s with h' | ⟨_, -, -, h'⟩ | ⟨_, -, -, h'⟩ <;> rw [h'] at h
  · cases h
  · cases h; rfl
  · cases h; rfl

/-- A property of the platform, the mode and the CSR block that holds as long as no exception has been taken. -/
def UntilTrap (Q : Platform → Mode → CsrBlock → Prop) (s : State) : Prop := s.exc = none → Q s.platform s.priv s.csr

section
variable {Q : Platform → Mode → CsrBlock → Prop}

/-- The property moves between states with the same platform, mode, CSR block and record of exceptions. -/
theorem UntilTrap.congr (h : UntilTrap Q s) (he : t.exc = s.exc) (hp : t.platform = s.platform) (hm : t.priv = s.priv)
    (hc : t.csr = s.csr) : UntilTrap Q t := by
  unfold UntilTrap
  rw [he, hp, hm, hc]
  exact h

theorem UntilTrap.of_exc {e : Exception} (h : s.exc = some e) : UntilTrap Q s := fun hn => by simp [h] at hn

/-- Only a timer write and a CSR write, short of a trap or a return, can end it. -/
theorem untilTrap_kept
    (htimer : ∀ x tm v n val, timerHit v n x = some tm → Q x.platform x.priv x.csr →
      Q x.platform x.priv (timerWrite tm v n val x).csr)
    (hcsr : ∀ x n r v, csrCheck n true x = some r → Q x.platform x.priv x.csr → Q x.platform x.priv (writeCsr r v x.csr)) :
    Kept (UntilTrap Q) where
  reg := fun x rd v h => h.congr (x.setX_exc rd v) (x.setX_platform rd v) (x.setX_priv rd v) (x.setX_csr rd v)
  jump := fun _ _ _ h => h.congr rfl rfl rfl rfl
  read := fun x phys n h => by rw [pmReadState_eq]; exact h.congr rfl rfl rfl rfl
  write := fun x phys n v h => by rw [pmWrite_eq]; exact h.congr rfl rfl rfl rfl
  timer := fun x tm v n val ht h => by
    have ht := htimer x tm v n val ht
    rw [timerWrite_eq] at ht ⊢
    exact fun he => ht (h he)
  reserve := fun _ _ h => h.congr rfl rfl rfl rfl
  drop := fun _ h => h.congr rfl rfl rfl rfl
  csr := fun x n r v hc h he => hcsr x n r v hc (h he)
  trap := fun _ _ _ ht _ => .of_exc (takeException_exc ht)

/-- An instruction keeps it where both writes and both returns do. -/
theorem UntilTrap.exec {i : Instr} (hk : Kept (UntilTrap Q)) (hs : UntilTrap Q s)
    (hmret : s.priv = .m → UntilTrap Q (returnM s)) (hsret : s.priv ≠ .u → UntilTrap Q (returnS s))
    (h : exec i s = .next t) : UntilTrap Q t :=
  hk.exec_of_setPcNext (fun _ _ hx => hx.congr rfl rfl rfl rfl) hs hmret hsret (hs.congr rfl rfl rfl rfl) h

end

-- ---- below M-mode ----

/-- Against the state `s` the instruction began in: not in M-mode, the machine level's view as it was, and in U-mode nothing
changed. -/
structure LowerFrame (s : State) (p : Platform) (mode : Mode) (c : CsrBlock) : Prop where
  platform : p = s.platform
  below    : mode ≠ .m
  view     : c.machineView = s.csr.machineView
  user     : s.priv = .u → mode = .u ∧ c = s.csr

/-- Below M-mode with MPRV clear no timer is hit, and the CSR writes that are granted are of S-level registers. -/
theorem lowerFrame_kept (hw : s.platform.wf) (hmprv : s.csr.mstatus.getLsbD 17 = false) : Kept (UntilTrap (LowerFrame s)) := by
  refine untilTrap_kept (fun x tm v n val ht h => absurd (timerHit_some ht).1 ?_) (fun x n r v hc h => ?_)
  · have hx : mstatusMprv x.csr.mstatus = false := (mstatus_bit_of_machineView h.view rfl).trans hmprv
    simpa [effPriv, hx] using h.below
  · refine ⟨h.platform, h.below, (writeCsr_machineView (csrCheck_sLevel hc h.below) v _).trans h.view, fun hu => ?_⟩
    exact absurd (h.user hu).1 (csrCheck_priv_ne_u (h.platform ▸ hw) hc)

/-- SRET with MPRV clear leaves the machine level's view alone. -/
theorem returnS_machineView (hmprv : s.csr.mstatus.getLsbD 17 = false) :
    (returnS s).csr.machineView = s.csr.machineView := by
  have hm : mstatusReturnS s.csr.mstatus &&& 0x00021888#32 = s.csr.mstatus &&& 0x00021888#32 := by
    apply word_ext
    intro k hk
    rw [BitVec.getLsbD_and, BitVec.getLsbD_and, getLsbD_mstatusReturnS]
    split_ifs with h1 h5 h8
    · subst h1; simp
    · subst h5; simp
    · rcases h8 with rfl | rfl
      · simp
      · rw [hmprv]
    · rfl
  simp [returnS, CsrBlock.machineView, hm]

/-- An instruction begun below M-mode with MPRV clear keeps the frame until it traps. -/
theorem exec_lowerFrame {i : Instr} (hw : s.platform.wf) (hmprv : s.csr.mstatus.getLsbD 17 = false) (hp : s.priv ≠ .m)
    (h : exec i s = .next t) (ht : t.exc = none) : LowerFrame s t.platform t.priv t.csr := by
  refine UntilTrap.exec (lowerFrame_kept hw hmprv) (fun _ => ⟨rfl, hp, rfl, fun hu => ⟨hu, rfl⟩⟩) (fun hm => absurd hm hp)
    (fun hu _ => ⟨rfl, ?_, returnS_machineView hmprv, fun h => absurd h hu⟩) h ht
  simp only [returnS, sppMode]
  split <;> simp

-- ---- which interrupt is taken ----

/-- Pending and enabled, as the stages compute it. -/
theorem pendingEnabled_iff (i : Interrupt) (s : State) :
    PendingEnabled i s ↔ s.csr.mie.getLsbD (interruptCode i) = true ∧ (effectiveMip s.csr).getLsbD (interruptCode i) = true := by
  have hcode : interruptCode i = 9 ↔ i = .sei := by cases i <;> decide
  rw [getLsbD_effectiveMip, Bool.or_eq_true, Bool.and_eq_true, decide_eq_true_iff, hcode]

/-- Takable in M-mode: the M stage is open and the interrupt active in it (spec 60_exceptions.md R430). -/
theorem takableM_iff (i : Interrupt) (s : State) : TakableM i s ↔ canTrapM s = true ∧ activeM s i = true := by
  have hcan : canTrapM s = true ↔ (s.priv = .m → s.csr.mstatus.getLsbD 3 = true) := by
    unfold canTrapM
    cases s.priv <;> simp [mstatusMie]
  rw [TakableM, pendingEnabled_iff, hcan, activeM, Bool.and_eq_true, Bool.and_eq_true, Bool.not_eq_true']
  constructor
  · rintro ⟨⟨hmie, hmip⟩, hdel, hc⟩
    exact ⟨hc, ⟨hmie, hdel⟩, hmip⟩
  · rintro ⟨hc, ⟨hmie, hdel⟩, hmip⟩
    exact ⟨⟨hmie, hmip⟩, hdel, hc⟩

/-- Takable in S-mode: the S stage is open and the interrupt one of its own and active in it (spec 60_exceptions.md R430). -/
theorem takableS_iff (i : Interrupt) (s : State) :
    TakableS i s ↔ canTrapS s = true ∧ i ∈ sPriority ∧ activeS s i = true := by
  have hcan : canTrapS s = true ↔ (s.priv = .u ∨ s.priv = .s ∧ s.csr.mstatus.getLsbD 1 = true) := by
    unfold canTrapS
    cases s.priv <;> simp [mstatusSie]
  have hmem : i ∈ sPriority ↔ (i = .ssi ∨ i = .sti ∨ i = .sei) := by cases i <;> decide
  rw [TakableS, pendingEnabled_iff, hcan, hmem, activeS, Bool.and_eq_true]
  constructor
  · rintro ⟨hact, hi, hc⟩
    exact ⟨hc, hi, hact⟩
  · rintro ⟨hc, hi, hact⟩
    exact ⟨hact, hi, hc⟩

/-- The interrupts before `i` are what stands before it in the order of the M stage. -/
theorem mPriority_split (i : Interrupt) : ∃ l, mPriority = beforeM i ++ i :: l := by cases i <;> exact ⟨_, rfl⟩

/-- The interrupts before `i` are what stands before it in the order of the S stage. -/
theorem sPriority_split {i : Interrupt} (h : i ∈ sPriority) : ∃ l, sPriority = beforeS i ++ i :: l := by
  simp only [sPriority, List.mem_cons, List.not_mem_nil, or_false] at h
  rcases h with rfl | rfl | rfl <;> exact ⟨_, rfl⟩

theorem mStage_eq_none (h : ∀ i, ¬TakableM i s) : mStage s = none := by
  unfold mStage
  split
  · rename_i hc
    exact List.find?_eq_none.mpr fun i _ ha => h i ((takableM_iff i s).mpr ⟨hc, ha⟩)
  · rfl

theorem mStage_eq_some {i : Interrupt} (h : TakenM i s) : mStage s = some i := by
  obtain ⟨hi, hbefore⟩ := h
  obtain ⟨hc, ha⟩ := (takableM_iff i s).mp hi
  obtain ⟨l, hl⟩ := mPriority_split i
  rw [mStage, if_pos hc, List.find?_eq_some_iff_append]
  refine ⟨ha, _, l, hl, fun j hj => ?_⟩
  have := hbefore j hj
  rw [takableM_iff] at this
  simpa [hc] using this

theorem sStage_eq_none (h : ∀ i, ¬TakableS i s) : sStage s = none := by
  unfold sStage
  split
  · rename_i hc
    exact List.find?_eq_none.mpr fun i hi ha => h i ((takableS_iff i s).mpr ⟨hc, hi, ha⟩)
  · rfl

theorem sStage_eq_some {i : Interrupt} (hi : TakableS i s) (hbefore : ∀ j ∈ beforeS i, ¬TakableS j s) : sStage s = some i := by
  obtain ⟨hc, hm, ha⟩ := (takableS_iff i s).mp hi
  obtain ⟨l, hl⟩ := sPriority_split hm
  rw [sStage, if_pos hc, List.find?_eq_some_iff_append]
  refine ⟨ha, _, l, hl, fun j hj => ?_⟩
  have := hbefore j hj
  rw [takableS_iff] at this
  simpa [hc, show j ∈ sPriority by rw [hl]; simp [hj]] using this

/-- With no interrupt takable nothing happens (spec 60_exceptions.md R430). -/
theorem tryInterrupt_of_none (hm : ∀ i, ¬TakableM i s) (hs : ∀ i, ¬TakableS i s) : tryInterrupt s = .next s := by
  simp [tryInterrupt, mStage_eq_none hm, sStage_eq_none hs]

theorem tryInterrupt_of_takenM {i : Interrupt} (h : TakenM i s) : tryInterrupt s = enterM (.interrupt i) s := by
  simp [tryInterrupt, mStage_eq_some h]

theorem tryInterrupt_of_takenS {i : Interrupt} (h : TakenS i s) : tryInterrupt s = enterS (.interrupt i) s := by
  obtain ⟨hm, hi, hbefore⟩ := h
  simp [tryInterrupt, mStage_eq_none hm, sStage_eq_some hi hbefore]

theorem enterM_of_vector {c : Trap} {v : Word} (h : trapVector s.csr.mtvec c = some v) : enterM c s = .next { s with
    csr := { s.csr with
      mepc := savedPc c s, mcause := causeWord c, mtval := s.csr.tvalNext, mstatus := mstatusEnterM s.csr.mstatus s.priv }
    priv := .m, stdby := false, pcNext := v } := by
  simp [enterM, h]

theorem enterS_of_vector {c : Trap} {v : Word} (h : trapVector s.csr.stvec c = some v) : enterS c s = .next { s with
    csr := { s.csr with
      sepc := savedPc c s, scause := causeWord c, stval := s.csr.tvalNext, mstatus := mstatusEnterS s.csr.mstatus s.priv }
    priv := .s, stdby := false, pcNext := v } := by
  simp [enterS, h]

-- ---- the end of a quiet tick ----

/-- Where phase 1 raised nothing the accounting reads the state after it, and the interrupt check runs. -/
theorem finishTick_of_quiet {s1 u : State} {delta : DWord} (he : s1.exc = none)
    (hu : tryInterrupt (account s1.priv s1.stdby delta s1) = .next u) : finishTick s s1 delta = .next (advance u) := by
  simp [finishTick, accountView, interruptPhase, he, hu]

theorem isSum_add_four (w : Word) : IsSum (w + 4#32) w 4 := by
  rw [IsSum, BitVec.toNat_add]
  simp

theorem causeWord_interrupt_toNat (i : Interrupt) : (causeWord (.interrupt i)).toNat = 2 ^ 31 + interruptCode i := by
  cases i <;> rfl

theorem writeCsr_tvalNext (r : CsrReg) (v : Word) (c : CsrBlock) : (writeCsr r v c).tvalNext = c.tvalNext := by
  cases r <;> rfl

/-- Until a trap `tval_next` stays 0 (spec 10_state.md R31). -/
abbrev TvalZero (s : State) : Prop := UntilTrap (fun _ _ c => c.tvalNext = 0#32) s

theorem tvalZero_kept : Kept TvalZero :=
  untilTrap_kept (fun x tm v n val _ h => by rw [timerWrite_eq]; exact h)
    (fun x n r v _ h => (writeCsr_tvalNext r v x.csr).trans h)

/-- A phase 1 that raises nothing leaves `tval_next` 0. -/
theorem phase1_tvalZero {af : Bool} (h0 : s.csr.tvalNext = 0#32) (h : phase1 af s = .next t) : TvalZero t := by
  rcases phase1_cases af s with ⟨-, e⟩ | ⟨-, -, e⟩ | ⟨-, tr, -, ⟨-, e⟩ | ⟨w, f, hf, e⟩⟩ <;> rw [e] at h
  · cases h; exact fun _ => h0
  · exact .of_exc (takeException_exc h)
  · cases h
  · have hfcsr : f.csr = s.csr := by rw [dicFetch_eq hf, writeBackState_csr, clearExc_csr]
    have hf0 : f.csr.tvalNext = 0#32 := hfcsr ▸ h0
    unfold execWord at h
    split at h
    · exact UntilTrap.exec tvalZero_kept (fun _ => hf0) (fun _ _ => hf0) (fun _ _ => hf0) h
    · exact .of_exc (takeException_exc h)

/-- A tick that raised nothing and takes an interrupt ends in its handler: the pc takes `pc_next`, and beside it only `tval_next` is
cleared. -/
theorem finishTick_of_interrupt {s1 u : State} {delta : DWord} (he : s1.exc = none)
    (hu : tryInterrupt (account s1.priv s1.stdby delta s1) = .next u) (hs : u.stdby = false) :
    ∃ t, finishTick s s1 delta = .next t ∧ t.pc = u.pcNext ∧ IsSum t.pcNext u.pcNext 4 ∧ t.priv = u.priv ∧ t.stdby = false ∧
      (∀ r, t.x r = u.x r) ∧ SameBytes u t ∧ t.csr = { u.csr with tvalNext := 0#32 } := by
  refine ⟨_, finishTick_of_quiet he hu, ?_, ?_, advance_priv u, (advance_stdby u).trans hs, advance_x u,
    fun a => by rw [advance_mem], advance_csr u⟩
  · rw [advance_pc, hs]; rfl
  · rw [advance_pcNext, hs]; exact isSum_add_four _

end

-- ---- the obligations ----

/-- Settles O60: the machine level's view is unchanged, and it holds every item of the list. -/
theorem lowerModesLeaveMachineState : Obligations.LowerModesLeaveMachineState := by
  intro i s t hw hmprv _ h ht
  refine ⟨fun hu => ?_, fun hs => ?_⟩
  · exact ((exec_lowerFrame hw hmprv (by simp [hu]) h ht).user hu).symm
  · have hv := (exec_lowerFrame hw hmprv (by simp [hs]) h ht).view
    refine ⟨(congrArg CsrBlock.mtvec hv :), (congrArg CsrBlock.mepc hv :), (congrArg CsrBlock.mcause hv :),
      (congrArg CsrBlock.mtval hv :), (congrArg CsrBlock.medeleg hv :), (congrArg CsrBlock.mideleg hv :),
      (congrArg CsrBlock.mscratch hv :), (congrArg CsrBlock.mcounteren hv :), (congrArg CsrBlock.mcountinhibit hv :),
      (congrArg CsrBlock.cycle hv :), (congrArg CsrBlock.instret hv :), (congrArg CsrBlock.hpmcounters hv :),
      (congrArg CsrBlock.hpmevents hv :), (congrArg CsrBlock.mhartid hv :), (congrArg CsrBlock.externalSeip hv :),
      (congrArg CsrBlock.mtime hv :), (congrArg CsrBlock.mtimecmp hv :), fun k hk => mstatus_bit_of_machineView hv ?_,
      fun k hk => mie_bit_of_machineView hv ?_, fun k hk => mip_bit_of_machineView hv hk⟩
    · revert k; decide
    · revert k; decide

/-- Settles O47: the interrupt check runs on the accounted state, and the advance of the pc closes the tick. -/
theorem quietTickAdvances : Obligations.QuietTickAdvances := by
  rintro s s1 _ delta he rfl
  refine ⟨fun hm hs => ?_, fun i v hi hv => ?_, fun i v hi hv => ?_, fun af h0 h1 => phase1_tvalZero h0 h1 he⟩
  · refine ⟨_, finishTick_of_quiet he (tryInterrupt_of_none hm hs), fun hs => ?_, fun hs => ?_, fun r => ?_, fun a => ?_, ?_⟩
    · rw [advance_pc, advance_pcNext, account_stdby, hs]
      exact ⟨rfl, isSum_add_four _⟩
    · rw [advance_pc, advance_pcNext, account_stdby, hs]
      exact ⟨rfl, rfl⟩
    · rw [advance_x]; rfl
    · rw [advance_mem]; rfl
    · rw [advance_eq]; exact ⟨rfl, rfl, rfl, rfl, rfl⟩
  · have hu := (tryInterrupt_of_takenM hi).trans (enterM_of_vector hv)
    obtain ⟨t, ht, hpc, hnext, hpriv, hstdby, hx, hmem, hcsr⟩ := finishTick_of_interrupt he hu rfl
    refine ⟨t, ht, hpc, hnext, hpriv, hstdby, hx, hmem, ?_⟩
    rw [hcsr]
    exact ⟨rfl, causeWord_interrupt_toNat i, rfl, fun k hk => getLsbD_mstatusEnterM _ _ hk⟩
  · have hu := (tryInterrupt_of_takenS hi).trans (enterS_of_vector hv)
    obtain ⟨t, ht, hpc, hnext, hpriv, hstdby, hx, hmem, hcsr⟩ := finishTick_of_interrupt he hu rfl
    refine ⟨t, ht, hpc, hnext, hpriv, hstdby, hx, hmem, ?_⟩
    rw [hcsr]
    exact ⟨rfl, causeWord_interrupt_toNat i, rfl, fun k hk => getLsbD_mstatusEnterS _ _ hk⟩

end Sys2Proof.Machine
end

section
/-! PROOF. Physical memory: reads (PhysicalReads), writes (PhysicalWrites), the reservation probe (ReservationProbe), the fetch through
the decode cache (FetchSeesMemory). -/

namespace Sys2Proof.Machine

open Sys2Proof.Claim

-- ---- numbers of words put together from parts ----

/-- Two bit strings put side by side, as a number. -/
theorem append_toNat {m n : Nat} (hi : BitVec m) (lo : BitVec n) : (hi ++ lo).toNat = hi.toNat * 2 ^ n + lo.toNat := by
  rw [BitVec.toNat_append, ← Nat.shiftLeft_add_eq_or_of_lt lo.isLt, Nat.shiftLeft_eq]

theorem onesOf_toNat (n : Width) : (onesOf n).toNat = 256 ^ bytesOf n - 1 := by cases n <;> rfl

/-- The low bytes of a word that an access of the width moves. -/
theorem and_onesOf (v : Word) (n : Width) : v &&& onesOf n = BitVec.ofNat 32 (v.toNat % 256 ^ bytesOf n) := by
  have hmod : v.toNat % 256 ^ bytesOf n < 2 ^ 32 := Nat.lt_of_le_of_lt (Nat.mod_le ..) v.isLt
  apply BitVec.eq_of_toNat_eq
  rw [BitVec.toNat_and, onesOf_toNat, BitVec.toNat_ofNat, Nat.mod_eq_of_lt hmod, show 256 = 2 ^ 8 from rfl, ← Nat.pow_mul,
    Nat.and_two_pow_sub_one_eq_mod]

/-- Byte `k` of a word, cut out of it. -/
theorem extractLsb'_byte_toNat (v : Word) (k : Nat) : (v.extractLsb' (8 * k) 8).toNat = byteAt v.toNat k := by
  rw [BitVec.extractLsb'_toNat, Nat.shiftRight_eq_div_pow, Nat.pow_mul, byteAt]

-- ---- bytes of memory (spec 20_memory.md R110) ----

/-- The bytes of a value read are the bytes of memory, the lowest address first. -/
theorem byteAt_readValue (m : Memory) (a k : Nat) {n : Width} (hk : k < bytesOf n) :
    byteAt (m.readValue a n).toNat k = (m.read (a + k)).toNat := by
  have h0 := (m.read a).isLt
  have h1 := (m.read (a + 1)).isLt
  have h2 := (m.read (a + 2)).isLt
  have h3 := (m.read (a + 3)).isLt
  cases n <;> simp only [bytesOf] at hk <;>
    simp only [Memory.readValue, zext, append_toNat, BitVec.toNat_setWidth, byteAt]
  · obtain rfl : k = 0 := by omega
    show _ = (m.read a).toNat; omega
  · obtain rfl | rfl : k = 0 ∨ k = 1 := by omega
    · show _ = (m.read a).toNat; omega
    · omega
  · obtain rfl | rfl | rfl | rfl : k = 0 ∨ k = 1 ∨ k = 2 ∨ k = 3 := by omega
    · show _ = (m.read a).toNat; omega
    all_goals omega

/-- A value read fits its width. -/
theorem readValue_lt (m : Memory) (a : Nat) (n : Width) : (m.readValue a n).toNat < 256 ^ bytesOf n := by
  cases n <;> simp only [Memory.readValue, zext, bytesOf, BitVec.toNat_setWidth]
  · have := (m.read a).isLt; omega
  · have := (m.read (a + 1) ++ m.read a).isLt; omega
  · exact BitVec.isLt _

/-- A byte of memory after a store: a byte of the value, or the old one. -/
theorem read_writeValue_toNat {m : Memory} (hm : m.wf) (a x : Nat) (v : Word) (n : Width) :
    ((m.writeValue a v n).read x).toNat =
      if a ≤ x ∧ x < a + bytesOf n then byteAt v.toNat (x - a) else (m.read x).toNat := by
  split
  · rename_i hx
    obtain ⟨k, rfl⟩ := Nat.exists_eq_add_of_le hx.1
    rw [Memory.read_writeValue m hm a k (by omega) v, extractLsb'_byte_toNat, Nat.add_sub_cancel_left]
  · rw [Memory.read_writeValue_other m (by omega) v]

-- ---- physical reads ----

/-- A buffer is read byte by byte. -/
theorem pmValue_of_buffer {s : State} {phys : PAddr} {r : Region} (hr : s.regionAt phys = some r) (hb : r.backing = .buffer)
    (n : Width) (noisy : Bool) : pmValue phys n noisy s = s.mem.readValue phys.toNat n := by
  simp [pmValue, hr, hb]

/-- A device's answer is cut down to the width. -/
theorem pmValue_of_device {s : State} {phys : PAddr} {r : Region} (hr : s.regionAt phys = some r) (hb : r.backing = .device)
    (n : Width) (noisy : Bool) :
    pmValue phys n noisy s = Config.deviceRead s.tick s.deviceCalls phys.toNat (bytesOf n) noisy &&& onesOf n := by
  simp [pmValue, hr, hb]

/-- Where no region covers the address every bit reads 1. -/
theorem pmValue_of_none {s : State} {phys : PAddr} (hr : s.regionAt phys = none) (n : Width) (noisy : Bool) :
    pmValue phys n noisy s = onesOf n := by
  simp [pmValue, hr]

theorem onesOf_lt (n : Width) : (onesOf n).toNat < 256 ^ bytesOf n := by cases n <;> decide

theorem pmValue_lt (phys : PAddr) (n : Width) (noisy : Bool) (s : State) :
    (pmValue phys n noisy s).toNat < 256 ^ bytesOf n := by
  cases hr : s.regionAt phys with
  | none => rw [pmValue_of_none hr]; exact onesOf_lt n
  | some r =>
    cases hb : r.backing with
    | buffer => rw [pmValue_of_buffer hr hb]; exact readValue_lt ..
    | device =>
      rw [pmValue_of_device hr hb, BitVec.toNat_and]
      exact Nat.lt_of_le_of_lt Nat.and_le_right (onesOf_lt n)

/-- A noisy read of a device is recorded. -/
theorem pmReadState_of_device {s : State} {phys : PAddr} (h : IsDevice phys s) (n : Width) :
    pmReadState phys n true s = { s with deviceCalls := .read phys.toNat (bytesOf n) :: s.deviceCalls } := by
  obtain ⟨r, hr, hb⟩ := h
  simp [pmReadState, hr, hb]

/-- A read outside the devices leaves no trace. -/
theorem pmReadState_of_not_device {s : State} {phys : PAddr} (h : ¬IsDevice phys s) (n : Width) (noisy : Bool) :
    pmReadState phys n noisy s = s := by
  unfold pmReadState
  cases hr : s.regionAt phys with
  | none => rfl
  | some r =>
    cases hb : r.backing with
    | buffer => simp [hb]
    | device => exact absurd ⟨r, hr, hb⟩ h

@[simp] theorem pmReadState_regs (phys : PAddr) (n : Width) (noisy : Bool) (s : State) :
    (pmReadState phys n noisy s).regs = s.regs := by rw [pmReadState_eq]
@[simp] theorem pmReadState_mem (phys : PAddr) (n : Width) (noisy : Bool) (s : State) :
    (pmReadState phys n noisy s).mem = s.mem := by rw [pmReadState_eq]

/-- The device calls after a noisy read. -/
theorem readCalls_pmReadState (phys : PAddr) (n : Width) (s : State) : ReadCalls phys n s (pmReadState phys n true s) :=
  ⟨fun h => by rw [pmReadState_of_device h], fun h => by rw [pmReadState_of_not_device h]⟩

-- ---- physical writes ----

theorem frameTouched_eq_false_iff (f a n : Nat) : frameTouched f a n = false ↔ ¬(f < a + n ∧ a < f + 4096) :=
  decide_eq_false_iff_not

theorem pmWritable_iff (phys : PAddr) (s : State) :
    pmWritable phys s = true ↔ ∃ r, s.regionAt phys = some r ∧ r.writable = true := by
  unfold pmWritable
  cases s.regionAt phys <;> simp

theorem pmWrite_fst (phys : PAddr) (n : Width) (v : Word) (noisy : Bool) (s : State) :
    (pmWrite phys n v noisy s).1 = pmWritable phys s := by
  rcases pmWrite_cases phys n v noisy s with ⟨hw, -, h⟩ | ⟨hw, -, h⟩ | ⟨hw, -, h⟩ <;> rw [h, hw]

/-- A refused write changes nothing. -/
theorem pmWrite_of_not_writable {s : State} {phys : PAddr} (hw : pmWritable phys s = false) (n : Width) (v : Word)
    (noisy : Bool) : pmWrite phys n v noisy s = (false, s) := by
  simp [pmWrite, hw]

/-- A write that succeeds ends the reservation it hits, and no other. -/
theorem pmWrite_reservedValid {s : State} {phys : PAddr} (hw : pmWritable phys s = true) (n : Width) (v : Word)
    (noisy : Bool) : (pmWrite phys n v noisy s).2.reservedValid = (s.reservedValid && !reservationHit phys s) := by
  rcases pmWrite_cases phys n v noisy s with ⟨hw', -, -⟩ | ⟨-, -, h⟩ | ⟨-, -, h⟩
  · simp [hw] at hw'
  · rw [h]
  · rw [h]

@[simp] theorem pmWrite_reservedAddr (phys : PAddr) (n : Width) (v : Word) (noisy : Bool) (s : State) :
    (pmWrite phys n v noisy s).2.reservedAddr = s.reservedAddr := by rw [pmWrite_eq]

/-- A reservation that is held is hit exactly on its own word. -/
theorem reservedValid_and_not_hit (phys : PAddr) (s : State) :
    (s.reservedValid && !reservationHit phys s) =
      (s.reservedValid && !decide (s.reservedAddr.toNat = phys.toNat / 4 * 4)) := by
  rw [Bool.eq_iff_iff]
  simp only [Bool.and_eq_true, Bool.not_eq_true', ← Bool.not_eq_true, reservationHit_iff, decide_eq_true_eq]
  tauto

/-- A physical write, in the words of the statements: bytes, `valid` bits, device calls and the reservation. -/
theorem stored_pmWrite {s : State} (hm : s.mem.wf) (phys : PAddr) (n : Width) (v : Word) :
    Stored phys n v s (pmWrite phys n v true s).2 := by
  rcases pmWrite_cases phys n v true s with ⟨hw, hr, h⟩ | ⟨hw, hr, h⟩ | ⟨hw, hr, h⟩ <;> rw [h]
  · constructor <;> simp [hw, hr]
  · refine ⟨rfl, fun a => ?_, fun f => ?_, ?_, ?_⟩
    · simp [hr, read_writeValue_toNat hm]
    · simp only [mem_clearValid, frameTouched_eq_false_iff, hr, true_and]
    · simp [hr]
    · simp [hw, reservedValid_and_not_hit]
  · refine ⟨rfl, ?_, ?_, ?_, ?_⟩
    · simp [hr]
    · simp [hr]
    · simp [hw, hr, and_onesOf]
    · simp [hw, reservedValid_and_not_hit]

-- ---- the obligations ----

/-- Settles O51: by what backs the region, the value is a buffer's, a device's answer, or all ones. -/
theorem physicalReads : Obligations.PhysicalReads := by
  intro phys n noisy s
  refine ⟨fun r hr hb k hk => ?_, pmValue_lt phys n noisy s, fun hr => ?_, ?_⟩
  · rw [pmRead, pmValue_of_buffer hr hb]
    exact byteAt_readValue _ _ _ hk
  · rw [pmRead, pmValue_of_none hr]
    exact onesOf_toNat n
  · rintro (rfl | hd)
    · exact pmReadState_quiet ..
    · exact pmReadState_of_not_device hd ..

/-- Settles O52: the region decides whether the write succeeds, and one that does ends the reservation on its word. -/
theorem physicalWrites : Obligations.PhysicalWrites := by
  intro phys n v s hm
  rw [pmWrite_fst]
  refine ⟨pmWritable_iff phys s, stored_pmWrite hm phys n v, fun hw => ?_, fun hw => ?_⟩
  · rw [pmWrite_of_not_writable hw]
  · rw [pmWrite_reservedValid hw, pmWrite_reservedAddr, reservedValid_and_not_hit]
    rintro ⟨hvalid, haddr⟩
    simp [haddr] at hvalid

/-- Settles O53: every entry a fetch consults or builds holds its frame as memory does. -/
theorem fetchSeesMemory : Obligations.FetchSeesMemory := fun _ phys hp hd => dicFetch_coherent hp hd phys

/-- Settles O22: the probe and the store that makes it look at the same reservation. -/
theorem reservationProbe : Obligations.ReservationProbe := by
  intro s phys n v
  rw [← reservationHit_iff, pmWrite_fst]
  refine ⟨fun h => ?_, fun h => ?_, fun hw => ?_⟩
  · rw [scAccess, if_pos h]; rfl
  · rw [scAccess, if_neg h]
  · rw [pmWrite_reservedValid hw, scAccess_eq]

end Sys2Proof.Machine
end

section
/-! PROOF. Translation: the effective privilege (EffectivePrivilege), the walk (TranslationWalk), its write-back and its fault
(TranslationEffects); and the accesses that come before and after it, the timer window (TimerWindow) and LR.W
(LoadReservedCompletes). -/

namespace Sys2Proof.Machine

open Sys2Proof.Claim

-- ---- the effective privilege (spec 20_memory.md R121) ----

/-- With MPRV clear every access is made in the current mode. -/
theorem effPriv_of_mprv_clear {intent : Intent} {s : State} (h : s.csr.mstatus.getLsbD 17 = false) :
    effPriv intent s = s.priv := by
  have hm : mstatusMprv s.csr.mstatus = false := h
  cases intent <;> simp [effPriv, hm]

/-- With MPRV set a data access is made in the mode of MPP. -/
theorem effPriv_of_mprv {intent : Intent} {s : State} (hi : intent ≠ .fetch) (h : s.csr.mstatus.getLsbD 17 = true) :
    effPriv intent s = mstatusMpp s.csr.mstatus := by
  have hm : mstatusMprv s.csr.mstatus = true := h
  cases intent
  case fetch => exact absurd rfl hi
  all_goals simp [effPriv, hm]

theorem mppBits_toNat (w : Word) : (mstatusMppBits w).toNat = w.toNat / 2 ^ 11 % 4 := by
  rw [mstatusMppBits, BitVec.extractLsb'_toNat, Nat.shiftRight_eq_div_pow]

theorem modeBits_toNat (p : Mode) : (modeBits p).toNat = modeNum p := by cases p <;> rfl

/-- The MPP field names the mode whose number it holds. -/
theorem mstatusMpp_of_num {w : Word} {p : Mode} (h : w.toNat / 2 ^ 11 % 4 = modeNum p) : mstatusMpp w = p := by
  have hb : mstatusMppBits w = modeBits p := BitVec.eq_of_toNat_eq (by rw [mppBits_toNat, modeBits_toNat, h])
  rw [mstatusMpp, hb, modeOfBits_modeBits]

-- ---- page-table entries (spec 20_memory.md R122 to R125) ----

theorem pteValid_iff (p : Word) : pteValid p = true ↔ EntryValid p := by 
  simp [pteValid, pteV, pteW, pteR, EntryValid, or_iff_not_imp_left]

theorem pteLeaf_iff (p : Word) : pteLeaf p = true ↔ EntryLeaf p := by
  simp [pteLeaf, pteR, pteW, pteX, or_assoc, EntryLeaf]

/-- The permission check, line by line; M never reaches it. -/
theorem pteAllowed_iff (p : Word) (intent : Intent) {eff : Mode} (heff : eff ≠ .m) (mstatus : Word) :
    pteAllowed p intent eff mstatus = true ↔ EntryAllows p intent eff mstatus := by
  have huser : userAllowed p intent eff mstatus = true ↔
      (eff = .s → p.getLsbD 4 = true → intent ≠ .fetch ∧ mstatus.getLsbD 18 = true) ∧ (eff = .u → p.getLsbD 4 = true) := by
    cases eff
    case m => exact absurd rfl heff
    case u => simp [userAllowed, pteU]
    case s => cases intent <;> simp [userAllowed, pteU, mstatusSum, or_iff_not_imp_left]
  have hintent : intentAllowed p intent mstatus = true ↔
      (intent = .write → p.getLsbD 2 = true) ∧ (intent = .fetch → p.getLsbD 3 = true) ∧
      (intent = .read → p.getLsbD 1 = true ∨ mstatus.getLsbD 19 = true ∧ p.getLsbD 3 = true) := by
    cases intent <;> simp [intentAllowed, pteW, pteX, pteR, mstatusMxr]
  rw [pteAllowed, Bool.and_eq_true, huser, hintent, EntryAllows]
  simp only [and_assoc]

/-- A successful access sets A, and D for a write. -/
theorem touched_pteTouched (p : Word) (intent : Intent) : Touched p intent (pteTouched p intent) := by
  intro k _
  cases intent <;> simp only [pteTouched, getLsbD_setBit] <;> grind

-- ---- the addresses of a walk (spec 20_memory.md R120, R126) ----

theorem vpn1_toNat (v : Word) : (vpn1 v).toNat = v.toNat / 2 ^ 22 := by
  rw [vpn1, BitVec.extractLsb'_toNat, Nat.shiftRight_eq_div_pow]; omega

theorem vpn0_toNat (v : Word) : (vpn0 v).toNat = v.toNat / 4096 % 1024 := by
  rw [vpn0, BitVec.extractLsb'_toNat, Nat.shiftRight_eq_div_pow]

theorem pageOff_toNat (v : Word) : (pageOff v).toNat = v.toNat % 4096 := by
  rw [pageOff, BitVec.extractLsb'_toNat, Nat.shiftRight_zero]

theorem satpPpn_toNat (w : Word) : (satpPpn w).toNat = w.toNat % 2 ^ 22 := by
  rw [satpPpn, BitVec.extractLsb'_toNat, Nat.shiftRight_zero]

theorem ptePpn_toNat (p : Word) : (ptePpn p).toNat = p.toNat / 1024 := by
  rw [ptePpn, BitVec.extractLsb'_toNat, Nat.shiftRight_eq_div_pow]; omega

theorem ptePpn0_toNat (p : Word) : (ptePpn0 p).toNat = p.toNat / 1024 % 1024 := by
  rw [ptePpn0, BitVec.extractLsb'_toNat, Nat.shiftRight_eq_div_pow]

theorem ptePpn1_toNat (p : Word) : (ptePpn1 p).toNat = p.toNat / 2 ^ 20 := by
  rw [ptePpn1, BitVec.extractLsb'_toNat, Nat.shiftRight_eq_div_pow]; omega

/-- An entry's address does not wrap. -/
theorem pteAddr_eq (ppn : BitVec 22) (vpn : BitVec 10) :
    pteAddr ppn vpn = BitVec.ofNat 36 (ppn.toNat * 4096 + vpn.toNat * 4) := by
  apply BitVec.eq_of_toNat_eq
  simp only [pteAddr, BitVec.toNat_add, BitVec.toNat_shiftLeft, BitVec.toNat_setWidth, Nat.shiftLeft_eq, BitVec.toNat_ofNat]
  omega

theorem pteAddr_entry1 (v : Word) (s : State) : pteAddr (satpPpn s.csr.satp) (vpn1 v) = entry1Addr v s := by
  rw [pteAddr_eq, satpPpn_toNat, vpn1_toNat, entry1Addr]

theorem pteAddr_entry0 (v : Word) (s : State) : pteAddr (ptePpn (entry1 v s)) (vpn0 v) = entry0Addr v s := by
  rw [pteAddr_eq, ptePpn_toNat, vpn0_toNat, entry0Addr]

theorem ptePpn0_eq_zero_iff (p : Word) : ptePpn0 p = 0#10 ↔ p.toNat / 1024 % 1024 = 0 := by
  rw [← BitVec.toNat_inj, ptePpn0_toNat]; rfl

/-- A megapage's address keeps the low 22 bits of the virtual one. -/
theorem megaAddr_toNat (p v : Word) : (megaAddr p v).toNat = p.toNat / 2 ^ 20 * 2 ^ 22 + v.toNat % 2 ^ 22 := by
  rw [megaAddr, BitVec.toNat_setWidth, append_toNat, append_toNat, ptePpn1_toNat, vpn0_toNat, pageOff_toNat]
  omega

/-- A page's address keeps the low 12 bits of the virtual one. -/
theorem pageAddr_toNat (p v : Word) : (pageAddr p v).toNat = p.toNat / 1024 * 4096 + v.toNat % 4096 := by
  rw [pageAddr, BitVec.toNat_setWidth, append_toNat, ptePpn_toNat, pageOff_toNat]
  omega

-- ---- the walk (spec 20_memory.md R120) ----

theorem translationActive_iff (intent : Intent) (s : State) :
    translationActive intent s = true ↔ 2 ^ 31 ≤ s.csr.satp.toNat ∧ effPriv intent s ≠ .m := by
  have hmode : satpMode s.csr.satp = true ↔ 2 ^ 31 ≤ s.csr.satp.toNat := by
    rw [satpMode, ← BitVec.msb_eq_getLsbD_last]; rw [BitVec.msb_eq_true_iff_two_mul_ge]; omega
  simp [translationActive, hmode]

/-- The walk ends in a leaf of the first level or of the second. -/
theorem findLeaf_eq_some_iff (v : Word) (s : State) (l : Leaf) : findLeaf v s = some l ↔
    (EntryValid (entry1 v s) ∧ EntryLeaf (entry1 v s) ∧ (entry1 v s).toNat / 1024 % 1024 = 0 ∧
      { addr := entry1Addr v s, pte := entry1 v s, phys := megaAddr (entry1 v s) v } = l) ∨
    (EntryValid (entry1 v s) ∧ ¬EntryLeaf (entry1 v s) ∧ EntryValid (entry0 v s) ∧ EntryLeaf (entry0 v s) ∧
      { addr := entry0Addr v s, pte := entry0 v s, phys := pageAddr (entry0 v s) v } = l) := by
  have h1 : pteAt (entry1Addr v s) s = entry1 v s := rfl
  have h0 : pteAt (entry0Addr v s) s = entry0 v s := rfl
  simp only [← pteValid_iff, ← pteLeaf_iff, ← ptePpn0_eq_zero_iff]
  simp only [findLeaf, pteAddr_entry1, h1, pteAddr_entry0, h0]
  cases pteValid (entry1 v s)
  · simp
  · cases pteLeaf (entry1 v s)
    · cases pteValid (entry0 v s) <;> cases pteLeaf (entry0 v s) <;> simp
    · by_cases hp : ptePpn0 (entry1 v s) = 0#10 <;> simp [hp]

/-- Bare, or at effective privilege M, an address is its own translation. -/
theorem translation_of_not_active {intent : Intent} {s : State} (h : ¬translationActive intent s = true) (v : Word) :
    translation v intent s = some { phys := v.setWidth 36, writeBack := none } := by
  rw [translation, if_neg h]

/-- A walk succeeds with a leaf that allows the access, and gives it to write back. -/
theorem translation_eq_some_iff {intent : Intent} {s : State} (h : translationActive intent s = true) (v : Word)
    (tr : Translation) : translation v intent s = some tr ↔
      ∃ l, findLeaf v s = some l ∧ EntryAllows l.pte intent (effPriv intent s) s.csr.mstatus ∧
        { phys := l.phys, writeBack := some (l.addr, pteTouched l.pte intent) } = tr := by
  simp only [← pteAllowed_iff _ intent ((translationActive_iff intent s).mp h).2]
  rw [translation, if_pos h]
  cases findLeaf v s with
  | none => simp
  | some l => cases pteAllowed l.pte intent (effPriv intent s) s.csr.mstatus <;> simp

theorem translation_of_megaHit {v : Word} {intent : Intent} {s : State} (h : translationActive intent s = true)
    (hit : MegaHit v intent s) : translation v intent s = some {
      phys := megaAddr (entry1 v s) v, writeBack := some (entry1Addr v s, pteTouched (entry1 v s) intent) } := by
  obtain ⟨hv, hl, hp, ha⟩ := hit
  exact (translation_eq_some_iff h v _).mpr ⟨_, (findLeaf_eq_some_iff v s _).mpr (.inl ⟨hv, hl, hp, rfl⟩), ha, rfl⟩

theorem translation_of_pageHit {v : Word} {intent : Intent} {s : State} (h : translationActive intent s = true)
    (hit : PageHit v intent s) : translation v intent s = some {
      phys := pageAddr (entry0 v s) v, writeBack := some (entry0Addr v s, pteTouched (entry0 v s) intent) } := by
  obtain ⟨hv, hl, hv0, hl0, ha⟩ := hit
  exact (translation_eq_some_iff h v _).mpr ⟨_, (findLeaf_eq_some_iff v s _).mpr (.inr ⟨hv, hl, hv0, hl0, rfl⟩), ha, rfl⟩

/-- A walk that ends in neither leaf faults. -/
theorem translation_of_no_hit {v : Word} {intent : Intent} {s : State} (h : translationActive intent s = true)
    (hmega : ¬MegaHit v intent s) (hpage : ¬PageHit v intent s) : translation v intent s = none := by
  refine Option.eq_none_iff_forall_ne_some.mpr fun tr htr => ?_
  obtain ⟨l, hl, ha, -⟩ := (translation_eq_some_iff h v tr).mp htr
  obtain ⟨hv, hleaf, hp, rfl⟩ | ⟨hv, hleaf, hv0, hl0, rfl⟩ := (findLeaf_eq_some_iff v s l).mp hl
  · exact hmega ⟨hv, hleaf, hp, ha⟩
  · exact hpage ⟨hv, hleaf, hv0, hl0, ha⟩

-- ---- the write-back (spec 20_memory.md R125) ----

/-- The write-back, in the words of the statements. -/
theorem afterTranslation_writeBack (tr : Translation) {s : State} (hm : s.mem.wf) :
    AfterTranslation tr s (writeBackState tr.writeBack s) := by
  unfold AfterTranslation
  cases tr.writeBack with
  | none => rfl
  | some wb => exact stored_pmWrite hm ..

/-- An aligned access whose translation succeeds goes on at the physical address. -/
theorem translateAligned_of_some {v : Word} {n : Width} {intent : Intent} {s : State} {tr : Translation}
    (h : translation v intent s = some tr) (ha : v.toNat % bytesOf n = 0) :
    translateAligned v n intent true s = .ok tr.phys (writeBackState tr.writeBack s) := by
  simp [translateAligned, translate_some h, (isAligned_iff v n).mpr ha]

-- ---- the timer window (spec 20_memory.md R140) ----

/-- The eight bytes of a timer register at a multiple of 8. -/
theorem inTimerRange_iff {base : Word} (hb : base.toNat % 8 = 0) (v : Word) :
    inTimerRange base v = true ↔ v.toNat / 8 * 8 = base.toNat := by
  rw [inTimerRange, decide_eq_true_iff]; omega

/-- The two timer registers do not overlap. -/
theorem not_inTimerRange_both {p : Platform} (hp : p.wf) {v : Word} (h : inTimerRange p.mtimecmpAddr v = true) :
    inTimerRange p.mtimeAddr v = false := by
  obtain ⟨-, ht, hc, hne, -⟩ := hp
  rw [inTimerRange_iff hc] at h
  rw [← Bool.not_eq_true, inTimerRange_iff ht]
  exact fun h' => hne (BitVec.eq_of_toNat_eq (h'.symm.trans h))

theorem timerHit_mtime_iff (v : Word) (n : Width) (s : State) : timerHit v n s = some .mtime ↔
    effPriv .read s = .m ∧ isAligned v n = true ∧ inTimerRange s.platform.mtimeAddr v = true := by
  unfold timerHit
  split_ifs <;> simp_all

theorem timerHit_mtimecmp_iff {s : State} (hp : s.platform.wf) (v : Word) (n : Width) :
    timerHit v n s = some .mtimecmp ↔
      effPriv .read s = .m ∧ isAligned v n = true ∧ inTimerRange s.platform.mtimecmpAddr v = true := by
  have hb := not_inTimerRange_both hp (v := v)
  unfold timerHit
  split_ifs <;> simp_all

-- ---- LR.W (spec 44_rv32a.md R291) ----

/-- The granule of the reservation, as a multiple of 4. -/
theorem granuleOf_eq (phys : PAddr) : granuleOf phys = BitVec.ofNat 36 (phys.toNat / 4 * 4) := by
  rw [← granuleOf_toNat, BitVec.ofNat_toNat, BitVec.setWidth_eq]

/-- A register write over a state with the registers of `s`. -/
theorem regsAfter_setX {s w : State} (hw : w.regs = s.regs) (rd : Reg) (v : Word) : RegsAfter rd v s (w.setX rd v) := by
  intro r
  rw [State.setX_x, State.x_congr hw]
  by_cases hr : r = rd <;> simp [hr]

/-- What LR.W comes to at an aligned address that is translated. -/
theorem exec_lrW {s : State} {rd rs1 : Reg} {tr : Translation} (aq rl : BitVec 1)
    (h : translation (s.x rs1) .read s = some tr) (ha : (s.x rs1).toNat % 4 = 0) :
    exec (.lrW rd rs1 aq rl) s =
      .next (((pmReadState tr.phys .word true (writeBackState tr.writeBack s)).setX rd
        (pmValue tr.phys .word true (writeBackState tr.writeBack s))).setReservation (granuleOf tr.phys) true) := by
  show execLrW rd rs1 aq rl s = _
  rw [execLrW, translateAligned_of_some (n := .word) h ha]
  rfl

-- ---- the obligations ----

/-- Settles O49: MPRV and the kind of access decide, and MPP holds the number of its mode. -/
theorem effectivePrivilege : Obligations.EffectivePrivilege := fun _ _ _ _ =>
  ⟨rfl, fun _ h => effPriv_of_mprv_clear h, fun hi h hp => (effPriv_of_mprv hi h).trans (mstatusMpp_of_num hp)⟩

/-- Settles O48: a walk is active or not, and an active one succeeds by one of the two leaves. -/
theorem translationWalk : Obligations.TranslationWalk := by
  intro v intent s
  refine ⟨fun hbare => ⟨_, translation_of_not_active (fun h => ?_) v, rfl, ?_⟩, fun hmode heff => ?_⟩
  · obtain ⟨hmode, heff⟩ := (translationActive_iff intent s).mp h
    exact hbare.elim (fun h => by omega) heff
  · rw [BitVec.toNat_setWidth]; omega
  · have hact := (translationActive_iff intent s).mpr ⟨hmode, heff⟩
    exact ⟨fun hit => ⟨_, _, translation_of_megaHit hact hit, rfl, touched_pteTouched _ _, megaAddr_toNat _ _⟩,
      fun hit => ⟨_, _, translation_of_pageHit hact hit, rfl, touched_pteTouched _ _, pageAddr_toNat _ _⟩,
      translation_of_no_hit hact⟩

/-- Settles O50: a translation that succeeds writes back by one physical write, and one that fails only raises. -/
theorem translationEffects : Obligations.TranslationEffects := by
  intro v intent s hm
  refine ⟨fun tr h => ⟨translate_some h false, _, translate_some h true, afterTranslation_writeBack tr hm⟩,
    fun h noisy => ?_⟩
  rw [translate_none h]
  cases intent <;> rfl

/-- Settles O17: each window is the eight bytes at its own multiple of 8, so the two never meet. -/
theorem timerWindow : Obligations.TimerWindow := by
  intro s addr n hp
  have ⟨_, ht, hc, _⟩ := hp
  rw [timerHit_mtime_iff, timerHit_mtimecmp_iff hp, isAligned_iff, inTimerRange_iff ht, inTimerRange_iff hc]
  exact ⟨.rfl, .rfl⟩

/-- Settles O18: after the translation LR.W reads the word, writes `rd` and reserves the granule. -/
theorem loadReservedCompletes : Obligations.LoadReservedCompletes := by
  intro s rd rs1 aq rl tr hm h ha
  refine ⟨_, _, afterTranslation_writeBack tr hm, exec_lrW aq rl h ha, ?_, ?_, fun a => ?_, ?_⟩
  · exact regsAfter_setX (by simp) rd _
  · rw [ReadCalls, State.setReservation_deviceCalls, State.setX_deviceCalls]
    exact readCalls_pmReadState ..
  · simp
  · rw [State.setX_eq, pmReadState_eq, granuleOf_eq]
    rfl

end Sys2Proof.Machine
end

section
/-! PROOF. Encoding: the two round trips of the decoder and the encoder (DecodeOfEncode, EncodeOfDecode), the exclusive
table (EncodingsExclusive), and the traps of what is no instruction (UnexecutableTraps). -/

namespace Sys2Proof.Laws

/-- Each instruction's word decodes by the row of its own constructor. -/
theorem roundTrip : ∀ i : Instr, RoundTrip.Statement i
  | .lui rd imm => RoundTrip.lui rd imm
  | .auipc rd imm => RoundTrip.auipc rd imm
  | .addi rd rs1 imm => RoundTrip.addi rd rs1 imm
  | .slti rd rs1 imm => RoundTrip.slti rd rs1 imm
  | .sltiu rd rs1 imm => RoundTrip.sltiu rd rs1 imm
  | .xori rd rs1 imm => RoundTrip.xori rd rs1 imm
  | .ori rd rs1 imm => RoundTrip.ori rd rs1 imm
  | .andi rd rs1 imm => RoundTrip.andi rd rs1 imm
  | .slli rd rs1 shamt => RoundTrip.slli rd rs1 shamt
  | .srli rd rs1 shamt => RoundTrip.srli rd rs1 shamt
  | .srai rd rs1 shamt => RoundTrip.srai rd rs1 shamt
  | .add rd rs1 rs2 => RoundTrip.add rd rs1 rs2
  | .sub rd rs1 rs2 => RoundTrip.sub rd rs1 rs2
  | .sll rd rs1 rs2 => RoundTrip.sll rd rs1 rs2
  | .slt rd rs1 rs2 => RoundTrip.slt rd rs1 rs2
  | .sltu rd rs1 rs2 => RoundTrip.sltu rd rs1 rs2
  | .xor rd rs1 rs2 => RoundTrip.xor rd rs1 rs2
  | .srl rd rs1 rs2 => RoundTrip.srl rd rs1 rs2
  | .sra rd rs1 rs2 => RoundTrip.sra rd rs1 rs2
  | .or rd rs1 rs2 => RoundTrip.or rd rs1 rs2
  | .and rd rs1 rs2 => RoundTrip.and rd rs1 rs2
  | .jal rd off => RoundTrip.jal rd off
  | .jalr rd rs1 imm => RoundTrip.jalr rd rs1 imm
  | .beq rs1 rs2 off => RoundTrip.beq rs1 rs2 off
  | .bne rs1 rs2 off => RoundTrip.bne rs1 rs2 off
  | .blt rs1 rs2 off => RoundTrip.blt rs1 rs2 off
  | .bge rs1 rs2 off => RoundTrip.bge rs1 rs2 off
  | .bltu rs1 rs2 off => RoundTrip.bltu rs1 rs2 off
  | .bgeu rs1 rs2 off => RoundTrip.bgeu rs1 rs2 off
  | .lb rd rs1 imm => RoundTrip.lb rd rs1 imm
  | .lh rd rs1 imm => RoundTrip.lh rd rs1 imm
  | .lw rd rs1 imm => RoundTrip.lw rd rs1 imm
  | .lbu rd rs1 imm => RoundTrip.lbu rd rs1 imm
  | .lhu rd rs1 imm => RoundTrip.lhu rd rs1 imm
  | .sb rs1 rs2 imm => RoundTrip.sb rs1 rs2 imm
  | .sh rs1 rs2 imm => RoundTrip.sh rs1 rs2 imm
  | .sw rs1 rs2 imm => RoundTrip.sw rs1 rs2 imm
  | .mul rd rs1 rs2 => RoundTrip.mul rd rs1 rs2
  | .mulh rd rs1 rs2 => RoundTrip.mulh rd rs1 rs2
  | .mulhsu rd rs1 rs2 => RoundTrip.mulhsu rd rs1 rs2
  | .mulhu rd rs1 rs2 => RoundTrip.mulhu rd rs1 rs2
  | .div rd rs1 rs2 => RoundTrip.div rd rs1 rs2
  | .divu rd rs1 rs2 => RoundTrip.divu rd rs1 rs2
  | .rem rd rs1 rs2 => RoundTrip.rem rd rs1 rs2
  | .remu rd rs1 rs2 => RoundTrip.remu rd rs1 rs2
  | .lrW rd rs1 aq rl => RoundTrip.lrW rd rs1 aq rl
  | .scW rd rs1 rs2 aq rl => RoundTrip.scW rd rs1 rs2 aq rl
  | .amoswapW rd rs1 rs2 aq rl => RoundTrip.amoswapW rd rs1 rs2 aq rl
  | .amoaddW rd rs1 rs2 aq rl => RoundTrip.amoaddW rd rs1 rs2 aq rl
  | .amoxorW rd rs1 rs2 aq rl => RoundTrip.amoxorW rd rs1 rs2 aq rl
  | .amoandW rd rs1 rs2 aq rl => RoundTrip.amoandW rd rs1 rs2 aq rl
  | .amoorW rd rs1 rs2 aq rl => RoundTrip.amoorW rd rs1 rs2 aq rl
  | .amominW rd rs1 rs2 aq rl => RoundTrip.amominW rd rs1 rs2 aq rl
  | .amomaxW rd rs1 rs2 aq rl => RoundTrip.amomaxW rd rs1 rs2 aq rl
  | .amominuW rd rs1 rs2 aq rl => RoundTrip.amominuW rd rs1 rs2 aq rl
  | .amomaxuW rd rs1 rs2 aq rl => RoundTrip.amomaxuW rd rs1 rs2 aq rl
  | .csrrw rd csr rs1 => RoundTrip.csrrw rd csr rs1
  | .csrrs rd csr rs1 => RoundTrip.csrrs rd csr rs1
  | .csrrc rd csr rs1 => RoundTrip.csrrc rd csr rs1
  | .csrrwi rd csr uimm => RoundTrip.csrrwi rd csr uimm
  | .csrrsi rd csr uimm => RoundTrip.csrrsi rd csr uimm
  | .csrrci rd csr uimm => RoundTrip.csrrci rd csr uimm
  | .fence fm pred succ rs1 rd => RoundTrip.fence fm pred succ rs1 rd
  | .fenceI imm rs1 rd => RoundTrip.fenceI imm rs1 rd
  | .ecall => RoundTrip.ecall
  | .ebreak => RoundTrip.ebreak
  | .mret => RoundTrip.mret
  | .sret => RoundTrip.sret
  | .wfi => RoundTrip.wfi
  | .sfenceVma rs1 rs2 => RoundTrip.sfenceVma rs1 rs2

end Sys2Proof.Laws

namespace Sys2Proof

open Sys2Proof.Machine

-- ---- a format whose operands are read from a word (spec 30_encoding.md R172, R173) ----
-- Each format, filled with the operand fields of `w`, is `w` with the bits of the row's mask replaced by the fixed fields.

theorem encR_operands (w : Word) (f7 : BitVec 7) (f3 : BitVec 3) (op : BitVec 7) :
    encR f7 (fRs2 w) (fRs1 w) f3 (fRd w) op = maskedWrite 0xFE00707F#32 w (encR f7 0#5 0#5 f3 0#5 op) := by
  apply word_ext
  intro i hi
  rw [getLsbD_maskedWrite]
  simp only [encR, fRs2, fRs1, fRd, BitVec.getLsbD_append, BitVec.getLsbD_extractLsb']
  interval_cases i <;> simp

theorem encR_operandsNoRd (w : Word) (f7 : BitVec 7) (f3 : BitVec 3) (rd : Reg) (op : BitVec 7) :
    encR f7 (fRs2 w) (fRs1 w) f3 rd op = maskedWrite 0xFE007FFF#32 w (encR f7 0#5 0#5 f3 rd op) := by
  apply word_ext
  intro i hi
  rw [getLsbD_maskedWrite]
  simp only [encR, fRs2, fRs1, BitVec.getLsbD_append, BitVec.getLsbD_extractLsb']
  interval_cases i <;> simp

theorem encI_operands (w : Word) (f3 : BitVec 3) (op : BitVec 7) :
    encI (fImmI w) (fRs1 w) f3 (fRd w) op = maskedWrite 0x0000707F#32 w (encI 0#12 0#5 f3 0#5 op) := by
  apply word_ext
  intro i hi
  rw [getLsbD_maskedWrite]
  simp only [encI, fImmI, fRs1, fRd, BitVec.getLsbD_append, BitVec.getLsbD_extractLsb']
  interval_cases i <;> simp

theorem encS_operands (w : Word) (f3 : BitVec 3) (op : BitVec 7) :
    encS (fImmS w) (fRs2 w) (fRs1 w) f3 op = maskedWrite 0x0000707F#32 w (encS 0#12 0#5 0#5 f3 op) := by
  apply word_ext
  intro i hi
  rw [getLsbD_maskedWrite]
  simp only [encS, fImmS, fRs2, fRs1, BitVec.getLsbD_append, BitVec.getLsbD_extractLsb']
  interval_cases i <;> simp

theorem encB_operands (w : Word) (f3 : BitVec 3) (op : BitVec 7) :
    encB (fImmB w) (fRs2 w) (fRs1 w) f3 op = maskedWrite 0x0000707F#32 w (encB 0#13 0#5 0#5 f3 op) := by
  apply word_ext
  intro i hi
  rw [getLsbD_maskedWrite]
  simp only [encB, fImmB, fRs2, fRs1, BitVec.getLsbD_append, BitVec.getLsbD_extractLsb']
  interval_cases i <;> simp

theorem encU_operands (w : Word) (op : BitVec 7) :
    encU (fImmU w) (fRd w) op = maskedWrite 0x0000007F#32 w (encU 0#20 0#5 op) := by
  apply word_ext
  intro i hi
  rw [getLsbD_maskedWrite]
  simp only [encU, fImmU, fRd, BitVec.getLsbD_append, BitVec.getLsbD_extractLsb']
  interval_cases i <;> simp

theorem encJ_operands (w : Word) (op : BitVec 7) :
    encJ (fImmJ w) (fRd w) op = maskedWrite 0x0000007F#32 w (encJ 0#21 0#5 op) := by
  apply word_ext
  intro i hi
  rw [getLsbD_maskedWrite]
  simp only [encJ, fImmJ, fRd, BitVec.getLsbD_append, BitVec.getLsbD_extractLsb']
  interval_cases i <;> simp

theorem encAmo_operands (w : Word) (f5 : BitVec 5) :
    encAmo f5 (fAq w) (fRl w) (fRs2 w) (fRs1 w) (fRd w) =
      maskedWrite 0xF800707F#32 w (encAmo f5 0#1 0#1 0#5 0#5 0#5) := by
  apply word_ext
  intro i hi
  rw [getLsbD_maskedWrite]
  simp only [encAmo, fAq, fRl, fRs2, fRs1, fRd, BitVec.getLsbD_append, BitVec.getLsbD_extractLsb']
  interval_cases i <;> simp

theorem encAmo_operandsNoRs2 (w : Word) (f5 : BitVec 5) (rs2 : Reg) :
    encAmo f5 (fAq w) (fRl w) rs2 (fRs1 w) (fRd w) =
      maskedWrite 0xF9F0707F#32 w (encAmo f5 0#1 0#1 rs2 0#5 0#5) := by
  apply word_ext
  intro i hi
  rw [getLsbD_maskedWrite]
  simp only [encAmo, fAq, fRl, fRs1, fRd, BitVec.getLsbD_append, BitVec.getLsbD_extractLsb']
  interval_cases i <;> simp

/-- The three fields of FENCE are the I-immediate's bits (R178). -/
theorem fenceFields_eq_fImmI (w : Word) : fFm w ++ fPred w ++ fSucc w = fImmI w := by
  apply BitVec.eq_of_getLsbD_eq
  intro i hi
  simp only [fFm, fPred, fSucc, fImmI, BitVec.getLsbD_append, BitVec.getLsbD_extractLsb']
  interval_cases i <;> simp

-- ---- the rows (spec 30_encoding.md R181) ----

/-- The encoder puts a row's pattern on the row's mask and every operand back where the row read it: the mask and the
operand fields share out all 32 bits. -/
def OpRow.Rebuilds (w : Word) (r : OpRow) : Prop := encode (r.build w) = maskedWrite r.mask w r.pat

section Rows

variable (w : Word)

theorem upperRows_rebuild : ∀ r ∈ upperRows, r.Rebuilds w := by
  simp only [upperRows, List.forall_mem_cons]
  exact ⟨encU_operands .., encU_operands .., List.forall_mem_nil _⟩

theorem immRows_rebuild : ∀ r ∈ immRows, r.Rebuilds w := by
  simp only [immRows, List.forall_mem_cons]
  exact ⟨encI_operands .., encI_operands .., encI_operands .., encI_operands .., encI_operands .., encI_operands ..,
    encR_operands .., encR_operands .., encR_operands .., List.forall_mem_nil _⟩

theorem regRows_rebuild : ∀ r ∈ regRows, r.Rebuilds w := by
  simp only [regRows, List.forall_mem_cons]
  exact ⟨encR_operands .., encR_operands .., encR_operands .., encR_operands .., encR_operands .., encR_operands ..,
    encR_operands .., encR_operands .., encR_operands .., encR_operands .., List.forall_mem_nil _⟩

theorem controlRows_rebuild : ∀ r ∈ controlRows, r.Rebuilds w := by
  simp only [controlRows, List.forall_mem_cons]
  exact ⟨encJ_operands .., encI_operands .., encB_operands .., encB_operands .., encB_operands .., encB_operands ..,
    encB_operands .., encB_operands .., List.forall_mem_nil _⟩

theorem loadRows_rebuild : ∀ r ∈ loadRows, r.Rebuilds w := by
  simp only [loadRows, List.forall_mem_cons]
  exact ⟨encI_operands .., encI_operands .., encI_operands .., encI_operands .., encI_operands .., List.forall_mem_nil _⟩

theorem storeRows_rebuild : ∀ r ∈ storeRows, r.Rebuilds w := by
  simp only [storeRows, List.forall_mem_cons]
  exact ⟨encS_operands .., encS_operands .., encS_operands .., List.forall_mem_nil _⟩

theorem mulDivRows_rebuild : ∀ r ∈ mulDivRows, r.Rebuilds w := by
  simp only [mulDivRows, List.forall_mem_cons]
  exact ⟨encR_operands .., encR_operands .., encR_operands .., encR_operands .., encR_operands .., encR_operands ..,
    encR_operands .., encR_operands .., List.forall_mem_nil _⟩

theorem atomicRows_rebuild : ∀ r ∈ atomicRows, r.Rebuilds w := by
  simp only [atomicRows, List.forall_mem_cons]
  exact ⟨encAmo_operandsNoRs2 .., encAmo_operands .., encAmo_operands .., encAmo_operands .., encAmo_operands ..,
    encAmo_operands .., encAmo_operands .., encAmo_operands .., encAmo_operands .., encAmo_operands ..,
    encAmo_operands .., List.forall_mem_nil _⟩

theorem csrRows_rebuild : ∀ r ∈ csrRows, r.Rebuilds w := by
  simp only [csrRows, List.forall_mem_cons]
  exact ⟨encI_operands .., encI_operands .., encI_operands .., encI_operands .., encI_operands .., encI_operands ..,
    List.forall_mem_nil _⟩

theorem systemRows_rebuild : ∀ r ∈ systemRows, r.Rebuilds w := by
  have hfence : encI (fFm w ++ fPred w ++ fSucc w) (fRs1 w) 0b000#3 (fRd w) opMiscMem =
      maskedWrite 0x0000707F#32 w 0x0000000F#32 := by
    rw [fenceFields_eq_fImmI]; exact encI_operands ..
  have hfull (pat : Word) : pat = maskedWrite (BitVec.allOnes 32) w pat := by
    rw [maskedWrite, BitVec.not_allOnes, BitVec.and_zero, BitVec.zero_or, BitVec.and_allOnes]
  simp only [systemRows, List.forall_mem_cons]
  exact ⟨hfence, encI_operands .., hfull _, hfull _, hfull _, hfull _, hfull _, encR_operandsNoRd .., List.forall_mem_nil _⟩

theorem opcodeTable_rebuild : ∀ r ∈ opcodeTable, r.Rebuilds w := by
  simp only [opcodeTable, List.forall_mem_append]
  exact ⟨⟨⟨⟨⟨⟨⟨⟨⟨upperRows_rebuild w, immRows_rebuild w⟩, regRows_rebuild w⟩, controlRows_rebuild w⟩, loadRows_rebuild w⟩,
    storeRows_rebuild w⟩, mulDivRows_rebuild w⟩, atomicRows_rebuild w⟩, csrRows_rebuild w⟩, systemRows_rebuild w⟩

end Rows

/-- A word that already holds the pattern is unchanged by writing it. -/
theorem maskedWrite_of_hits {r : OpRow} {w : Word} (h : r.hits w = true) : maskedWrite r.mask w r.pat = w := by
  rw [OpRow.hits, beq_iff_eq] at h
  apply word_ext
  intro i _
  rw [getLsbD_maskedWrite, ← h, BitVec.getLsbD_and]
  cases r.mask.getLsbD i <;> simp

/-- A word that decodes is the word of what it decodes to. -/
theorem encode_of_decodeWord {w : Word} {i : Instr} (h : decodeWord w = some i) : encode i = w := by
  obtain ⟨r, hr, hits, rfl⟩ := decodeWord_some h
  exact (opcodeTable_rebuild w r hr).trans (maskedWrite_of_hits hits)

/-- Every row fixes bits 1:0 to 11 (R171: no compressed instructions). -/
theorem opcodeTable_low_bits : ∀ r ∈ opcodeTable, r.mask &&& 3#32 = 3#32 ∧ r.pat &&& 3#32 = 3#32 := by decide

/-- A word that decodes ends in 11. -/
theorem mod_four_of_decodeWord {w : Word} {i : Instr} (h : decodeWord w = some i) : w.toNat % 4 = 3 := by
  obtain ⟨r, hr, hits, -⟩ := decodeWord_some h
  obtain ⟨hmask, hpat⟩ := opcodeTable_low_bits r hr
  rw [OpRow.hits, beq_iff_eq] at hits
  have hlow : w &&& 3#32 = 3#32 := by rw [← hmask, ← BitVec.and_assoc, hits, hpat, hmask]
  simpa only [BitVec.toNat_and, BitVec.toNat_ofNat, Nat.and_two_pow_sub_one_eq_mod w.toNat 2] using congrArg BitVec.toNat hlow

end Sys2Proof

namespace Sys2Proof.Machine

open Sys2Proof.Claim

-- ---- taking an exception (spec 60_exceptions.md R410 to R413) ----

/-- Clearing the two low bits of a vector register leaves its base. -/
theorem and_eq_handlerBase (tvec : Word) : tvec &&& 0xFFFFFFFC#32 = handlerBase tvec := by
  have hshift : tvec.toNat / 4 * 4 = tvec.toNat >>> 2 <<< 2 := by rw [Nat.shiftRight_eq_div_pow, Nat.shiftLeft_eq]
  apply word_ext
  intro k hk
  rw [handlerBase, hshift, BitVec.getLsbD_and, BitVec.getLsbD_ofNat 32 (_ <<< _), Nat.testBit_shiftLeft,
    Nat.testBit_shiftRight, BitVec.testBit_toNat]
  interval_cases k <;> simp

/-- The mode field of a vector register is its two low bits. -/
theorem vectorMode_toNat (tvec : Word) : (tvec.extractLsb' 0 2).toNat = tvec.toNat % 4 := by
  rw [BitVec.extractLsb'_toNat, Nat.shiftRight_zero]

/-- An exception goes to the base of the vector, whether its mode is 0 or 1. -/
theorem trapVector_of_vectorOk {tvec : Word} (h : VectorOk tvec) (e : Exception) :
    trapVector tvec (.exception e) = some (handlerBase tvec) := by
  have hmode : tvec.toNat % 4 = 0 ∨ tvec.toNat % 4 = 1 := by omega
  unfold trapVector
  rw [vectorMode_toNat, ← and_eq_handlerBase]
  rcases hmode with h | h <;> rw [h] <;> rfl

/-- A vector of mode 2 or 3 has no target. -/
theorem trapVector_of_not_vectorOk {tvec : Word} (h : ¬VectorOk tvec) (e : Exception) :
    trapVector tvec (.exception e) = none := by
  have hmode : tvec.toNat % 4 = 2 ∨ tvec.toNat % 4 = 3 := by omega
  unfold trapVector
  rw [vectorMode_toNat]
  rcases hmode with h | h <;> rw [h] <;> rfl

/-- The state in which the handler of exception `e` with trap value `tv` is chosen. -/
abbrev raisedState (e : Exception) (tv : Word) (s : State) : State := noteRaised { exception := e, tval := some tv } s

section Handlers

variable {e : Exception} {s : State}

theorem takeException_of_goesToS (h : GoesToS e s) (tv : Word) :
    takeException { exception := e, tval := some tv } s = enterS (.exception e) (raisedState e tv s) :=
  if_pos ((delegated_iff e _).mpr h)

theorem takeException_of_not_goesToS (h : ¬GoesToS e s) (tv : Word) :
    takeException { exception := e, tval := some tv } s = enterM (.exception e) (raisedState e tv s) :=
  if_neg (mt (delegated_iff e _).mp h)

/-- S-trap entry through a legal vector is the handler of the statements. -/
theorem enterS_inHandlerS (h : VectorOk s.csr.stvec) (tv : Word) :
    ∃ t, enterS (.exception e) (raisedState e tv s) = .next t ∧ InHandlerS e tv s t := by
  have hv : trapVector (raisedState e tv s).csr.stvec (.exception e) = _ := trapVector_of_vectorOk h e
  rw [enterS, hv]
  exact ⟨_, rfl, _, fun _ => getLsbD_mstatusEnterS s.csr.mstatus s.priv, rfl⟩

/-- M-trap entry through a legal vector is the handler of the statements. -/
theorem enterM_inHandlerM (h : VectorOk s.csr.mtvec) (tv : Word) :
    ∃ t, enterM (.exception e) (raisedState e tv s) = .next t ∧ InHandlerM e tv s t := by
  have hv : trapVector (raisedState e tv s).csr.mtvec (.exception e) = _ := trapVector_of_vectorOk h e
  rw [enterM, hv]
  exact ⟨_, rfl, _, fun _ => getLsbD_mstatusEnterM s.csr.mstatus s.priv, rfl⟩

theorem enterS_fatal (h : ¬VectorOk s.csr.stvec) : enterS (.exception e) s = .fault .badTvecMode := by
  rw [enterS, trapVector_of_not_vectorOk h]

theorem enterM_fatal (h : ¬VectorOk s.csr.mtvec) : enterM (.exception e) s = .fault .badTvecMode := by
  rw [enterM, trapVector_of_not_vectorOk h]

end Handlers

/-- Raising an exception with its trap value has the outcome of the statements, at whichever level it goes to. -/
theorem takesException_takeException (e : Exception) (tv : Word) (s : State) :
    TakesException e tv s (takeException { exception := e, tval := some tv } s) := by
  by_cases hS : GoesToS e s
  · rw [takeException_of_goesToS hS]
    constructor
    · rintro ⟨hv, -⟩
      obtain ⟨t, ht, hin⟩ := enterS_inHandlerS (e := e) (hv hS) tv
      exact ⟨t, ht, fun _ => hin, fun hM => absurd hS hM⟩
    · intro hfatal
      exact enterS_fatal fun hv => hfatal ⟨fun _ => hv, fun hM => absurd hS hM⟩
  · rw [takeException_of_not_goesToS hS]
    constructor
    · rintro ⟨-, hv⟩
      obtain ⟨t, ht, hin⟩ := enterM_inHandlerM (e := e) (hv hS) tv
      exact ⟨t, ht, fun hS' => absurd hS' hS, fun _ => hin⟩
    · intro hfatal
      exact enterM_fatal fun hv => hfatal ⟨fun hS' => absurd hS' hS, fun _ => hv⟩

/-- A fetch whose translation fails raises its page fault at the pc. -/
theorem phase1_of_translation_none {s : State} (hstdby : s.stdby = false) (h : translation s.pc .fetch s = none)
    (af : Bool) :
    phase1 af s = takeException { exception := .instructionPageFault, tval := some s.pc } (clearExc s) := by
  rcases phase1_cases af s with ⟨hs, -⟩ | ⟨-, -, heq⟩ | ⟨-, tr, htr, -⟩
  · exact absurd (hs.symm.trans hstdby) (by decide)
  · exact heq
  · exact absurd (htr.symm.trans h) (Option.some_ne_none tr)

theorem execWord_of_decodeWord_none {w : Word} (h : decodeWord w = none) (s : State) :
    execWord w s = takeIllegal w s := by
  rw [execWord, h]

-- ---- the obligations ----

/-- Settles O1: each instruction's word hits the instruction's own row, which reads its operands back. -/
theorem decodeOfEncode : Obligations.DecodeOfEncode := Laws.roundTrip

/-- Settles O2: the operands of a row and the mask share out the word, so encoding puts every bit back. -/
theorem encodeOfDecode : Obligations.EncodeOfDecode := fun _ _ h => ⟨decodeWord_wf h, encode_of_decodeWord h⟩

/-- Settles O3: any two rows differ in a bit that both of them fix. -/
theorem encodingsExclusive : Obligations.EncodingsExclusive := by
  refine ⟨rfl, opcodeTable_apart.imp fun hapart w ⟨hr, hq⟩ => ?_⟩
  have hmiss := OpRow.apart_not_both hapart w (beq_iff_eq.mpr hr)
  rw [OpRow.hits, beq_eq_false_iff_ne] at hmiss
  exact hmiss hq

/-- Settles O5: a failed fetch and a word without a row both take their exception, and a row's pattern ends in 11. -/
theorem unexecutableTraps : Obligations.UnexecutableTraps := by
  intro s w af
  refine ⟨fun hstdby h => ?_, fun hlow => ?_, fun h => ?_⟩
  · rw [phase1_of_translation_none hstdby h]
    exact takesException_takeException ..
  · exact Option.eq_none_iff_forall_ne_some.mpr fun _ h => hlow (mod_four_of_decodeWord h)
  · rw [execWord_of_decodeWord_none h]
    exact takesException_takeException ..

end Sys2Proof.Machine
end

section
/-! PROOF. Integer computation: sums and differences (AddSubtractResults), comparisons (CompareResults), bitwise operations
(BitwiseResults), shifts (ShiftResults), and the spec's sample words (SampleWordsDecode). -/

namespace Sys2Proof.Machine

open Sys2Proof.Claim

-- ---- an instruction that writes one register (spec 40_rv32i_alu.md R200) ----

/-- An instruction whose meaning is one register write completes, with every property of the value written. -/
theorem writesReg_of_exec_eq {i : Instr} {rd : Reg} {v : Word} {s : State} {P : Word → Prop}
    (hexec : exec i s = writeReg rd v s) (hv : P v) : WritesReg i rd s P := by
  refine ⟨s.setX rd v, v, hexec, hv, fun r => ?_, State.setX_eq s rd v, fun a => ?_⟩
  · rw [State.setX_x]
    exact if_congr (and_congr_right fun hr => by rw [hr]) rfl rfl
  · rw [State.setX_mem]

-- ---- immediates as numbers and as bits (spec 30_encoding.md R173) ----

theorem toNat_upperOf (up : BitVec 20) : (upperOf up).toNat = up.toNat * 4096 := by
  rw [upperOf, BitVec.toNat_append, BitVec.toNat_ofNat, Nat.zero_mod, Nat.or_zero, Nat.shiftLeft_eq]

theorem toInt_immOf (imm : BitVec 12) : (immOf imm).toInt = imm.toInt := BitVec.toInt_signExtend_of_le (by decide)

/-- The unsigned value of a word is its signed one modulo 2^32. -/
theorem toNat_eq_toInt_emod (w : Word) : (w.toNat : Int) = w.toInt % 2 ^ 32 := by
  rw [BitVec.toInt_eq_toNat_cond]
  split <;> omega

theorem toNat_immOf (imm : BitVec 12) : ((immOf imm).toNat : Int) = imm.toInt % 2 ^ 32 := by
  rw [toNat_eq_toInt_emod, toInt_immOf]

/-- Above bit 11 a sign-extended immediate repeats its bit 11. -/
theorem getLsbD_immOf (imm : BitVec 12) {k : Nat} (hk : k < 32) : (immOf imm).getLsbD k = imm.getLsbD (min k 11) := by
  rw [immOf, sext, BitVec.getLsbD_signExtend, decide_eq_true hk, Bool.true_and]
  split
  · rw [min_eq_left (by omega)]
  · rw [min_eq_right (by omega), BitVec.msb_eq_getLsbD_last]

-- ---- sums and comparisons ----

/-- Adding a word adds every number it stands for modulo 2^32. -/
theorem isSum_add {c : Word} {d : Int} (hd : (c.toNat : Int) = d % 2 ^ 32) (b : Word) : IsSum (b + c) b d := by
  rw [IsSum, BitVec.toNat_add]
  omega

theorem isSum_sub (b c : Word) : IsSum (b - c) b (-(c.toNat : Int)) := by
  rw [IsSum, BitVec.toNat_sub]
  omega

theorem boolWord_ltSigned (a b : Word) : boolWord (ltSigned a b) = if a.toInt < b.toInt then 1#32 else 0#32 := by
  simp only [boolWord, ltSigned, decide_eq_true_eq]

theorem boolWord_ltUnsigned (a b : Word) : boolWord (ltUnsigned a b) = if a.toNat < b.toNat then 1#32 else 0#32 := by
  simp only [boolWord, ltUnsigned, decide_eq_true_eq]

-- ---- shifts as multiplication and division ----

theorem toNat_shiftLeft_eq_mul (w : Word) (n : Nat) : (w <<< n).toNat = w.toNat * 2 ^ n % 2 ^ 32 := by
  rw [BitVec.toNat_shiftLeft, Nat.shiftLeft_eq]

theorem toNat_ushiftRight_eq_div (w : Word) (n : Nat) : (w >>> n).toNat = w.toNat / 2 ^ n := by
  rw [BitVec.toNat_ushiftRight, Nat.shiftRight_eq_div_pow]

/-- `Int` division by a positive number rounds down. -/
theorem toInt_sshiftRight_eq_div (w : Word) (n : Nat) : (w.sshiftRight n).toInt = w.toInt / 2 ^ n := by
  rw [BitVec.toInt_sshiftRight, Int.shiftRight_eq_div_pow, Nat.cast_pow, Nat.cast_ofNat]

-- ---- decoding a word that is known to be an encoding (spec 30_encoding.md R187) ----

theorem decodeWord_of_encode_eq {i : Instr} {w : Word} (hwf : i.wf = true) (hw : encode i = w) : decodeWord w = some i :=
  hw ▸ decodeOfEncode i hwf

-- ---- the obligations ----

/-- Settles O6: LUI writes its immediate, the others a sum or difference with a word that stands for the number the statement
adds modulo 2^32. -/
theorem addSubtractResults : Obligations.AddSubtractResults := by
  intro s rd rs1 rs2 imm up
  have hup : ((upperOf up).toNat : Int) = (up.toNat * 4096 : Int) % 2 ^ 32 := by
    rw [toNat_upperOf]
    omega
  have hrs2 : ((s.x rs2).toNat : Int) = (s.x rs2).toNat % 2 ^ 32 := by omega
  exact ⟨writesReg_of_exec_eq rfl (toNat_upperOf up),
    writesReg_of_exec_eq rfl (isSum_add hup s.pc),
    writesReg_of_exec_eq rfl (isSum_add (toNat_immOf imm) (s.x rs1)),
    writesReg_of_exec_eq rfl (isSum_add hrs2 (s.x rs1)),
    writesReg_of_exec_eq rfl (isSum_sub (s.x rs1) (s.x rs2))⟩

/-- Settles O7: the immediate forms compare with the sign-extended immediate, read as signed or as unsigned. -/
theorem compareResults : Obligations.CompareResults := by
  intro s rd rs1 rs2 imm
  refine ⟨writesReg_of_exec_eq rfl ?_, writesReg_of_exec_eq rfl ?_,
    writesReg_of_exec_eq rfl (boolWord_ltSigned ..), writesReg_of_exec_eq rfl (boolWord_ltUnsigned ..)⟩
  · rw [boolWord_ltSigned, toInt_immOf]
  · rw [boolWord_ltUnsigned, ← toNat_immOf]
    simp only [Nat.cast_lt]

/-- Settles O8: a bit of the result is the operation on the operands' bits. -/
theorem bitwiseResults : Obligations.BitwiseResults := by
  intro s rd rs1 rs2 imm
  refine ⟨writesReg_of_exec_eq rfl fun k hk => ?_, writesReg_of_exec_eq rfl fun k hk => ?_,
    writesReg_of_exec_eq rfl fun k hk => ?_, writesReg_of_exec_eq rfl fun _ _ => BitVec.getLsbD_xor,
    writesReg_of_exec_eq rfl fun _ _ => BitVec.getLsbD_or, writesReg_of_exec_eq rfl fun _ _ => BitVec.getLsbD_and⟩
  · rw [← getLsbD_immOf imm hk]
    exact BitVec.getLsbD_xor
  · rw [← getLsbD_immOf imm hk]
    exact BitVec.getLsbD_or
  · rw [← getLsbD_immOf imm hk]
    exact BitVec.getLsbD_and

/-- Settles O9: each writes its source shifted by the amount, which in the register forms is `shiftAmount`. -/
theorem shiftResults : Obligations.ShiftResults := fun _ _ _ _ _ =>
  ⟨writesReg_of_exec_eq rfl (toNat_shiftLeft_eq_mul ..),
    writesReg_of_exec_eq rfl (toNat_ushiftRight_eq_div ..),
    writesReg_of_exec_eq rfl (toInt_sshiftRight_eq_div ..),
    writesReg_of_exec_eq rfl (toNat_shiftLeft_eq_mul ..),
    writesReg_of_exec_eq rfl (toNat_ushiftRight_eq_div ..),
    writesReg_of_exec_eq rfl (toInt_sshiftRight_eq_div ..)⟩

/-- Settles O4: each word but the last is the encoding of its instruction, and the last does not end in 11. -/
theorem sampleWordsDecode : Obligations.SampleWordsDecode := by
  refine ⟨decodeWord_of_encode_eq rfl rfl, decodeWord_of_encode_eq rfl rfl, decodeWord_of_encode_eq rfl rfl,
    decodeWord_of_encode_eq rfl rfl, decodeWord_of_encode_eq rfl rfl, decodeWord_of_encode_eq rfl rfl,
    decodeWord_of_encode_eq rfl rfl, decodeWord_of_encode_eq rfl rfl, decodeWord_of_encode_eq rfl rfl, ?_⟩
  exact Option.eq_none_iff_forall_ne_some.mpr fun _ h => absurd (mod_four_of_decodeWord h) (by decide)

end Sys2Proof.Machine
end

section
/-! PROOF. Control transfer: jumps (JumpsTransfer) and conditional branches (BranchesDecide). -/

namespace Sys2Proof.Machine

open Sys2Proof.Claim

-- ---- targets and links as numbers (spec 41_rv32i_control.md R232 to R234) ----

/-- A sum modulo 2^32 is one word. -/
theorem eq_of_isSum {a a' b : Word} {d : Int} (h : IsSum a b d) (h' : IsSum a' b d) : a = a' :=
  BitVec.eq_of_toNat_eq (Int.ofNat_inj.mp (h.trans h'.symm))

theorem isSum_add_sext {n : Nat} (hn : n ≤ 32) (b : Word) (off : BitVec n) : IsSum (b + sext off) b off.toInt :=
  isSum_add (by rw [toNat_eq_toInt_emod, sext, BitVec.toInt_signExtend_of_le hn]) b

/-- Clearing bit 0 rounds down to an even number. -/
theorem toNat_jalrTarget (rs1 : Reg) (imm : BitVec 12) (s : State) :
    (jalrTarget rs1 imm s).toNat = (s.x rs1 + immOf imm).toNat / 2 * 2 := by
  have hclear (w : Word) : w &&& 0xFFFFFFFE#32 = w >>> 1 <<< 1 := by
    apply word_ext
    intro k hk
    rw [BitVec.getLsbD_and, BitVec.getLsbD_shiftLeft, BitVec.getLsbD_ushiftRight]
    interval_cases k <;> simp
  rw [jalrTarget, hclear, toNat_shiftLeft_eq_mul, toNat_ushiftRight_eq_div]
  omega

/-- The target of JALR is the statement's: the sum with its bit 0 cleared. -/
theorem jalrTarget_eq {s : State} {rs1 : Reg} {imm : BitVec 12} {sum target : Word}
    (hsum : IsSum sum (s.x rs1) imm.toInt) (htarget : target.toNat = sum.toNat / 2 * 2) : target = jalrTarget rs1 imm s := by
  obtain rfl : sum = s.x rs1 + immOf imm := eq_of_isSum hsum (isSum_add_sext (by decide) _ imm)
  exact BitVec.eq_of_toNat_eq (htarget.trans (toNat_jalrTarget ..).symm)

/-- An even word is a multiple of 4 unless its bit 1 is set (R230). -/
theorem getLsbD_one_iff_of_even {w : Word} (heven : w.getLsbD 0 = false) : w.getLsbD 1 = true ↔ w.toNat % 4 ≠ 0 := by
  simp only [BitVec.getLsbD, Nat.testBit_eq_decide_div_mod_eq, decide_eq_false_iff_not, decide_eq_true_eq] at heven ⊢
  omega

theorem pc_even {s : State} (hpc : s.pc.toNat % 4 = 0) : s.pc.getLsbD 0 = false :=
  even_of_aligned ((aligned_iff_toNat s.pc).mpr hpc)

-- ---- a control transfer, to an aligned and to a misaligned target (R230) ----

section Transfer

variable {i : Instr} {s : State} {target : Word} {link : State → State}

theorem jumpTo_aligned (heven : target.getLsbD 0 = false) (h : target.toNat % 4 = 0) :
    jumpTo target link s = .next ((link s).setPcNext target) :=
  if_neg fun hbit => (getLsbD_one_iff_of_even heven).mp hbit h

theorem jumpTo_misaligned (heven : target.getLsbD 0 = false) (h : target.toNat % 4 ≠ 0) :
    TakesException .instructionAddressMisaligned target s (jumpTo target link s) := by
  rw [jumpTo, if_pos ((getLsbD_one_iff_of_even heven).mpr h)]
  exact takesException_takeException ..

/-- A jump that links completes at an aligned target, with the link in `rd`, and raises at another. -/
theorem transfers_of_exec_eq {rd : Reg} (hexec : exec i s = jumpTo target (linkTo rd) s) (heven : target.getLsbD 0 = false) :
    (target.toNat % 4 = 0 → ∃ t, exec i s = .next t ∧ RegsAfter rd (s.pc + 4#32) s t ∧ SameBytes s t ∧
      t = { s with regs := t.regs, pcNext := target }) ∧
    (target.toNat % 4 ≠ 0 → TakesException .instructionAddressMisaligned target s (exec i s)) := by
  rw [hexec]
  refine ⟨fun h => ⟨_, jumpTo_aligned heven h, regsAfter_setX rfl rd _, fun a => ?_, ?_⟩, jumpTo_misaligned heven⟩
  · rw [State.setPcNext_mem, linkTo, State.setX_mem]
  · rw [linkTo, State.setX_eq, State.setPcNext]

-- ---- a conditional branch (R234) ----

/-- A branch whose condition decides `taken` does what the statements say of a branch. -/
theorem branches_of_exec_eq {c : Bool} {taken : Prop} {off : BitVec 13} (hexec : exec i s = branchIf c off s)
    (htaken : c = true ↔ taken) (hoff : branchOffsetWf off) (hpc : s.pc.toNat % 4 = 0) : Branches i taken off s := by
  rw [Branches, hexec, branchIf, ← htaken]
  refine ⟨fun hc => if_neg hc, fun target htarget hc => ?_⟩
  obtain rfl : target = branchTarget off s := eq_of_isSum htarget (isSum_add_sext (by decide) s.pc off)
  have heven := branchTarget_even hoff (pc_even hpc)
  rw [if_pos hc]
  exact ⟨jumpTo_aligned heven, jumpTo_misaligned heven⟩

end Transfer

theorem ltSigned_iff (a b : Word) : ltSigned a b = true ↔ a.toInt < b.toInt := decide_eq_true_iff

theorem not_ltSigned_iff (a b : Word) : (!ltSigned a b) = true ↔ b.toInt ≤ a.toInt := by
  rw [Bool.not_eq_true', Bool.eq_false_iff, ne_eq, ltSigned_iff, not_lt]

theorem ltUnsigned_iff (a b : Word) : ltUnsigned a b = true ↔ a.toNat < b.toNat := decide_eq_true_iff

theorem not_ltUnsigned_iff (a b : Word) : (!ltUnsigned a b) = true ↔ b.toNat ≤ a.toNat := by
  rw [Bool.not_eq_true', Bool.eq_false_iff, ne_eq, ltUnsigned_iff, not_lt]

-- ---- the obligations ----

/-- Settles O13: the link and the targets are the model's own, as sums modulo 2^32 are unique, and both targets are even, so bit 1
alone decides whether one is misaligned. -/
theorem jumpsTransfer : Obligations.JumpsTransfer := by
  intro s rd rs1 off imm sum target link hpc hlink
  obtain rfl : link = s.pc + 4#32 := eq_of_isSum hlink (isSum_add_four s.pc)
  constructor
  · intro hwf htarget
    obtain rfl : target = jalTarget off s := eq_of_isSum htarget (isSum_add_sext (by decide) s.pc off)
    exact transfers_of_exec_eq rfl (jalTarget_even (of_decide_eq_true hwf) (pc_even hpc))
  · intro hsum htarget
    obtain rfl := jalrTarget_eq hsum htarget
    exact transfers_of_exec_eq rfl (jalrTarget_even rs1 imm)

/-- Settles O14: each branch is `branchIf` on a Boolean that decides the comparison its rule names. -/
theorem branchesDecide : Obligations.BranchesDecide := fun _ _ _ _ hoff hpc =>
  ⟨branches_of_exec_eq rfl beq_iff_eq hoff hpc,
    branches_of_exec_eq rfl bne_iff_ne hoff hpc,
    branches_of_exec_eq rfl (ltSigned_iff ..) hoff hpc,
    branches_of_exec_eq rfl (not_ltSigned_iff ..) hoff hpc,
    branches_of_exec_eq rfl (ltUnsigned_iff ..) hoff hpc,
    branches_of_exec_eq rfl (not_ltUnsigned_iff ..) hoff hpc⟩

end Sys2Proof.Machine
end

section
/-! PROOF. Loads and stores: loads complete (LoadsComplete), stores complete (StoresComplete), and what a data access that fails
raises, in a load, a store or an atomic (DataAccessTraps). -/

namespace Sys2Proof.Machine

open Sys2Proof.Claim

-- ---- the effective address (spec 42_rv32i_loadstore.md R250) ----

/-- The statements' address is the model's own. -/
theorem eq_effAddr {s : State} {rs1 : Reg} {imm : BitVec 12} {addr : Word} (h : IsSum addr (s.x rs1) imm.toInt) :
    addr = effAddr rs1 imm s :=
  eq_of_isSum h (isSum_add_sext (by decide) _ imm)

-- ---- the values loaded (R252, R253, R255, R256) ----

theorem signByte_eq (v : Word) : signByte v = BitVec.ofInt 32 (v.setWidth 8).toInt := by
  rw [BitVec.setWidth_eq_extractLsb' (by decide)]
  rfl

theorem signHalf_eq (v : Word) : signHalf v = BitVec.ofInt 32 (v.setWidth 16).toInt := by
  rw [BitVec.setWidth_eq_extractLsb' (by decide)]
  rfl

theorem zeroByte_eq (v : Word) : zeroByte v = BitVec.ofNat 32 (v.toNat % 2 ^ 8) := by
  rw [zeroByte, zext, ← BitVec.setWidth_eq_extractLsb' (by decide), ← BitVec.ofNat_toNat, BitVec.toNat_setWidth]

theorem zeroHalf_eq (v : Word) : zeroHalf v = BitVec.ofNat 32 (v.toNat % 2 ^ 16) := by
  rw [zeroHalf, zext, ← BitVec.setWidth_eq_extractLsb' (by decide), ← BitVec.ofNat_toNat, BitVec.toNat_setWidth]

-- ---- the bytes of a timer register (spec 20_memory.md R141) ----

theorem two_pow_eight_mul (k : Nat) : 2 ^ (8 * k) = 256 ^ k := Nat.pow_mul 2 8 k

/-- `TimerRead` gives the bytes of the register that the statements cut out of it. -/
theorem timerRead_eq (tm : Timer) (v : Word) (n : Width) (s : State) :
    timerRead tm v n s = timerBits (timerValue tm s.csr) v n := by
  have hdvd : 256 ^ bytesOf n ∣ 2 ^ 32 := by cases n <;> decide
  rw [timerRead, and_onesOf, BitVec.toNat_setWidth, Nat.mod_mod_of_dvd _ hdvd, BitVec.toNat_ushiftRight,
    Nat.shiftRight_eq_div_pow, timerShift, Nat.mul_comm, two_pow_eight_mul, timerBits]

/-- Bit `j` of byte `k` is bit `8 * k + j`. -/
theorem testBit_byteAt (v k j : Nat) : (byteAt v k).testBit j = (decide (j < 8) && v.testBit (8 * k + j)) := by
  rw [byteAt, ← two_pow_eight_mul, show 256 = 2 ^ 8 from rfl, Nat.testBit_mod_two_pow, Nat.testBit_div_two_pow, Nat.add_comm]

theorem getLsbD_onesOf (n : Width) (i : Nat) : (onesOf n).getLsbD i = decide (i < 8 * bytesOf n) := by
  rw [BitVec.getLsbD, onesOf_toNat, ← two_pow_eight_mul, Nat.testBit_two_pow_sub_one]

/-- The bits after `TimerWrite`: in the window of the access those of the value, elsewhere the old ones. -/
theorem getLsbD_timerInsert (reg : DWord) (v : Word) (n : Width) (val : Word) {i : Nat} (hi : i < 64) :
    (timerInsert reg v n val).getLsbD i =
      if timerShift v ≤ i ∧ i < timerShift v + 8 * bytesOf n then val.getLsbD (i - timerShift v) else reg.getLsbD i := by
  simp only [timerInsert, BitVec.getLsbD_or, BitVec.getLsbD_and, BitVec.getLsbD_not, BitVec.getLsbD_shiftLeft,
    BitVec.getLsbD_setWidth, getLsbD_onesOf, hi, decide_true, Bool.true_and, show i - timerShift v < 64 by omega]
  by_cases hbelow : i < timerShift v
  · simp [hbelow]
  · have hmask : i - timerShift v < 8 * bytesOf n ↔ i < timerShift v + 8 * bytesOf n := by omega
    by_cases habove : i < timerShift v + 8 * bytesOf n <;> simp [hbelow, hmask, habove]

/-- The bytes after `TimerWrite`: in the window of the access those of the value, elsewhere the old ones. -/
theorem byteAt_timerInsert (reg : DWord) (v : Word) (n : Width) (val : Word) {k : Nat} (hk : k < 8) :
    byteAt (timerInsert reg v n val).toNat k =
      if v.toNat % 8 ≤ k ∧ k < v.toNat % 8 + bytesOf n then byteAt val.toNat (k - v.toNat % 8) else byteAt reg.toNat k := by
  apply Nat.eq_of_testBit_eq
  intro j
  rw [apply_ite (Nat.testBit · j), testBit_byteAt, testBit_byteAt, testBit_byteAt]
  by_cases hj : j < 8
  · have hwindow : timerShift v ≤ 8 * k + j ∧ 8 * k + j < timerShift v + 8 * bytesOf n ↔
        v.toNat % 8 ≤ k ∧ k < v.toNat % 8 + bytesOf n := by unfold timerShift; omega
    rw [BitVec.testBit_toNat, BitVec.testBit_toNat, BitVec.testBit_toNat, getLsbD_timerInsert reg v n val (by omega)]
    simp only [hj, decide_true, Bool.true_and, hwindow]
    split
    · rw [show 8 * k + j - timerShift v = 8 * (k - v.toNat % 8) + j by unfold timerShift; omega]
    · rfl
  · simp [hj]

-- ---- what the access pipelines come to (spec 20_memory.md R130, R131) ----

section Access

variable {i : Instr} {addr : Word} {n : Width} {s : State} {tr : Translation}

theorem memRead_of_timerHit {tm : Timer} (h : timerHit addr n s = some tm) :
    memRead addr n s = .ok (timerBits (timerValue tm s.csr) addr n) s := by
  rw [← timerRead_eq]
  simp [memRead, readMem, h]

theorem memRead_of_translation (ht : timerHit addr n s = none) (h : translation addr .read s = some tr)
    (ha : addr.toNat % bytesOf n = 0) :
    memRead addr n s = .ok (pmValue tr.phys n true (writeBackState tr.writeBack s))
      (pmReadState tr.phys n true (writeBackState tr.writeBack s)) := by
  simp [memRead, readMem, ht, translateAligned_of_some h ha, pmRead]

theorem memWrite_of_timerHit {tm : Timer} (h : timerHit addr n s = some tm) (v : Word) :
    memWrite addr n v s = .ok () (timerWrite tm addr n v s) := by
  simp [memWrite, writeMem, h]

theorem memWrite_of_translation (ht : timerHit addr n s = none) (h : translation addr .write s = some tr)
    (ha : addr.toNat % bytesOf n = 0) (v : Word) :
    memWrite addr n v s = .ok () (pmWrite tr.phys n v true (writeBackState tr.writeBack s)).2 := by
  simp [memWrite, writeMem, ht, translateAligned_of_some h ha]

/-- Where no timer is hit a load raises what its translation raises. -/
theorem memRead_of_raised {e : Raised} {s1 : State} (ht : timerHit addr n s = none)
    (h : translateAligned addr n .read true s = .raised e s1) : memRead addr n s = .raised e s1 := by
  simp [memRead, readMem, ht, h]

/-- Where no timer is hit a store raises what its translation raises. -/
theorem memWrite_of_raised {e : Raised} {s1 : State} (ht : timerHit addr n s = none)
    (h : translateAligned addr n .write true s = .raised e s1) (v : Word) : memWrite addr n v s = .raised e s1 := by
  simp [memWrite, writeMem, ht, h]

-- ---- loads and stores that complete (spec 42_rv32i_loadstore.md R250) ----

/-- An instruction that is a load completes as the statements say of a load. -/
theorem loads_of_exec_eq {rd rs1 : Reg} {imm : BitVec 12} {extend ext : Word → Word}
    (hexec : exec i s = loadOp rd rs1 imm n extend s) (hext : ∀ v, extend v = ext v) (hm : s.mem.wf)
    (haddr : addr = effAddr rs1 imm s) : Loads i rd addr n ext s := by
  obtain rfl : extend = ext := funext hext
  rw [loadOp, ← haddr] at hexec
  constructor
  · intro tm htm
    rw [memRead_of_timerHit htm] at hexec
    exact writesReg_of_exec_eq hexec rfl
  · intro tr htm htr ha
    rw [memRead_of_translation htm htr ha] at hexec
    refine ⟨_, _, afterTranslation_writeBack tr hm, hexec, regsAfter_setX (by simp) rd _, ?_, ?_, fun a => ?_⟩
    · rw [ReadCalls, State.setX_deviceCalls]
      exact readCalls_pmReadState ..
    · rw [State.setX_eq, pmReadState_eq]
    · simp

/-- An instruction that is a store completes as the statements say of a store. -/
theorem stores_of_exec_eq {rs1 rs2 : Reg} {imm : BitVec 12} (hexec : exec i s = storeOp rs1 rs2 imm n s) (hm : s.mem.wf)
    (haddr : addr = effAddr rs1 imm s) : Stores i addr n (s.x rs2) s := by
  rw [storeOp, ← haddr] at hexec
  constructor
  · intro tm htm
    rw [memWrite_of_timerHit htm] at hexec
    refine ⟨_, timerInsert (timerValue tm s.csr) addr n (s.x rs2), hexec, ?_, fun k hk => byteAt_timerInsert _ _ _ _ hk, ?_⟩
    · cases tm <;> exact fun _ => rfl
    · cases tm <;> rfl
  · intro tr htm htr ha
    rw [memWrite_of_translation htm htr ha] at hexec
    exact ⟨_, _, afterTranslation_writeBack tr hm, hexec, stored_pmWrite (writeBackState_mem_wf _ s hm) ..⟩

-- ---- data accesses that raise (spec 20_memory.md R111, R127) ----

theorem translateAligned_of_none {intent : Intent} (h : translation addr intent s = none) :
    translateAligned addr n intent true s = .raised { exception := pageFaultOf intent, tval := some addr } s := by
  rw [translateAligned, translate_none h]

theorem translateAligned_of_misaligned {intent : Intent} (h : translation addr intent s = some tr)
    (ha : isAligned addr n = false) :
    translateAligned addr n intent true s =
      .raised { exception := misalignedOf intent, tval := some addr } (writeBackState tr.writeBack s) := by
  simp [translateAligned, translate_some h, ha]

/-- An instruction that takes what its translation raises traps as the statements say.  An access that raises hits no timer, so it is
enough that the instruction does so where none is hit. -/
theorem accessTraps_of_raises {intent : Intent} (hintent : intent ≠ .fetch) (hm : s.mem.wf)
    (hraises : ∀ e s1, timerHit addr n s = none → translateAligned addr n intent true s = .raised e s1 →
      exec i s = takeException e s1) :
    AccessTraps i addr n intent (pageFaultOf intent) (misalignedOf intent) s := by
  constructor
  · intro hnone
    rw [hraises _ _ (timerHit_fault hintent hnone) (translateAligned_of_none hnone)]
    exact takesException_takeException ..
  · intro tr htr ha
    have hmis := (isAligned_eq_false_iff addr n).mpr ha
    refine ⟨_, afterTranslation_writeBack tr hm, ?_⟩
    rw [hraises _ _ (timerHit_misaligned s hmis) (translateAligned_of_misaligned htr hmis)]
    exact takesException_takeException ..

theorem accessTraps_of_load {rd rs1 : Reg} {imm : BitVec 12} {extend : Word → Word}
    (hexec : exec i s = loadOp rd rs1 imm n extend s) (hm : s.mem.wf) (haddr : addr = effAddr rs1 imm s) :
    AccessTraps i addr n .read .loadPageFault .loadAddressMisaligned s :=
  accessTraps_of_raises (by decide) hm fun e s1 htm hraised => by
    rw [hexec, loadOp, ← haddr, memRead_of_raised htm hraised]

theorem accessTraps_of_store {rs1 rs2 : Reg} {imm : BitVec 12} (hexec : exec i s = storeOp rs1 rs2 imm n s) (hm : s.mem.wf)
    (haddr : addr = effAddr rs1 imm s) : AccessTraps i addr n .write .storeAmoPageFault .storeAmoAddressMisaligned s :=
  accessTraps_of_raises (by decide) hm fun e s1 htm hraised => by
    rw [hexec, storeOp, ← haddr, memWrite_of_raised htm hraised]

theorem accessTraps_of_amo {rd rs1 rs2 : Reg} (hexec : ∃ f, exec i s = amoOp rd rs1 rs2 f s) (hm : s.mem.wf) :
    AccessTraps i (s.x rs1) .word .write .storeAmoPageFault .storeAmoAddressMisaligned s :=
  accessTraps_of_raises (by decide) hm fun e s1 _ hraised => by
    obtain ⟨f, hf⟩ := hexec
    rw [hf, amoOp, hraised]

theorem accessTraps_lrW (rd rs1 : Reg) (aq rl : BitVec 1) (hm : s.mem.wf) :
    AccessTraps (.lrW rd rs1 aq rl) (s.x rs1) .word .read .loadPageFault .loadAddressMisaligned s :=
  accessTraps_of_raises (by decide) hm fun e s1 _ hraised => by
    show execLrW rd rs1 aq rl s = _
    rw [execLrW, hraised]

theorem accessTraps_scW (rd rs1 rs2 : Reg) (aq rl : BitVec 1) (hm : s.mem.wf) :
    AccessTraps (.scW rd rs1 rs2 aq rl) (s.x rs1) .word .write .storeAmoPageFault .storeAmoAddressMisaligned s :=
  accessTraps_of_raises (by decide) hm fun e s1 _ hraised => by
    show execScW rd rs1 rs2 aq rl s = _
    rw [execScW, hraised]

end Access

/-- Each AMO is `amoOp` with a function of its own (44_rv32a.md R294 to R302). -/
theorem exec_eq_amoOp (rd rs1 rs2 : Reg) (aq rl : BitVec 1) (s : State) :
    ∀ i ∈ [Instr.amoswapW rd rs1 rs2 aq rl, .amoaddW rd rs1 rs2 aq rl, .amoxorW rd rs1 rs2 aq rl, .amoandW rd rs1 rs2 aq rl,
        .amoorW rd rs1 rs2 aq rl, .amominW rd rs1 rs2 aq rl, .amomaxW rd rs1 rs2 aq rl, .amominuW rd rs1 rs2 aq rl,
        .amomaxuW rd rs1 rs2 aq rl],
      ∃ f, exec i s = amoOp rd rs1 rs2 f s := by
  simp only [List.forall_mem_cons, exec, execAmoswapW, execAmoaddW, execAmoxorW, execAmoandW, execAmoorW, execAmominW,
    execAmomaxW, execAmominuW, execAmomaxuW]
  exact ⟨⟨_, rfl⟩, ⟨_, rfl⟩, ⟨_, rfl⟩, ⟨_, rfl⟩, ⟨_, rfl⟩, ⟨_, rfl⟩, ⟨_, rfl⟩, ⟨_, rfl⟩, ⟨_, rfl⟩, List.forall_mem_nil _⟩

-- ---- the obligations ----

/-- Settles O15: each load is `loadOp`, at the address of the statements, with the extension its rule names. -/
theorem loadsComplete : Obligations.LoadsComplete := by
  intro s rd rs1 imm addr hm hsum
  have haddr := eq_effAddr hsum
  exact ⟨loads_of_exec_eq rfl signByte_eq hm haddr, loads_of_exec_eq rfl signHalf_eq hm haddr,
    loads_of_exec_eq rfl (fun _ => rfl) hm haddr, loads_of_exec_eq rfl zeroByte_eq hm haddr,
    loads_of_exec_eq rfl zeroHalf_eq hm haddr⟩

/-- Settles O16: each store is `storeOp`, at the address of the statements. -/
theorem storesComplete : Obligations.StoresComplete := by
  intro s rs1 rs2 imm addr hm hsum
  have haddr := eq_effAddr hsum
  exact ⟨stores_of_exec_eq rfl hm haddr, stores_of_exec_eq rfl hm haddr, stores_of_exec_eq rfl hm haddr⟩

/-- Settles O21: every instruction named takes the exception of its aligned translation, which finds the page fault first. -/
theorem dataAccessTraps : Obligations.DataAccessTraps := by
  intro s rd rs1 rs2 imm aq rl addr i hm hsum
  have haddr := eq_effAddr hsum
  refine ⟨fun hi => ?_, fun hi => ?_, accessTraps_of_load rfl hm haddr, accessTraps_of_store rfl hm haddr,
    accessTraps_of_store rfl hm haddr, accessTraps_of_store rfl hm haddr, accessTraps_lrW rd rs1 aq rl hm, fun hi => ?_⟩
  · rcases List.mem_pair.mp hi with rfl | rfl <;> exact accessTraps_of_load rfl hm haddr
  · rcases List.mem_pair.mp hi with rfl | rfl <;> exact accessTraps_of_load rfl hm haddr
  · rcases List.mem_cons.mp hi with rfl | hamo
    · exact accessTraps_scW rd rs1 rs2 aq rl hm
    · exact accessTraps_of_amo (exec_eq_amoOp rd rs1 rs2 aq rl s i hamo) hm

end Sys2Proof.Machine
end

section
/-! PROOF. The M extension: products (MultiplyResults), quotients and remainders (DivideResults), and the law that ties them
together (DivisionIdentity). -/

namespace Sys2Proof.Machine

open Sys2Proof.Claim

-- ---- high halves of exact products (spec 43_rv32m.md R271) ----

/-- The high half stands for the exact product divided by 2^32, rounded down, modulo 2^32. -/
theorem toNat_highProduct (a b : Int) : ((highProduct a b).toNat : Int) = a * b / 2 ^ 32 % 2 ^ 32 := by
  rw [highProduct, highHalf_toNat, BitVec.toNat_ofInt]
  omega

/-- A number in the signed range of a word is the signed value of the word that it is modulo 2^32. -/
theorem toInt_eq_of_toNat_eq_emod {w : Word} {n : Int} (hw : (w.toNat : Int) = n % 2 ^ 32) (hlo : -2 ^ 31 ≤ n)
    (hhi : n < 2 ^ 31) : w.toInt = n := by
  rw [BitVec.toInt_eq_toNat_cond]
  split <;> omega

/-- A signed word times a number below 2^32 in absolute value fits 64 bits, so the high half is exact. -/
theorem toInt_highProduct (a : Word) {b : Int} (hb : |b| < 2 ^ 32) : (highProduct a.toInt b).toInt = a.toInt * b / 2 ^ 32 := by
  have ha : |a.toInt| ≤ 2 ^ 31 := abs_le.mpr ⟨a.le_toInt, a.toInt_lt.le⟩
  have hprod : |a.toInt * b| < 2 ^ 31 * 2 ^ 32 := by
    rw [abs_mul]
    exact mul_lt_mul' ha hb (abs_nonneg b) (by decide)
  obtain ⟨hlo, hhi⟩ := abs_lt.mp hprod
  exact toInt_eq_of_toNat_eq_emod (toNat_highProduct ..) (by omega) (by omega)

theorem toInt_highProduct_signed (a b : Word) : (highProduct a.toInt b.toInt).toInt = a.toInt * b.toInt / 2 ^ 32 :=
  toInt_highProduct a (abs_lt.mpr ⟨lt_of_lt_of_le (by decide) b.le_toInt, lt_trans b.toInt_lt (by decide)⟩)

theorem toInt_highProduct_unsigned (a b : Word) : (highProduct a.toInt b.toNat).toInt = a.toInt * b.toNat / 2 ^ 32 :=
  toInt_highProduct a (abs_lt.mpr ⟨by omega, by omega⟩)

theorem toNat_highProduct_unsigned (a b : Word) : (highProduct a.toNat b.toNat).toNat = a.toNat * b.toNat / 2 ^ 32 := by
  have hprod : a.toNat * b.toNat < 2 ^ 32 * 2 ^ 32 := Nat.mul_lt_mul'' a.isLt b.isLt
  have hhigh := toNat_highProduct a.toNat b.toNat
  rw [← Nat.cast_mul] at hhigh
  omega

-- ---- the corner cases of division as words (R271) ----

theorem toNat_eq_zero_iff {b : Word} : b.toNat = 0 ↔ b = 0#32 := BitVec.toNat_inj (y := 0#32)

theorem signedOverflow_iff {a b : Word} : a.toInt = -2 ^ 31 ∧ b.toInt = -1 ↔ a = 0x80000000#32 ∧ b = 0xFFFFFFFF#32 :=
  and_congr (BitVec.toInt_inj (y := 0x80000000#32)) (BitVec.toInt_inj (y := 0xFFFFFFFF#32))

-- ---- quotients and remainders (R276 to R279) ----

/-- Away from the corner cases the exact quotient fits a word. -/
theorem toInt_ofInt_tdiv {a b : Word} (h : ¬(a = 0x80000000#32 ∧ b = 0xFFFFFFFF#32)) :
    (BitVec.ofInt 32 (a.toInt.tdiv b.toInt)).toInt = a.toInt.tdiv b.toInt := by
  rw [BitVec.toInt_ofInt, ← BitVec.toInt_sdiv]
  exact BitVec.toInt_sdiv_of_ne_or_ne a b (not_and_or.mp h)

theorem toInt_ofInt_tmod (a b : Word) : (BitVec.ofInt 32 (a.toInt.tmod b.toInt)).toInt = a.toInt.tmod b.toInt := by
  rw [← BitVec.toInt_srem, BitVec.ofInt_toInt]

/-- DIV's result as a number, in the cases of the statement. -/
theorem divSigned_cases (a b : Word) :
    if b.toNat = 0 then (divSigned a b).toInt = -1
    else if a.toInt = -2 ^ 31 ∧ b.toInt = -1 then (divSigned a b).toInt = -2 ^ 31
    else (divSigned a b).toInt = a.toInt.tdiv b.toInt := by
  simp only [toNat_eq_zero_iff, signedOverflow_iff]
  rw [divSigned]
  split_ifs with hzero hover
  · rfl
  · rfl
  · exact toInt_ofInt_tdiv hover

/-- REM's result, in the cases of the statement; its last case subtracts what R278 does. -/
theorem remSigned_cases (a b : Word) :
    if b.toNat = 0 then remSigned a b = a
    else if a.toInt = -2 ^ 31 ∧ b.toInt = -1 then (remSigned a b).toInt = 0
    else (remSigned a b).toInt = a.toInt.tmod b.toInt := by
  simp only [toNat_eq_zero_iff, signedOverflow_iff]
  rw [remSigned]
  split_ifs with hzero hover
  · rfl
  · rfl
  · rw [← Int.tmod_def, toInt_ofInt_tmod]

theorem divUnsigned_cases (a b : Word) :
    if b.toNat = 0 then (divUnsigned a b).toNat = 2 ^ 32 - 1 else (divUnsigned a b).toNat = a.toNat / b.toNat := by
  simp only [toNat_eq_zero_iff]
  rw [divUnsigned]
  split_ifs with hzero
  · rfl
  · rw [← BitVec.udiv_def, BitVec.toNat_udiv]

theorem remUnsigned_cases (a b : Word) :
    if b.toNat = 0 then remUnsigned a b = a else (remUnsigned a b).toNat = a.toNat % b.toNat := by
  simp only [toNat_eq_zero_iff]
  rw [remUnsigned]
  split_ifs with hzero
  · rfl
  · rw [← BitVec.umod_def, BitVec.toNat_umod]

-- ---- dividend = divisor * quotient + remainder (R271) ----

/-- The last case is the remainder's own definition, read modulo 2^32. -/
theorem eq_mul_divSigned_add_remSigned (a b : Word) : a = b * divSigned a b + remSigned a b := by
  rw [divSigned, remSigned]
  split_ifs with hzero hover
  · rw [hzero, BitVec.zero_mul, BitVec.zero_add]
  · obtain ⟨rfl, rfl⟩ := hover
    rfl
  · calc a = BitVec.ofInt 32 (b.toInt * a.toInt.tdiv b.toInt + (a.toInt - b.toInt * a.toInt.tdiv b.toInt)) := by
          rw [add_sub_cancel, BitVec.ofInt_toInt]
      _ = _ := by rw [BitVec.ofInt_add, BitVec.ofInt_mul, BitVec.ofInt_toInt]

theorem eq_mul_divUnsigned_add_remUnsigned (a b : Word) : a = b * divUnsigned a b + remUnsigned a b := by
  rw [divUnsigned, remUnsigned]
  split_ifs with hzero
  · rw [hzero, BitVec.zero_mul, BitVec.zero_add]
  · calc a = BitVec.ofNat 32 (b.toNat * (a.toNat / b.toNat) + a.toNat % b.toNat) := by
          rw [Nat.div_add_mod, BitVec.ofNat_toNat, BitVec.setWidth_eq]
      _ = _ := by rw [BitVec.ofNat_add, BitVec.ofNat_mul, BitVec.ofNat_toNat, BitVec.setWidth_eq]

/-- What `x[rd]` reads after an instruction whose meaning is one register write. -/
theorem x_of_exec_eq_writeReg {i : Instr} {rd : Reg} {v : Word} {s t : State} (hrd : rd ≠ 0#5)
    (hexec : exec i s = writeReg rd v s) (h : exec i s = .next t) : t.x rd = v := by
  obtain rfl : s.setX rd v = t := Host.Outcome.next.inj (hexec.symm.trans h)
  exact s.setX_x_self hrd v

-- ---- the obligations ----

/-- Settles O10: MUL keeps the low half, the others the high half of a product that fits 64 bits. -/
theorem multiplyResults : Obligations.MultiplyResults := fun _ _ _ _ =>
  ⟨writesReg_of_exec_eq rfl (BitVec.toNat_mul ..),
    writesReg_of_exec_eq rfl (toInt_highProduct_signed ..),
    writesReg_of_exec_eq rfl (toInt_highProduct_unsigned ..),
    writesReg_of_exec_eq rfl (toNat_highProduct_unsigned ..)⟩

/-- Settles O11: the branches of each result are the cases of its rule. -/
theorem divideResults : Obligations.DivideResults := fun _ _ _ _ =>
  ⟨writesReg_of_exec_eq rfl (divSigned_cases ..),
    writesReg_of_exec_eq rfl (remSigned_cases ..),
    writesReg_of_exec_eq rfl (divUnsigned_cases ..),
    writesReg_of_exec_eq rfl (remUnsigned_cases ..)⟩

/-- Settles O12: the four results stand in `x[rd]`, and they satisfy the law as words. -/
theorem divisionIdentity : Obligations.DivisionIdentity := by
  intro s tq tr uq ur rd rs1 rs2 hrd hdiv hrem hdivu hremu
  rw [x_of_exec_eq_writeReg hrd rfl hdiv, x_of_exec_eq_writeReg hrd rfl hrem, x_of_exec_eq_writeReg hrd rfl hdivu,
    x_of_exec_eq_writeReg hrd rfl hremu]
  exact ⟨eq_mul_divSigned_add_remSigned .., eq_mul_divUnsigned_add_remUnsigned ..⟩

end Sys2Proof.Machine
end

section
/-! PROOF. Atomics: the store-conditional (StoreConditionalCompletes) and the nine read-modify-writes (AmoCompletes). -/

namespace Sys2Proof.Machine

open Sys2Proof.Claim

@[simp] theorem pmWrite_regs (phys : PAddr) (n : Width) (v : Word) (noisy : Bool) (s : State) :
    (pmWrite phys n v noisy s).2.regs = s.regs := by rw [pmWrite_eq]

-- ---- SC.W (spec 44_rv32a.md R292) ----

/-- What SC.W comes to at an aligned address that is translated. -/
theorem exec_scW {s : State} {rs1 : Reg} {tr : Translation} (rd rs2 : Reg) (aq rl : BitVec 1)
    (h : translation (s.x rs1) .write s = some tr) (ha : (s.x rs1).toNat % 4 = 0) :
    exec (.scW rd rs1 rs2 aq rl) s =
      if reservationHit tr.phys (writeBackState tr.writeBack s) then
        .next ((pmWrite tr.phys .word (s.x rs2) true (writeBackState tr.writeBack s)).2.setX rd 0#32).dropReservation
      else .next ((writeBackState tr.writeBack s).setX rd 1#32).dropReservation := by
  show execScW rd rs1 rs2 aq rl s = _
  rw [execScW, translateAligned_of_some (n := .word) h ha]

/-- What the statements say of a result that goes to `rd` while the reservation ends, `w` having the registers of `s`. -/
theorem setX_dropReservation_frame {s w : State} (hw : w.regs = s.regs) (rd : Reg) (v : Word) :
    RegsAfter rd v s (w.setX rd v).dropReservation ∧ SameBytes w (w.setX rd v).dropReservation ∧
      (w.setX rd v).dropReservation =
        { w with regs := (w.setX rd v).dropReservation.regs, reservedValid := false } := by
  refine ⟨regsAfter_setX hw rd v, fun a => ?_, ?_⟩
  · rw [State.dropReservation_mem, State.setX_mem]
  · rw [State.setX_eq, State.dropReservation]

-- ---- AMO (spec 44_rv32a.md R293) ----

/-- What `amoOp` comes to at an aligned address that is translated. -/
theorem amoOp_of_translation {s : State} {rs1 : Reg} {tr : Translation} (rd rs2 : Reg) (f : Word → Word → Word)
    (h : translation (s.x rs1) .write s = some tr) (ha : (s.x rs1).toNat % 4 = 0) :
    amoOp rd rs1 rs2 f s =
      .next ((pmWrite tr.phys .word (f (pmValue tr.phys .word true (writeBackState tr.writeBack s)) (s.x rs2)) true
        (pmReadState tr.phys .word true (writeBackState tr.writeBack s))).2.setX rd
          (pmValue tr.phys .word true (writeBackState tr.writeBack s))) := by
  rw [amoOp, translateAligned_of_some (n := .word) h ha]
  rfl

/-- An instruction that is `amoOp` with `f` completes, with every property of the word that `f` gives. -/
theorem amo_of_exec_eq {i : Instr} {rd rs1 rs2 : Reg} (f : Word → Word → Word)
    {F : Word → Word → Word → Prop} {s : State} (hexec : exec i s = amoOp rd rs1 rs2 f s)
    (hF : ∀ old src, F old src (f old src)) (hm : s.mem.wf) : Amo i rd rs1 rs2 F s := by
  intro tr h ha
  rw [amoOp_of_translation rd rs2 f h ha] at hexec
  have hread : (pmReadState tr.phys .word true (writeBackState tr.writeBack s)).mem.wf := by
    rw [pmReadState_mem]
    exact writeBackState_mem_wf _ s hm
  refine ⟨_, _, _, _, _, afterTranslation_writeBack tr hm, hexec, pmReadState_eq .., readCalls_pmReadState .., hF _ _,
    stored_pmWrite hread .., State.setX_eq .., regsAfter_setX (by simp) rd _, fun a => ?_⟩
  rw [State.setX_mem]

-- ---- the lesser and the greater (spec 44_rv32a.md R299 to R302) ----

theorem toInt_lesser (a b : Word) : (if ltSigned a b then a else b).toInt = min a.toInt b.toInt := by
  simp only [ltSigned_iff, apply_ite BitVec.toInt, min_def_lt]

theorem toInt_greater (a b : Word) : (if ltSigned b a then a else b).toInt = max a.toInt b.toInt := by
  simp only [ltSigned_iff, apply_ite BitVec.toInt, max_comm a.toInt, max_def_lt]

theorem toNat_lesser (a b : Word) : (if ltUnsigned a b then a else b).toNat = min a.toNat b.toNat := by
  simp only [ltUnsigned_iff, apply_ite BitVec.toNat, min_def_lt]

theorem toNat_greater (a b : Word) : (if ltUnsigned b a then a else b).toNat = max a.toNat b.toNat := by
  simp only [ltUnsigned_iff, apply_ite BitVec.toNat, max_comm a.toNat, max_def_lt]

-- ---- the obligations ----

/-- Settles O19: the reservation as the translation's write-back leaves it decides, and it ends either way. -/
theorem storeConditionalCompletes : Obligations.StoreConditionalCompletes := by
  intro s rd rs1 rs2 aq rl tr hm h ha
  simp only [← reservationHit_iff]
  have hexec := exec_scW rd rs2 aq rl h ha
  by_cases hhit : reservationHit tr.phys (writeBackState tr.writeBack s) = true
  · rw [if_pos hhit] at hexec
    obtain ⟨hregs, hbytes, hframe⟩ := setX_dropReservation_frame
      ((pmWrite_regs tr.phys .word (s.x rs2) true _).trans (writeBackState_regs tr.writeBack s)) rd 0#32
    exact ⟨_, _, afterTranslation_writeBack tr hm, hexec,
      fun _ => ⟨hregs, _, stored_pmWrite (writeBackState_mem_wf _ s hm) .., hbytes, hframe⟩, absurd hhit⟩
  · rw [if_neg hhit] at hexec
    exact ⟨_, _, afterTranslation_writeBack tr hm, hexec, (absurd · hhit),
      fun _ => setX_dropReservation_frame (writeBackState_regs ..) rd 1#32⟩

/-- Settles O20: each AMO is `amoOp` with the function its rule names. -/
theorem amoCompletes : Obligations.AmoCompletes := by
  intro s rd rs1 rs2 aq rl hm
  have hsum (old src : Word) : IsSum (old + src) old src.toNat := isSum_add (by omega) old
  exact ⟨amo_of_exec_eq (fun _ src => src) rfl (fun _ _ => rfl) hm,
    amo_of_exec_eq (fun old src => old + src) rfl hsum hm,
    amo_of_exec_eq (fun old src => old ^^^ src) rfl (fun _ _ _ _ => BitVec.getLsbD_xor) hm,
    amo_of_exec_eq (fun old src => old &&& src) rfl (fun _ _ _ _ => BitVec.getLsbD_and) hm,
    amo_of_exec_eq (fun old src => old ||| src) rfl (fun _ _ _ _ => BitVec.getLsbD_or) hm,
    amo_of_exec_eq (fun old src => if ltSigned old src then old else src) rfl toInt_lesser hm,
    amo_of_exec_eq (fun old src => if ltSigned src old then old else src) rfl toInt_greater hm,
    amo_of_exec_eq (fun old src => if ltUnsigned old src then old else src) rfl toNat_lesser hm,
    amo_of_exec_eq (fun old src => if ltUnsigned src old then old else src) rfl toNat_greater hm⟩

end Sys2Proof.Machine
end

section
/-! PROOF. The six CSR instructions (CsrInstructionsRun): the model's access check is the statements' grant, and the common
operation of the instructions is the statements' access. -/

namespace Sys2Proof.Machine

open Sys2Proof.Claim

-- ---- the access check (spec 45_zicsr.md R321) ----

theorem csrIsShadow_iff (n : CsrNum) : csrIsShadow n = true ↔
    0xC00 ≤ n.toNat ∧ n.toNat ≤ 0xC1F ∨ 0xC80 ≤ n.toNat ∧ n.toNat ≤ 0xC9F := by
  have hlt := n.isLt
  rw [csrIsShadow, Bool.or_eq_true, beq_iff_eq, beq_iff_eq, ← BitVec.toNat_inj, ← BitVec.toNat_inj,
    BitVec.extractLsb'_toNat, Nat.shiftRight_eq_div_pow, BitVec.toNat_ofNat, BitVec.toNat_ofNat]
  omega

theorem counterEnabled_iff (n : CsrNum) (s : State) : counterEnabled n s = true ↔
    (s.priv ≠ .m → s.csr.mcounteren.getLsbD (n.toNat % 32) = true) ∧
    (s.priv = .u → s.csr.scounteren.getLsbD (n.toNat % 32) = true) := by
  have hbit : (n.extractLsb' 0 5).toNat = n.toNat % 32 := by rw [BitVec.extractLsb'_toNat, Nat.shiftRight_zero]
  unfold counterEnabled
  rw [hbit]
  cases s.priv <;> simp

/-- The access check gives a register exactly where the statements grant it. -/
theorem csrCheck_eq_some_iff (n : CsrNum) (writes : Bool) (s : State) (r : CsrReg) :
    csrCheck n writes s = some r ↔ CsrGranted n (writes = true) s r := by
  rw [CsrGranted, ← csrMinPriv_eq, ← csrReadOnly_iff, ← csrIsShadow_iff, ← counterEnabled_iff]
  exact ⟨csrCheck_some, fun ⟨hreg, hmode, hro, hcounter⟩ => csrCheck_of hreg hmode hro hcounter⟩

-- ---- the common operation (spec 45_zicsr.md R320, R322) ----

/-- An instruction whose meaning is `csrOp` with its own word is the access of the statements, granted and refused. -/
theorem csrAccess_of_exec_eq {i : Instr} {rd : Reg} {n : CsrNum} {writes : Bool} {W : Prop} {new : Word → Word} {s : State}
    (hwrites : writes = true ↔ W) (hexec : exec i s = csrOp (encode i) rd n writes new s) : CsrAccess i rd n W new s := by
  obtain rfl : (writes = true) = W := propext hwrites
  simp only [CsrAccess, ← csrCheck_eq_some_iff]
  constructor
  · intro r hgrant
    rw [csrOp, hgrant] at hexec
    refine ⟨_, hexec, ?_⟩
    cases writes with
    | true => exact ⟨regsAfter_setX rfl rd _, fun _ => by simp, fun _ => State.setX_eq .., absurd rfl⟩
    | false => exact ⟨regsAfter_setX rfl rd _, fun _ => by simp, Bool.false_ne_true.elim, fun _ => State.setX_eq ..⟩
  · intro hrefuse
    rw [hexec, csrOp, Option.eq_none_iff_forall_ne_some.mpr hrefuse]
    exact takesException_takeException ..

/-- Settles O23: each is `csrOp` with its own new value; a set or a clear writes unless its operand field is 0. -/
theorem csrInstructionsRun : Obligations.CsrInstructionsRun := by
  intro s rd rs1 n u
  have huimm : BitVec.ofNat 32 u.toNat = uimmOf u := BitVec.ofNat_toNat ..
  have halways : true = true ↔ True := iff_of_true rfl trivial
  rw [huimm]
  exact ⟨csrAccess_of_exec_eq halways rfl, csrAccess_of_exec_eq bne_iff_ne rfl, csrAccess_of_exec_eq bne_iff_ne rfl,
    csrAccess_of_exec_eq halways rfl, csrAccess_of_exec_eq bne_iff_ne rfl, csrAccess_of_exec_eq bne_iff_ne rfl⟩

end Sys2Proof.Machine
end

section
/-! PROOF. System instructions: calls and breakpoints (CallsEnterHandler), returns from traps (TrapReturnsRestore), the privileged
forms below their mode (PrivilegedTrapBelow), fences and standby (FencesAndWfiComplete). -/

namespace Sys2Proof.Machine

open Sys2Proof.Claim

-- ---- what each instruction comes to, by mode (spec 46_system.md R344, R345, R347) ----

section Modes

variable {s : State}

theorem exec_mret_of_m (h : s.priv = .m) : exec .mret s = .next (returnM s) := if_pos h

theorem exec_mret_below_m (h : s.priv ≠ .m) : exec .mret s = takeIllegal 0x30200073#32 s := if_neg h

theorem exec_sret_above_u (h : s.priv ≠ .u) : exec .sret s = .next (returnS s) := if_neg h

theorem exec_sret_of_u (h : s.priv = .u) : exec .sret s = takeIllegal 0x10200073#32 s := if_pos h

theorem exec_sfenceVma_above_u (h : s.priv ≠ .u) (rs1 rs2 : Reg) : exec (.sfenceVma rs1 rs2) s = .next s := if_neg h

theorem exec_sfenceVma_of_u (h : s.priv = .u) (rs1 rs2 : Reg) :
    exec (.sfenceVma rs1 rs2) s = takeIllegal (encode (.sfenceVma rs1 rs2)) s := if_pos h

end Modes

/-- Raising illegal_instruction has the outcome of the statements. -/
theorem takesException_takeIllegal (word : Word) (s : State) :
    TakesException .illegalInstruction word s (takeIllegal word s) := takesException_takeException ..

-- ---- calls (spec 46_system.md R342, R343) ----

/-- An exception without a trap value of its own has the one that stands in `tval_next`. -/
theorem takesException_takeException_none (e : Exception) (s : State) :
    TakesException e s.csr.tvalNext s (takeException { exception := e, tval := none } s) :=
  takesException_takeException e s.csr.tvalNext s

theorem takesException_ecall (s : State) :
    TakesException (ecallException s.priv) s.csr.tvalNext s (exec .ecall s) := takesException_takeException_none ..

theorem takesException_ebreak (s : State) : TakesException .breakpoint s.csr.tvalNext s (exec .ebreak s) :=
  takesException_takeException_none ..

-- ---- the mode a return enters (spec 46_system.md R344) ----

/-- S and M are each named by one value of MPP; U is named by the two others. -/
theorem modeOfBits_eq_iff {p : Mode} (hp : p ≠ .u) (b : BitVec 2) : modeOfBits b = p ↔ b = modeBits p := by
  refine ⟨fun h => ?_, fun h => h ▸ modeOfBits_modeBits p⟩
  subst h
  unfold modeOfBits at hp ⊢
  split_ifs at hp ⊢ with h3 h1
  · exact h3
  · exact h1
  · exact absurd rfl hp

/-- For S and M the MPP field names the mode exactly when it holds the mode's number. -/
theorem mstatusMpp_eq_iff_num {p : Mode} (hp : p ≠ .u) (w : Word) :
    mstatusMpp w = p ↔ w.toNat / 2 ^ 11 % 4 = modeNum p := by
  rw [mstatusMpp, modeOfBits_eq_iff hp, ← BitVec.toNat_inj, mppBits_toNat, modeBits_toNat]

-- ---- the obligations ----

/-- Settles O30: a call raises its exception without a trap value of its own, and its handler is ready. -/
theorem callsEnterHandler : Obligations.CallsEnterHandler := by
  intro s e
  constructor
  · intro he hready
    obtain rfl : e = ecallException s.priv := he
    exact (takesException_ecall s).1 hready
  · rintro rfl hready
    exact (takesException_ebreak s).1 hready

/-- Settles O31: a return enters the mode its field names and leaves the status of `mstatusReturnM` or `mstatusReturnS`. -/
theorem trapReturnsRestore : Obligations.TrapReturnsRestore := by
  intro s
  constructor
  · intro hm
    exact ⟨mstatusMpp s.csr.mstatus, mstatusReturnM s.csr.mstatus, mstatusMpp_eq_iff_num (by decide) _,
      mstatusMpp_eq_iff_num (by decide) _, fun k _ => getLsbD_mstatusReturnM _ k, exec_mret_of_m hm⟩
  · intro hu
    exact ⟨sppMode s.csr.mstatus, mstatusReturnS s.csr.mstatus, rfl, fun k _ => getLsbD_mstatusReturnS _ k,
      exec_sret_above_u hu⟩

/-- Settles O32: each of the three is an illegal instruction below its mode. -/
theorem privilegedTrapBelow : Obligations.PrivilegedTrapBelow := by
  intro s rs1 rs2
  refine ⟨fun hm => ?_, fun hu => ⟨?_, ?_⟩⟩
  · rw [exec_mret_below_m hm]
    exact takesException_takeIllegal ..
  · rw [exec_sret_of_u hu]
    exact takesException_takeIllegal ..
  · rw [exec_sfenceVma_of_u hu]
    exact takesException_takeIllegal ..

/-- Settles O29: FENCE, FENCE.I and WFI do not look at the mode. -/
theorem fencesAndWfiComplete : Obligations.FencesAndWfiComplete :=
  fun _ _ _ _ _ _ rs1 rs2 => ⟨rfl, rfl, fun hu => exec_sfenceVma_above_u hu rs1 rs2, rfl⟩

end Sys2Proof.Machine
end

section
/-! PROOF. Traps: the two trap entries (MachineTrapEntry, SupervisorTrapEntry), the vector and the cause (VectorAndCause), delegation
(ExceptionDelegation), what an instruction that raises leaves (ExceptionsPrecise), and what changes the mode
(ModeChangesOnlyByTraps). -/

namespace Sys2Proof.Machine

open Sys2Proof.Claim

-- ---- the vector (spec 60_exceptions.md R413) ----

/-- In mode 0 every trap goes to the base. -/
theorem trapVector_direct {tvec : Word} (h : tvec.toNat % 4 = 0) (c : Trap) : trapVector tvec c = some (handlerBase tvec) := by
  unfold trapVector
  rw [vectorMode_toNat, h, and_eq_handlerBase]
  rfl

/-- In mode 1 an interrupt goes to its own slot above the base. -/
theorem trapVector_vectored {tvec : Word} (h : tvec.toNat % 4 = 1) (i : Interrupt) :
    trapVector tvec (.interrupt i) = some (handlerBase tvec + BitVec.ofNat 32 (4 * interruptCode i)) := by
  unfold trapVector
  rw [vectorMode_toNat, h, and_eq_handlerBase]
  rfl

/-- Modes 2 and 3 have no target, whatever the trap. -/
theorem trapVector_eq_none {tvec : Word} (h : 2 ≤ tvec.toNat % 4) (c : Trap) : trapVector tvec c = none := by
  have hmode : tvec.toNat % 4 = 2 ∨ tvec.toNat % 4 = 3 := by omega
  unfold trapVector
  rw [vectorMode_toNat]
  rcases hmode with h | h <;> rw [h] <;> rfl

theorem isSum_add_ofNat (w : Word) {k : Nat} (hk : k < 2 ^ 32) : IsSum (w + BitVec.ofNat 32 k) w k := by
  rw [IsSum, BitVec.toNat_add, BitVec.toNat_ofNat, Nat.mod_eq_of_lt hk]
  rfl

theorem interruptCode_lt (i : Interrupt) : interruptCode i < 12 := by cases i <;> decide

theorem causeWord_exception_toNat (e : Exception) : (causeWord (.exception e)).toNat = exceptionCode e := by cases e <;> rfl

-- ---- the level of an exception (spec 60_exceptions.md R410) ----

section
variable {e : Raised} {i : Instr} {s t w : State}

theorem handleException_of_goesToS {e : Exception} (h : GoesToS e s) : handleException e s = enterS (.exception e) s :=
  if_pos ((delegated_iff e s).mpr h)

theorem handleException_of_not_goesToS {e : Exception} (h : ¬GoesToS e s) : handleException e s = enterM (.exception e) s :=
  if_neg (mt (delegated_iff e s).mp h)

theorem modeNum_le_m (p : Mode) : modeNum p ≤ modeNum .m := by cases p <;> decide

theorem modeNum_le_s {p : Mode} (h : p ≠ .m) : modeNum p ≤ modeNum .s := by
  cases p
  case m => exact absurd rfl h
  all_goals decide

/-- What a trap that is taken changes: the control state, the trap registers of one level, the status and `tval_next`. -/
theorem takeException_next (h : takeException e s = .next t) :
    t = { s with exc := some e.exception, priv := t.priv, stdby := false, pcNext := t.pcNext, csr := t.csr } ∧
    ((t.priv = .s ∧ s.priv ≠ .m ∧ t.csr = { s.csr with
        sepc := s.pc, scause := t.csr.scause, stval := t.csr.stval, tvalNext := t.csr.tvalNext, mstatus := t.csr.mstatus }) ∨
     (t.priv = .m ∧ t.csr = { s.csr with
        mepc := s.pc, mcause := t.csr.mcause, mtval := t.csr.mtval, tvalNext := t.csr.tvalNext, mstatus := t.csr.mstatus })) := by
  rcases takeException_cases e s with h' | ⟨_, -, hd, h'⟩ | ⟨_, -, -, h'⟩ <;> rw [h'] at h <;> cases h
  · exact ⟨rfl, .inl ⟨rfl, ((delegated_iff ..).mp hd).1, rfl⟩⟩
  · exact ⟨rfl, .inr ⟨rfl, rfl⟩⟩

/-- Taking an exception never lowers the mode. -/
theorem takeException_mode (h : takeException e s = .next t) : modeNum s.priv ≤ modeNum t.priv := by
  obtain ⟨-, ⟨ht, hs, -⟩ | ⟨ht, -⟩⟩ := takeException_next h <;> rw [ht]
  · exact modeNum_le_s hs
  · exact modeNum_le_m _

-- ---- how an instruction ends, said once ----

/-- `w` is a state in which instruction `i`, begun in `s`, can raise: `s` itself, or `s` after the write-back of the leaf of a
misaligned access (spec 20_memory.md R111; 60_exceptions.md R407). -/
def RaisedFrom (i : Instr) (s w : State) : Prop :=
  w = s ∨ ∃ v intent tr, dataAccess i s = some (v, intent) ∧ translation v intent s = some tr ∧ v.toNat % 4 ≠ 0 ∧
    w = writeBackState tr.writeBack s

/-- The mode and the record of exceptions are as before. -/
abbrev SameMode (s t : State) : Prop := t.priv = s.priv ∧ t.exc = s.exc

/-- Instruction `i`, begun in `s`, ends in `t`: it takes an exception, or it completes, and then a return alone may change the mode. -/
inductive Ends (i : Instr) (s t : State) : Prop
  | raised (e : Raised) (w : State) (hfrom : RaisedFrom i s w) (htrap : takeException e w = .next t)
  | completed (hexc : t.exc = s.exc) (hpriv : t.priv = s.priv ∨ i = .mret ∨ i = .sret)

theorem SameMode.ends (h : SameMode s t) : Ends i s t := .completed h.2 (.inl h.1)

theorem Ends.of_takeException (h : takeException e s = .next t) : Ends i s t := .raised e s (.inl rfl) h

theorem sameMode_setX (s : State) (rd : Reg) (v : Word) : SameMode s (s.setX rd v) := ⟨s.setX_priv rd v, s.setX_exc rd v⟩

theorem sameMode_setPcNext (s : State) (target : Word) : SameMode s (s.setPcNext target) := ⟨rfl, rfl⟩

theorem sameMode_setReservation (s : State) (a : PAddr) (b : Bool) : SameMode s (s.setReservation a b) := ⟨rfl, rfl⟩

theorem sameMode_dropReservation (s : State) : SameMode s s.dropReservation := ⟨rfl, rfl⟩

theorem sameMode_pmRead (phys : PAddr) (n : Width) (s : State) : SameMode s (pmReadState phys n true s) := by
  rw [pmReadState_eq]; exact ⟨rfl, rfl⟩

theorem sameMode_pmWrite (phys : PAddr) (n : Width) (v : Word) (s : State) : SameMode s (pmWrite phys n v true s).2 := by
  rw [pmWrite_eq]; exact ⟨rfl, rfl⟩

theorem sameMode_writeBack (wb : Option (PAddr × Word)) (s : State) : SameMode s (writeBackState wb s) :=
  ⟨writeBackState_priv wb s, writeBackState_exc wb s⟩

theorem sameMode_timerWrite (tm : Timer) (v : Word) (n : Width) (val : Word) (s : State) :
    SameMode s (timerWrite tm v n val s) := by
  rw [timerWrite_eq]; exact ⟨rfl, rfl⟩

theorem SameMode.trans (h : SameMode s w) (h' : SameMode w t) : SameMode s t := ⟨h'.1.trans h.1, h'.2.trans h.2⟩

/-- An address that is misaligned for some width is no multiple of 4. -/
theorem mod_four_of_misaligned {v : Word} {n : Width} (h : isAligned v n = false) : v.toNat % 4 ≠ 0 := by
  rw [isAligned_eq_false_iff] at h
  cases n <;> simp only [bytesOf] at h <;> omega

/-- A misaligned access raises after the write-back of its leaf. -/
theorem raisedFrom_misaligned {v : Word} {n : Width} {intent : Intent} {tr : Translation}
    (hd : dataAccess i s = some (v, intent)) (htr : translation v intent s = some tr) (ha : isAligned v n = false) :
    RaisedFrom i s (writeBackState tr.writeBack s) :=
  .inr ⟨v, intent, tr, hd, htr, mod_four_of_misaligned ha, rfl⟩

/-- The access of the instruction raises in one of the states of `RaisedFrom`. -/
theorem translateAligned_raisedFrom {v : Word} {n : Width} {intent : Intent} (hd : dataAccess i s = some (v, intent))
    (h : translateAligned v n intent true s = .raised e w) : RaisedFrom i s w := by
  rcases translateAligned_cases v n intent true s with ⟨-, h'⟩ | ⟨tr, htr, ha, h'⟩ | ⟨_, -, -, h'⟩ <;> rw [h'] at h <;> cases h
  · exact .inl rfl
  · exact raisedFrom_misaligned hd htr ha

theorem translateAligned_sameMode {v : Word} {n : Width} {intent : Intent} {phys : PAddr}
    (h : translateAligned v n intent true s = .ok phys w) : SameMode s w := by
  rcases translateAligned_cases v n intent true s with ⟨-, h'⟩ | ⟨_, -, -, h'⟩ | ⟨_, -, -, h'⟩ <;> rw [h'] at h <;> cases h
  exact sameMode_writeBack _ s

theorem writeReg_ends {rd : Reg} {v : Word} (h : writeReg rd v s = .next t) : Ends i s t := by
  cases h
  exact (sameMode_setX s rd v).ends

theorem jumpTo_ends {target : Word} {link : State → State} (hlink : SameMode s (link s)) (h : jumpTo target link s = .next t) :
    Ends i s t := by
  unfold jumpTo at h
  split at h
  · exact .of_takeException h
  · cases h; exact (hlink.trans (sameMode_setPcNext _ target)).ends

theorem branchIf_ends {taken : Bool} {off : BitVec 13} (h : branchIf taken off s = .next t) : Ends i s t := by
  unfold branchIf at h
  split at h
  · exact jumpTo_ends ⟨rfl, rfl⟩ h
  · cases h; exact SameMode.ends ⟨rfl, rfl⟩

theorem loadOp_ends {rd rs1 : Reg} {imm : BitVec 12} {n : Width} {ext : Word → Word}
    (hd : dataAccess i s = some (effAddr rs1 imm s, .read)) (h : loadOp rd rs1 imm n ext s = .next t) : Ends i s t := by
  unfold loadOp at h
  rcases memRead_cases (effAddr rs1 imm s) n s with ⟨tm, -, e⟩ | ⟨-, ⟨-, e⟩ | ⟨tr, htr, ha, e⟩ | ⟨tr, -, -, e⟩⟩ <;>
    rw [e] at h <;> simp only at h
  · cases h; exact (sameMode_setX s rd _).ends
  · exact .of_takeException h
  · exact .raised _ _ (raisedFrom_misaligned hd htr ha) h
  · cases h
    exact ((sameMode_writeBack _ s).trans ((sameMode_pmRead tr.phys n _).trans (sameMode_setX _ rd _))).ends

theorem storeOp_ends {rs1 rs2 : Reg} {imm : BitVec 12} {n : Width}
    (hd : dataAccess i s = some (effAddr rs1 imm s, .write)) (h : storeOp rs1 rs2 imm n s = .next t) : Ends i s t := by
  unfold storeOp at h
  rcases memWrite_cases (effAddr rs1 imm s) n (s.x rs2) s with ⟨tm, -, e⟩ | ⟨-, ⟨-, e⟩ | ⟨tr, htr, ha, e⟩ | ⟨tr, -, -, e⟩⟩ <;>
    rw [e] at h <;> simp only at h
  · cases h; exact (sameMode_timerWrite tm _ n _ s).ends
  · exact .of_takeException h
  · exact .raised _ _ (raisedFrom_misaligned hd htr ha) h
  · cases h
    exact ((sameMode_writeBack _ s).trans (sameMode_pmWrite tr.phys n _ _)).ends

theorem amoOp_ends {rd rs1 rs2 : Reg} {f : Word → Word → Word} (hd : dataAccess i s = some (s.x rs1, .write))
    (h : amoOp rd rs1 rs2 f s = .next t) : Ends i s t := by
  unfold amoOp at h
  cases hta : translateAligned (s.x rs1) .word .write true s with
  | raised e w => simp only [hta] at h; exact .raised e w (translateAligned_raisedFrom hd hta) h
  | ok phys w =>
    simp only [hta] at h
    cases h
    exact ((translateAligned_sameMode hta).trans ((sameMode_pmRead phys .word w).trans
      ((sameMode_pmWrite ..).trans (sameMode_setX _ rd _)))).ends

theorem execLrW_ends {rd rs1 : Reg} {aq rl : BitVec 1} (hd : dataAccess i s = some (s.x rs1, .read))
    (h : execLrW rd rs1 aq rl s = .next t) : Ends i s t := by
  unfold execLrW at h
  cases hta : translateAligned (s.x rs1) .word .read true s with
  | raised e w => simp only [hta] at h; exact .raised e w (translateAligned_raisedFrom hd hta) h
  | ok phys w =>
    simp only [hta] at h
    cases h
    exact ((translateAligned_sameMode hta).trans ((sameMode_pmRead phys .word w).trans
      ((sameMode_setX _ rd _).trans (sameMode_setReservation ..)))).ends

theorem execScW_ends {rd rs1 rs2 : Reg} {aq rl : BitVec 1} (hd : dataAccess i s = some (s.x rs1, .write))
    (h : execScW rd rs1 rs2 aq rl s = .next t) : Ends i s t := by
  unfold execScW at h
  cases hta : translateAligned (s.x rs1) .word .write true s with
  | raised e w => simp only [hta] at h; exact .raised e w (translateAligned_raisedFrom hd hta) h
  | ok phys w =>
    simp only [hta] at h
    split at h <;> cases h
    · exact ((translateAligned_sameMode hta).trans ((sameMode_pmWrite ..).trans
        ((sameMode_setX _ rd _).trans (sameMode_dropReservation _)))).ends
    · exact ((translateAligned_sameMode hta).trans ((sameMode_setX w rd _).trans (sameMode_dropReservation _))).ends

theorem csrOp_ends {word : Word} {rd : Reg} {n : CsrNum} {writes : Bool} {new : Word → Word}
    (h : csrOp word rd n writes new s = .next t) : Ends i s t := by
  unfold csrOp at h
  split at h
  · exact .of_takeException h
  · have hwritten : ∀ c, SameMode s (if writes then s.setCsr c else s) := fun c => by cases writes <;> exact ⟨rfl, rfl⟩
    cases h
    exact ((hwritten _).trans (sameMode_setX _ rd _)).ends

/-- How an instruction ends. -/
theorem exec_ends (h : exec i s = .next t) : Ends i s t := by
  cases i <;> simp only [exec] at h
  case lui | auipc | addi | slti | sltiu | xori | ori | andi | slli | srli | srai | add | sub | sll | slt | sltu | xor | srl
      | sra | or | and | mul | mulh | mulhsu | mulhu | div | divu | rem | remu =>
    exact writeReg_ends h
  case jal | jalr => exact jumpTo_ends (sameMode_setX s _ _) h
  case beq | bne | blt | bge | bltu | bgeu => exact branchIf_ends h
  case lb | lh | lw | lbu | lhu => exact loadOp_ends rfl h
  case sb | sh | sw => exact storeOp_ends rfl h
  case lrW => exact execLrW_ends rfl h
  case scW => exact execScW_ends rfl h
  case amoswapW | amoaddW | amoxorW | amoandW | amoorW | amominW | amomaxW | amominuW | amomaxuW => exact amoOp_ends rfl h
  case csrrw | csrrs | csrrc | csrrwi | csrrsi | csrrci => exact csrOp_ends h
  case fence | fenceI | wfi => cases h; exact SameMode.ends ⟨rfl, rfl⟩
  case ecall | ebreak => exact .of_takeException h
  case mret =>
    unfold execMret at h
    split at h
    · cases h; exact .completed rfl (.inr (.inl rfl))
    · exact .of_takeException h
  case sret =>
    unfold execSret at h
    split at h
    · exact .of_takeException h
    · cases h; exact .completed rfl (.inr (.inr rfl))
  case sfenceVma =>
    unfold execSfenceVma at h
    split at h
    · exact .of_takeException h
    · cases h; exact SameMode.ends ⟨rfl, rfl⟩

/-- An instruction that leaves an exception recorded has taken it. -/
theorem exec_raised (hs : s.exc = none) (h : exec i s = .next t) (ht : t.exc ≠ none) :
    ∃ e w, RaisedFrom i s w ∧ takeException e w = .next t := by
  cases exec_ends h with
  | raised e w hfrom htrap => exact ⟨e, w, hfrom, htrap⟩
  | completed hexc => exact absurd (hexc.trans hs) ht

-- ---- what the write-back of a raising instruction leaves (spec 60_exceptions.md R407) ----

/-- The states an instruction raises in differ from the one it began in by a write-back at most. -/
theorem RaisedFrom.frame (h : RaisedFrom i s w) :
    w = { s with mem := w.mem, valid := w.valid, deviceCalls := w.deviceCalls, reservedValid := w.reservedValid } := by
  rcases h with rfl | ⟨_, _, tr, -, -, -, rfl⟩
  · rfl
  · exact writeBackState_eq ..

/-- A physical write calls one device at most. -/
theorem pmWrite_deviceCalls_length (phys : PAddr) (n : Width) (v : Word) (s : State) :
    (pmWrite phys n v true s).2.deviceCalls.length ≤ s.deviceCalls.length + 1 := by
  rcases pmWrite_cases phys n v true s with ⟨-, -, h⟩ | ⟨-, -, h⟩ | ⟨-, -, h⟩ <;> rw [h] <;> simp

/-- A physical write leaves the bytes outside it alone. -/
theorem pmWrite_read_other {phys : PAddr} {n : Width} {a : Nat} (ha : a < phys.toNat ∨ phys.toNat + bytesOf n ≤ a) (v : Word)
    (s : State) : (pmWrite phys n v true s).2.mem.read a = s.mem.read a := by
  rcases pmWrite_cases phys n v true s with ⟨-, -, h⟩ | ⟨-, -, h⟩ | ⟨-, -, h⟩ <;> rw [h]
  exact Memory.read_writeValue_other _ ha v

theorem RaisedFrom.deviceCalls (h : RaisedFrom i s w) : w.deviceCalls.length ≤ s.deviceCalls.length + 1 := by
  rcases h with rfl | ⟨_, _, tr, -, -, -, rfl⟩
  · omega
  · cases tr.writeBack with
    | none => exact Nat.le_succ _
    | some wb => exact pmWrite_deviceCalls_length ..

/-- Memory, the `valid` bits and the reservation are as they were, or a leaf entry was written back. -/
theorem RaisedFrom.memory (h : RaisedFrom i s w) :
    (SameBytes s w ∧ w.reservedValid = s.reservedValid ∧ w.valid = s.valid) ∨
      ∃ v intent tr addr pte, dataAccess i s = some (v, intent) ∧ translation v intent s = some tr ∧
        tr.writeBack = some (addr, pte) ∧ v.toNat % 4 ≠ 0 ∧
        ∀ a, a < addr.toNat ∨ addr.toNat + 4 ≤ a → w.mem.read a = s.mem.read a := by
  rcases h with rfl | ⟨v, intent, tr, hd, htr, hv, rfl⟩
  · exact .inl ⟨fun _ => rfl, rfl, rfl⟩
  · cases hwb : tr.writeBack with
    | none => exact .inl ⟨fun _ => rfl, rfl, rfl⟩
    | some wb => exact .inr ⟨v, intent, tr, wb.1, wb.2, hd, htr, hwb, hv, fun a ha => pmWrite_read_other ha ..⟩

end

-- ---- the obligations ----

/-- Settles O33: M-trap entry through a vector that has a target. -/
theorem machineTrapEntry : Obligations.MachineTrapEntry := by
  intro s c target hv
  refine ⟨mstatusEnterM s.csr.mstatus s.priv, savedPc c s, fun k hk => getLsbD_mstatusEnterM _ _ hk, ?_, ?_, enterM_of_vector hv⟩
  · rintro e rfl; rfl
  · rintro i rfl; rfl

/-- Settles O34: S-trap entry through a vector that has a target. -/
theorem supervisorTrapEntry : Obligations.SupervisorTrapEntry := by
  intro s c target hv
  refine ⟨mstatusEnterS s.csr.mstatus s.priv, savedPc c s, fun k hk => getLsbD_mstatusEnterS _ _ hk, ?_, ?_, enterS_of_vector hv⟩
  · rintro e rfl; rfl
  · rintro i rfl; rfl

/-- Settles O35: the vector by the mode of its register, and the codes of the two tables. -/
theorem vectorAndCause : Obligations.VectorAndCause := by
  intro tvec e i c s
  refine ⟨fun h => trapVector_of_vectorOk h e, fun h => trapVector_direct h _, fun h => ⟨_, trapVector_vectored h i, ?_⟩,
    fun h => trapVector_eq_none h c, fun t h => (aligned_iff_toNat t).mp (trapVector_aligned h), fun h => ?_, fun h => ?_,
    causeWord_exception_toNat e, causeWord_interrupt_toNat i, rfl, rfl⟩
  · have hcode := interruptCode_lt i
    exact isSum_add_ofNat _ (by omega)
  · rw [enterM, h]
  · rw [enterS, h]

/-- Settles O36: delegation decides between the two trap entries, and each enters a mode that is not lower. -/
theorem exceptionDelegation : Obligations.ExceptionDelegation := by
  intro s e
  refine ⟨handleException_of_goesToS, handleException_of_not_goesToS, ?_⟩
  by_cases hS : GoesToS e s
  · rw [handleException_of_goesToS hS]
    rcases enterS_cases (.exception e) s with ⟨-, h⟩ | ⟨_, -, h⟩ <;> rw [h]
    · exact ⟨.inr rfl, by rintro t ⟨⟩⟩
    · exact ⟨.inl ⟨_, rfl⟩, by rintro t ⟨⟩; exact modeNum_le_s hS.1⟩
  · rw [handleException_of_not_goesToS hS]
    rcases enterM_cases (.exception e) s with ⟨-, h⟩ | ⟨_, -, h⟩ <;> rw [h]
    · exact ⟨.inr rfl, by rintro t ⟨⟩⟩
    · exact ⟨.inl ⟨_, rfl⟩, by rintro t ⟨⟩; exact modeNum_le_m s.priv⟩

/-- Settles O37: the trap is taken in a state that a write-back alone parts from the one the instruction began in. -/
theorem exceptionsPrecise : Obligations.ExceptionsPrecise := by
  intro i s t hs h ht
  obtain ⟨e, w, hfrom, htrap⟩ := exec_raised hs h ht
  obtain ⟨hframe, hlevel⟩ := takeException_next htrap
  have hw := hfrom.frame
  have hcsr : w.csr = s.csr := by rw [hw]
  have hpc : w.pc = s.pc := by rw [hw]
  have hmem : t.mem = w.mem := by rw [hframe]
  have hcalls : t.deviceCalls = w.deviceCalls := by rw [hframe]
  have hreserved : t.reservedValid = w.reservedValid := by rw [hframe]
  have hvalid : t.valid = w.valid := by rw [hframe]
  rw [hcsr, hpc] at hlevel
  simp only [SameBytes, hmem, hcalls, hreserved, hvalid]
  refine ⟨by rw [hframe, hw], by rw [hframe, hw], by rw [hframe, hw], by rw [hframe, hw], by rw [hframe, hw],
    hfrom.deviceCalls, fun hp => ?_, fun hp => ?_, hfrom.memory⟩
  · rcases hlevel with ⟨-, -, hs⟩ | ⟨hm, -⟩
    · exact hs
    · cases hp.symm.trans hm
  · rcases hlevel with ⟨hs, -⟩ | ⟨-, hm⟩
    · cases hp.symm.trans hs
    · exact hm

/-- Settles O59: an instruction takes an exception, or completes with its mode unless it is a return. -/
theorem modeChangesOnlyByTraps : Obligations.ModeChangesOnlyByTraps := by
  intro i s t hs h
  constructor
  · intro ht
    obtain ⟨e, w, hfrom, htrap⟩ := exec_raised hs h ht
    have hpriv : w.priv = s.priv := by rw [hfrom.frame]
    exact hpriv ▸ takeException_mode htrap
  · intro ht hne
    cases exec_ends h with
    | raised e w hfrom htrap => cases ht.symm.trans (takeException_exc htrap)
    | completed hexc hpriv => exact hpriv.resolve_left hne

end Sys2Proof.Machine
end

section
/-! PROOF. The tick: the counters and timers of the accounting (CycleCountsTicks, TimersRecomputed, InstretCountsCompletions,
EventCountersAdvance), the interrupt check (InterruptPriority, DelegationMasksInterrupts, ExceptionExcludesInterrupt), standby
(StandbyTick), the instruction a step runs (StepRunsDecoded), and the interrupt lines (InterruptLines). -/

namespace Sys2Proof.Machine

open Sys2Proof.Claim

section
variable {s s1 t a u : State} {af : Bool} {delta : DWord}

-- ---- a tick that ends, said once ----

/-- The state after phase 2, where phase 1 led from `s` to `s1`. -/
abbrev afterAccount (s s1 : State) (delta : DWord) : State := account (accountView s s1).1 (accountView s s1).2 delta s1

/-- Beyond phase 1 a tick that ends is the interrupt check of the accounted state and the advance. -/
theorem tickWith_of_phase1 (h1 : phase1 af s = .next s1) (h : tickWith delta af s = .next t) :
    ∃ u, interruptPhase (afterAccount s s1 delta) = .next u ∧ t = advance u := by
  obtain ⟨-, s1', h1', hfin⟩ := tickWith_next h
  obtain rfl : s1 = s1' := by simpa [h1] using h1'
  exact finishTick_next hfin

/-- The CSR block `d` is `c` but for the trap registers, the status and `tval_next`. -/
def OnlyTrapCsrs (c d : CsrBlock) : Prop :=
  d = { c with
    mepc := d.mepc, mcause := d.mcause, mtval := d.mtval, sepc := d.sepc, scause := d.scause, stval := d.stval
    mstatus := d.mstatus, tvalNext := d.tvalNext }

/-- The interrupt check changes the mode, `pc_next` and the trap registers alone, and where it changes anything the hart leaves
standby. -/
theorem tryInterrupt_frame (h : tryInterrupt a = .next u) :
    u = { a with priv := u.priv, stdby := u.stdby, pcNext := u.pcNext, csr := u.csr } ∧ OnlyTrapCsrs a.csr u.csr ∧
      (u = a ∨ u.stdby = false) := by
  rcases tryInterrupt_cases a with ⟨-, -, e⟩ | ⟨i, -, e⟩ | ⟨i, -, -, e⟩ <;> rw [e] at h
  · cases h; exact ⟨rfl, rfl, .inl rfl⟩
  · rcases enterM_cases (.interrupt i) a with ⟨-, e⟩ | ⟨_, -, e⟩ <;> rw [e] at h <;> cases h
    exact ⟨rfl, rfl, .inr rfl⟩
  · rcases enterS_cases (.interrupt i) a with ⟨-, e⟩ | ⟨_, -, e⟩ <;> rw [e] at h <;> cases h
    exact ⟨rfl, rfl, .inr rfl⟩

theorem interruptPhase_onlyTrapCsrs (h : interruptPhase a = .next u) : OnlyTrapCsrs a.csr u.csr := by
  unfold interruptPhase at h
  split at h
  · cases h; rfl
  · obtain ⟨-, hcsr, -⟩ := tryInterrupt_frame h
    exact hcsr

/-- What the accounting leaves in the CSR block the rest of the tick changes in the trap registers alone. -/
theorem tickWith_onlyTrapCsrs (h1 : phase1 af s = .next s1) (h : tickWith delta af s = .next t) :
    OnlyTrapCsrs (afterAccount s s1 delta).csr t.csr := by
  obtain ⟨u, hu, rfl⟩ := tickWith_of_phase1 h1 h
  have hcsr := interruptPhase_onlyTrapCsrs hu
  rw [advance_csr]
  unfold OnlyTrapCsrs at hcsr ⊢
  rw [hcsr]

-- ---- phase 1 that raises (spec 60_exceptions.md R400) ----

/-- A phase 1 that leaves an exception recorded has executed, and taken it. -/
theorem phase1_raised (h : phase1 af s = .next t) (ht : t.exc ≠ none) :
    s.stdby = false ∧ ∃ e w, takeException e w = .next t := by
  rcases phase1_cases af s with ⟨-, e⟩ | ⟨hs, -, e⟩ | ⟨hs, tr, -, ⟨-, e⟩ | ⟨w, f, hf, e⟩⟩ <;> rw [e] at h
  · cases h; exact absurd rfl ht
  · exact ⟨hs, _, _, h⟩
  · cases h
  · have hexc : f.exc = none := by rw [dicFetch_eq hf, writeBackState_exc, clearExc_exc]
    unfold execWord at h
    split at h
    · obtain ⟨e, x, -, htrap⟩ := exec_raised hexc h ht
      exact ⟨hs, e, x, htrap⟩
    · exact ⟨hs, _, _, h⟩

theorem accountView_of_quiet (h : s1.exc = none) : accountView s s1 = (s1.priv, s1.stdby) := by simp [accountView, h]

theorem accountView_of_raised (h1 : phase1 af s = .next s1) (h : s1.exc ≠ none) : accountView s s1 = (s.priv, false) := by
  simp [accountView, Option.isSome_iff_ne_none.mpr h, (phase1_raised h1 h).1]

-- ---- the counters (spec 60_exceptions.md R401 to R405) ----

theorem bump_toNat (b : Bool) (d : DWord) : (bump b d).toNat = (d.toNat + if b then 1 else 0) % 2 ^ 64 := by
  cases b
  · exact (Nat.mod_eq_of_lt d.isLt).symm
  · exact BitVec.toNat_add d 1#64

/-- `mip` after the accounting: bits 5 and 7 are the two comparisons. -/
theorem getLsbD_timersPending_mip (c : CsrBlock) (k : Nat) :
    (timersPending c).mip.getLsbD k =
      if k = 5 then decide (c.scyclecmp.toNat ≤ c.cycle.toNat % 2 ^ 32)
      else if k = 7 then decide (c.mtimecmp.toNat ≤ c.mtime.toNat)
      else c.mip.getLsbD k := by
  rw [timersPending, getLsbD_setBit, getLsbD_setBit, lowHalf_toNat]
  split_ifs <;> first | rfl | omega

/-- In every tick that ends MTIP and STIP are the comparisons of the registers as the tick leaves them (spec 60_exceptions.md R404). -/
theorem tickWith_mip (h1 : phase1 af s = .next s1) (h : tickWith delta af s = .next t) (k : Nat) :
    t.csr.mip.getLsbD k =
      if k = 5 then decide (t.csr.scyclecmp.toNat ≤ t.csr.cycle.toNat % 2 ^ 32)
      else if k = 7 then decide (t.csr.mtimecmp.toNat ≤ t.csr.mtime.toNat)
      else s1.csr.mip.getLsbD k := by
  rw [tickWith_onlyTrapCsrs h1 h]
  exact getLsbD_timersPending_mip _ k

/-- The event of a counter, in numbers (spec 10_state.md R63). -/
theorem hpmEvent_iff (inStandby : Bool) (e : Word) (p : Mode) (sb : Bool) :
    hpmEvent inStandby e p sb = true ↔
      (e.toNat = 4 ∧ sb = true) ∨
        ((inStandby = true ∨ sb = false) ∧
          ((e.toNat = 1 ∧ p = .u) ∨ (e.toNat = 2 ∧ p = .s) ∨ (e.toNat = 3 ∧ p = .m))) := by
  simp only [hpmEvent, ← BitVec.toNat_inj, BitVec.toNat_ofNat]
  split_ifs with h1 h2 h3 h4
  · simp [h1, and_comm]
  · simp [h2, and_comm]
  · simp [h3, and_comm]
  · simp [h4]
  · simp [h1, h2, h3, h4]

-- ---- which interrupt is taken (spec 60_exceptions.md R430) ----

theorem mem_mPriority (i : Interrupt) : i ∈ mPriority := by cases i <;> decide

theorem takableM_of_mStage {i : Interrupt} (h : mStage s = some i) : TakableM i s := by
  unfold mStage at h
  split at h
  · rename_i hc
    exact (takableM_iff i s).mpr ⟨hc, List.find?_some h⟩
  · cases h

theorem takableS_of_sStage {i : Interrupt} (h : sStage s = some i) : TakableS i s := by
  unfold sStage at h
  split at h
  · rename_i hc
    exact (takableS_iff i s).mpr ⟨hc, List.mem_of_find?_eq_some h, List.find?_some h⟩
  · cases h

theorem not_takableM_of_mStage (h : mStage s = none) (i : Interrupt) : ¬TakableM i s := by
  intro hi
  obtain ⟨hc, ha⟩ := (takableM_iff i s).mp hi
  rw [mStage, if_pos hc] at h
  exact List.find?_eq_none.mp h i (mem_mPriority i) ha

/-- What the S stage takes is delegated: the M stage, open below M-mode, has left it. -/
theorem delegated_of_sStage {i : Interrupt} (hm : mStage s = none) (hs : sStage s = some i) :
    s.csr.mideleg.getLsbD (interruptCode i) = true := by
  by_contra hd
  exact not_takableM_of_mStage hm i ⟨(takableS_of_sStage hs).1, Bool.eq_false_iff.mpr hd, fun hp => absurd hp (sStage_priv hs)⟩

/-- What an interrupt that enters M-mode leaves. -/
theorem enterM_interrupt {i : Interrupt} (h : enterM (.interrupt i) s = .next t) :
    t.priv = .m ∧ t.csr.mepc = s.pcNext ∧ t.csr.mcause.toNat = 2 ^ 31 + interruptCode i := by
  rcases enterM_cases (.interrupt i) s with ⟨-, e⟩ | ⟨_, -, e⟩ <;> rw [e] at h <;> cases h
  exact ⟨rfl, rfl, causeWord_interrupt_toNat i⟩

/-- What an interrupt that enters S-mode leaves. -/
theorem enterS_interrupt {i : Interrupt} (h : enterS (.interrupt i) s = .next t) :
    t.priv = .s ∧ t.csr.sepc = s.pcNext ∧ t.csr.scause.toNat = 2 ^ 31 + interruptCode i := by
  rcases enterS_cases (.interrupt i) s with ⟨-, e⟩ | ⟨_, -, e⟩ <;> rw [e] at h <;> cases h
  exact ⟨rfl, rfl, causeWord_interrupt_toNat i⟩

/-- An interrupt that is taken is pending and enabled, and its `mideleg` bit gives the level it enters. -/
theorem tryInterrupt_level (h : tryInterrupt s = .next t) :
    t = s ∨ ∃ i, PendingEnabled i s ∧
      ((s.csr.mideleg.getLsbD (interruptCode i) = false ∧ t.priv = .m ∧ t.csr.mepc = s.pcNext ∧
          t.csr.mcause.toNat = 2 ^ 31 + interruptCode i) ∨
       (s.csr.mideleg.getLsbD (interruptCode i) = true ∧ s.priv ≠ .m ∧ t.priv = .s ∧ t.csr.sepc = s.pcNext ∧
          t.csr.scause.toNat = 2 ^ 31 + interruptCode i)) := by
  rcases tryInterrupt_cases s with ⟨-, -, e⟩ | ⟨i, hi, e⟩ | ⟨i, hm, hi, e⟩ <;> rw [e] at h
  · cases h; exact .inl rfl
  · obtain ⟨hpend, hdel, -⟩ := takableM_of_mStage hi
    exact .inr ⟨i, hpend, .inl ⟨hdel, enterM_interrupt h⟩⟩
  · exact .inr ⟨i, (takableS_of_sStage hi).1, .inr ⟨delegated_of_sStage hm hi, sStage_priv hi, enterS_interrupt h⟩⟩

/-- The cause of an interrupt has bit 31 set (spec 10_state.md R55). -/
theorem getLsbD_interrupt_cause {w : Word} {i : Interrupt} (h : w.toNat = 2 ^ 31 + interruptCode i) : w.getLsbD 31 = true := by
  obtain rfl : w = causeWord (.interrupt i) := BitVec.eq_of_toNat_eq (h.trans (causeWord_interrupt_toNat i).symm)
  cases i <;> rfl

-- ---- a tick in standby (spec 60_exceptions.md R457) ----

/-- A tick in standby accounts and checks for interrupts. -/
theorem tickWith_standby (hs : s.stdby = true) (h : tickWith delta af s = .next t) :
    ∃ u, tryInterrupt (account s.priv true delta (clearExc s)) = .next u ∧ t = advance u := by
  have h1 : phase1 af s = .next (clearExc s) := if_pos hs
  obtain ⟨u, hu, ht⟩ := tickWith_of_phase1 h1 h
  rw [afterAccount, accountView_of_quiet rfl, clearExc_stdby, hs] at hu
  exact ⟨u, hu, ht⟩

/-- The end of a tick that stays in standby: no register that can be read has changed, nor `instret`. -/
theorem advance_standby (hs : s.stdby = true) (ht : t = advance (account s.priv true delta (clearExc s))) :
    t = { s with
      regs := t.regs, exc := none, tick := s.tick + 1
      csr := { s.csr with
        cycle := t.csr.cycle, mtime := t.csr.mtime, hpmcounters := t.csr.hpmcounters, mip := t.csr.mip
        tvalNext := 0#32 } } := by
  have hmove : movePc (account s.priv true delta (clearExc s)) = account s.priv true delta (clearExc s) := if_pos hs
  rw [advance, hmove] at ht
  subst ht
  rfl

-- ---- a tick that fetches (spec 20_memory.md R132, R165) ----

/-- In a good state whose fetch translation succeeds phase 1 executes the word now in memory at the physical pc. -/
theorem phase1_of_translation {tr : Translation} (hp : s.platform.wf) (hd : DicCoherent s) (hs : s.stdby = false)
    (htr : translation s.pc .fetch s = some tr) :
    ∃ e, e = { writeBackState tr.writeBack (clearExc s) with dic := e.dic, valid := e.valid } ∧
      phase1 false s = execWord (pmValue (granuleOf tr.phys) .word false (writeBackState tr.writeBack (clearExc s))) e := by
  have hclear : DicCoherent (clearExc s) := hd.congr rfl rfl rfl rfl
  have hplatform : (writeBackState tr.writeBack (clearExc s)).platform.wf := by rw [writeBackState_platform]; exact hp
  obtain ⟨e, he, -, hframe⟩ := dicFetch_coherent hplatform (writeBackState_coherent _ _ hclear) tr.phys
  refine ⟨e, hframe, ?_⟩
  rcases phase1_cases false s with ⟨hs', -⟩ | ⟨-, hnone, -⟩ | ⟨-, tr', htr', hfetch⟩
  · cases hs'.symm.trans hs
  · cases hnone.symm.trans htr
  · obtain rfl : tr' = tr := Option.some.inj (htr'.symm.trans htr)
    rcases hfetch with ⟨hnone, -⟩ | ⟨w, f, hf, hphase⟩
    · cases hnone.symm.trans he
    · cases hf.symm.trans he
      exact hphase

/-- A step with no host operation before the tick is the tick. -/
theorem step_of_no_ops (h : (nextInput s).ops = []) :
    step s = tickWith (nextInput s).timeDelta (nextInput s).allocFails (dropInput s) := by
  rw [step, h, runHostOps]

end

-- ---- the obligations ----

/-- Settles O38: the accounting advances `cycle`, and the comparison reads it after that. -/
theorem cycleCountsTicks : Obligations.CycleCountsTicks := by
  intro s s1 t delta af h1 h
  have hcycle : t.csr.cycle = bump (!s1.csr.mcountinhibit.getLsbD 0) s1.csr.cycle :=
    (congrArg CsrBlock.cycle (tickWith_onlyTrapCsrs h1 h) :)
  refine ⟨?_, tickWith_mip h1 h 5⟩
  rw [hcycle, bump_toNat]
  cases s1.csr.mcountinhibit.getLsbD 0 <;> rfl

/-- Settles O39: the accounting adds the delta, and leaves the comparands and the other bits of `mip` alone. -/
theorem timersRecomputed : Obligations.TimersRecomputed := by
  intro s s1 t delta af h1 h
  have hcsr := tickWith_onlyTrapCsrs h1 h
  have hmtime : t.csr.mtime = s1.csr.mtime + delta := (congrArg CsrBlock.mtime hcsr :)
  refine ⟨?_, (congrArg CsrBlock.mtimecmp hcsr :), (congrArg CsrBlock.scyclecmp hcsr :), fun k _ => tickWith_mip h1 h k⟩
  rw [hmtime, BitVec.toNat_add]

/-- Settles O40: `instret` advances on the three conditions, and where nothing was raised the standby flag is that after phase 1. -/
theorem instretCountsCompletions : Obligations.InstretCountsCompletions := by
  intro s s1 t delta af h1 h
  have hinstret : t.csr.instret =
      bump (!s1.exc.isSome && !(accountView s s1).2 && !s1.csr.mcountinhibit.getLsbD 2) s1.csr.instret :=
    (congrArg CsrBlock.instret (tickWith_onlyTrapCsrs h1 h) :)
  rw [hinstret, bump_toNat]
  cases he : s1.exc with
  | none => simp [accountView_of_quiet he]
  | some e => simp

/-- Settles O41: the mode and the standby flag of the accounting are those of the statement, and the event is its number. -/
theorem eventCountersAdvance : Obligations.EventCountersAdvance := by
  intro s s1 t delta af i p sb h1 h hquiet hraised
  have hcsr := tickWith_onlyTrapCsrs h1 h
  have hview : accountView s s1 = (p, sb) := by
    by_cases he : s1.exc = none
    · obtain ⟨rfl, rfl⟩ := hquiet he
      exact accountView_of_quiet he
    · obtain ⟨rfl, rfl⟩ := hraised he
      exact accountView_of_raised h1 he
  have hcounters : t.csr.hpmcounters =
      Vector.ofFn (hpmNext s1.platform.hpmInStandby (accountView s s1).1 (accountView s s1).2 s1.csr) :=
    (congrArg CsrBlock.hpmcounters hcsr :)
  refine ⟨(congrArg CsrBlock.hpmevents hcsr :), ?_⟩
  rw [hcounters, hview]
  simp only [Fin.getElem_fin, Vector.getElem_ofFn, hpmNext, bump_toNat, Bool.and_eq_true, Bool.not_eq_true', hpmEvent_iff]

/-- Settles O42: the stages take the first takable interrupt of their orders. -/
theorem interruptPriority : Obligations.InterruptPriority := fun _ _ =>
  ⟨fun hi hbefore => tryInterrupt_of_takenM ⟨hi, hbefore⟩, fun hm hi hbefore => tryInterrupt_of_takenS ⟨hm, hi, hbefore⟩,
    tryInterrupt_of_none⟩

/-- Settles O43: a takable interrupt of the M stage is one the M stage takes, or takes another before. -/
theorem delegationMasksInterrupts : Obligations.DelegationMasksInterrupts := by
  intro s t h
  refine ⟨tryInterrupt_level h, fun i hp hpend hdel => ?_⟩
  have htakable : TakableM i s := ⟨hpend, hdel, fun hm => absurd hm hp⟩
  obtain ⟨j, hj⟩ := Option.ne_none_iff_exists'.mp fun hm => not_takableM_of_mStage hm i htakable
  obtain ⟨hpend', hdel', -⟩ := takableM_of_mStage hj
  rw [tryInterrupt, hj] at h
  obtain ⟨hpriv, hepc, hcause⟩ := enterM_interrupt h
  exact ⟨hpriv, hepc, j, hpend', hdel', hcause⟩

/-- Settles O44: with an exception recorded the accounted state is what the end of the tick finds. -/
theorem exceptionExcludesInterrupt : Obligations.ExceptionExcludesInterrupt := by
  intro s s1 t delta af _ h1 he h
  obtain ⟨-, e, w, htrap⟩ := phase1_raised h1 he
  have hstdby : s1.stdby = false := by rw [(takeException_next htrap).1]
  obtain ⟨u, hu, rfl⟩ := tickWith_of_phase1 h1 h
  have hexc : (afterAccount s s1 delta).exc.isSome = true := Option.isSome_iff_ne_none.mpr he
  rw [interruptPhase, if_pos hexc] at hu
  cases hu
  rw [advance_priv, advance_stdby, advance_pc, advance_pcNext, advance_csr, account_stdby, hstdby]
  exact ⟨rfl, rfl, rfl, isSum_add_four _, rfl, rfl, rfl, rfl, rfl, rfl, rfl, rfl⟩

/-- Settles O45: a tick in standby accounts, checks for interrupts, and leaves standby only by taking one. -/
theorem standbyTick : Obligations.StandbyTick := by
  intro s t delta af hs h
  have h1 : phase1 af s = .next (clearExc s) := if_pos hs
  obtain ⟨u, hu, ht⟩ := tickWith_standby hs h
  obtain ⟨hframe, -, hleft⟩ := tryInterrupt_frame hu
  have hmem : t.mem = s.mem := by rw [ht, advance_mem, hframe]; rfl
  refine ⟨fun a => by rw [hmem], fun r => ?_, fun k h5 h7 => ?_, fun hstay => ?_, fun hleave => ?_⟩
  · rw [ht, advance_x]
    exact State.x_congr (by rw [hframe]; rfl) r
  · rw [tickWith_mip h1 h, if_neg h5, if_neg h7]; rfl
  · have hu' : u = account s.priv true delta (clearExc s) := hleft.resolve_right fun hout => by
      rw [ht, advance_stdby, hout] at hstay
      cases hstay
    exact advance_standby hs (hu' ▸ ht)
  · rw [ht, advance_stdby] at hleave
    rw [ht, advance_priv, advance_csr]
    rcases tryInterrupt_level hu with rfl | ⟨i, -, ⟨-, hp, hepc, hcause⟩ | ⟨-, -, hp, hepc, hcause⟩⟩
    · cases hs.symm.trans hleave
    · exact .inl ⟨hp, hepc, getLsbD_interrupt_cause hcause⟩
    · exact .inr ⟨hp, hepc, getLsbD_interrupt_cause hcause⟩

/-- Settles O46: the step is the tick, whose phase 1 executes the word in memory. -/
theorem stepRunsDecoded : Obligations.StepRunsDecoded := by
  intro s tr hm hp hd hfin hs hops haf htr
  have htr' : translation (dropInput s).pc .fetch (dropInput s) = some tr :=
    (translation_congr rfl rfl rfl (fun _ => rfl) rfl rfl _ _).trans htr
  obtain ⟨e, he, hphase⟩ := phase1_of_translation (s := dropInput s) hp (hd.congr rfl rfl rfl rfl) hs htr'
  refine ⟨_, e, afterTranslation_writeBack tr (s := clearExc (dropInput s)) hm, he, fun w o hw hsome hnone => ?_⟩
  have ho : o = execWord w e := by
    unfold execWord
    cases hdec : decodeWord w with
    | none => exact hnone hdec
    | some i => exact hsome i hdec
  rw [step_of_no_ops hops, haf, tickWith, dropInput_finished, hfin, hphase, ← hw, ← ho]
  rfl

/-- Settles O54: a line is one bit of `mip` driven to the level, or the external line. -/
theorem interruptLines : Obligations.InterruptLines := by
  intro s code
  refine ⟨rfl, rfl, fun h9 => ⟨setBit s.csr.mip (lineBit code) true, setBit s.csr.mip (lineBit code) false, lineBit code, ?_,
    if_neg h9, if_neg h9, fun k _ => ?_⟩⟩
  · simp only [lineBit, List.mem_cons, List.not_mem_nil, or_false]
    split_ifs <;> omega
  · have hbit : lineBit code < 32 := by unfold lineBit; split_ifs <;> omega
    rw [getLsbD_setBit, getLsbD_setBit]
    by_cases hline : k = lineBit code <;> simp [hline, hbit]

end Sys2Proof.Machine
end

section
/-! PROOF. The host's operations: what a host access of virtual memory leaves, and `cpu_set_pc` (HostAccess); the reset of
`cpu_init` (InitResets). -/

namespace Sys2Proof.Machine

open Sys2Proof.Claim

section
variable {s : State}

-- ---- a host operation before `cpu_done` is its own transformation ----

theorem applyHostOp_init (hfin : s.finished = false) (hartid : Word) :
    applyHostOp (.init hartid) s = .next (cpuInit hartid s) := by
  simp [applyHostOp, hfin]

theorem applyHostOp_setPc (hfin : s.finished = false) (value : Word) :
    applyHostOp (.setPc value) s = cpuSetPc value s := by
  simp [applyHostOp, hfin]

theorem applyHostOp_readMem (hfin : s.finished = false) (v : Word) (n : Width) (fetch noisy : Bool) :
    applyHostOp (.readMem v n fetch noisy) s = .next (hostAccessState (readMem v n fetch noisy s)) := by
  simp [applyHostOp, hfin]

theorem applyHostOp_writeMem (hfin : s.finished = false) (v : Word) (n : Width) (val : Word) (noisy : Bool) :
    applyHostOp (.writeMem v n val noisy) s = .next (hostAccessState (writeMem v n val noisy s)) := by
  simp [applyHostOp, hfin]

-- ---- what a host access leaves (spec 70_reset_and_hazards.md R504, R506) ----

/-- A host read leaves the state as it was (a timer read), or its translation's, or that of the physical read after it. -/
theorem hostAccessState_readMem_cases (v : Word) (n : Width) (fetch noisy : Bool) (s : State) :
    hostAccessState (readMem v n fetch noisy s) = s ∨
    ∃ intent, hostAccessState (readMem v n fetch noisy s) = hostAccessState (translateAligned v n intent noisy s) ∨
      ∃ phys, hostAccessState (readMem v n fetch noisy s) =
        pmReadState phys n noisy (hostAccessState (translateAligned v n intent noisy s)) := by
  unfold readMem
  split
  · exact .inl rfl
  · refine .inr ⟨if fetch then .fetch else .read, ?_⟩
    split <;> rename_i e <;> rw [e]
    · exact .inl rfl
    · exact .inr ⟨_, rfl⟩

/-- A host write leaves the state of a timer write, or its translation's, or that of the physical write after it. -/
theorem hostAccessState_writeMem_cases (v : Word) (n : Width) (val : Word) (noisy : Bool) (s : State) :
    (∃ tm, hostAccessState (writeMem v n val noisy s) = timerWrite tm v n val s) ∨
    hostAccessState (writeMem v n val noisy s) = hostAccessState (translateAligned v n .write noisy s) ∨
    ∃ phys, hostAccessState (writeMem v n val noisy s) =
      (pmWrite phys n val noisy (hostAccessState (translateAligned v n .write noisy s))).2 := by
  unfold writeMem
  split
  · exact .inl ⟨_, rfl⟩
  · right
    split <;> rename_i e <;> rw [e]
    · exact .inl rfl
    · exact .inr ⟨_, rfl⟩

/-- A translation leaves the page-table write-back, where it is noisy, and nothing else. -/
theorem hostAccessState_translateAligned_cases (v : Word) (n : Width) (intent : Intent) (noisy : Bool) (s : State) :
    hostAccessState (translateAligned v n intent noisy s) = s ∨
    (noisy = true ∧ ∃ wb, hostAccessState (translateAligned v n intent noisy s) = writeBackState wb s) := by
  rcases translateAligned_cases v n intent noisy s with ⟨-, e⟩ | ⟨tr, -, -, e⟩ | ⟨tr, -, -, e⟩ <;> rw [e]
  · exact .inl rfl
  all_goals
    cases noisy
    · exact .inl rfl
    · exact .inr ⟨rfl, tr.writeBack, rfl⟩

theorem hostAccessState_translateAligned_quiet (v : Word) (n : Width) (intent : Intent) (s : State) :
    hostAccessState (translateAligned v n intent false s) = s := by
  obtain e | ⟨hnoisy, -⟩ := hostAccessState_translateAligned_cases v n intent false s
  · exact e
  · cases hnoisy

theorem hostAccessState_translateAligned_csr (v : Word) (n : Width) (intent : Intent) (noisy : Bool) (s : State) :
    (hostAccessState (translateAligned v n intent noisy s)).csr = s.csr := by
  obtain e | ⟨-, wb, e⟩ := hostAccessState_translateAligned_cases v n intent noisy s <;> rw [e]
  exact writeBackState_csr wb s

/-- A host read that is not noisy changes nothing. -/
theorem hostAccessState_readMem_quiet (v : Word) (n : Width) (fetch : Bool) (s : State) :
    hostAccessState (readMem v n fetch false s) = s := by
  obtain e | ⟨intent, e | ⟨phys, e⟩⟩ := hostAccessState_readMem_cases v n fetch false s <;> rw [e]
  · exact hostAccessState_translateAligned_quiet ..
  · rw [pmReadState_quiet, hostAccessState_translateAligned_quiet]

/-- A host read changes no CSR, whatever it answers. -/
theorem hostAccessState_readMem_csr (v : Word) (n : Width) (fetch noisy : Bool) (s : State) :
    (hostAccessState (readMem v n fetch noisy s)).csr = s.csr := by
  obtain e | ⟨intent, e | ⟨phys, e⟩⟩ := hostAccessState_readMem_cases v n fetch noisy s <;> rw [e]
  · exact hostAccessState_translateAligned_csr ..
  · rw [pmReadState_eq]
    exact hostAccessState_translateAligned_csr ..

/-- Of the CSR block a host write reaches a timer register alone (log 12). -/
theorem hostAccessState_writeMem_tvalNext (v : Word) (n : Width) (val : Word) (noisy : Bool) (s : State) :
    (hostAccessState (writeMem v n val noisy s)).csr.tvalNext = s.csr.tvalNext := by
  obtain ⟨tm, e⟩ | e | ⟨phys, e⟩ := hostAccessState_writeMem_cases v n val noisy s <;> rw [e]
  · rw [timerWrite_eq]
  · rw [hostAccessState_translateAligned_csr]
  · rw [pmWrite_eq, hostAccessState_translateAligned_csr]

-- ---- `cpu_set_pc` (spec 70_reset_and_hazards.md R502) ----

theorem cpuSetPc_of_aligned {value : Word} (h : value.toNat % 4 = 0) (s : State) :
    cpuSetPc value s = .next { s with pc := value, pcNext := value + 4#32 } :=
  if_pos ((isAligned_iff value .word).mpr h)

theorem cpuSetPc_of_misaligned {value : Word} (h : value.toNat % 4 ≠ 0) (s : State) :
    cpuSetPc value s = .fault .misalignedSetPc :=
  if_neg fun ha => h ((isAligned_iff value .word).mp ha)

-- ---- `cpu_init` (spec 70_reset_and_hazards.md R500; 10_state.md R90) ----

theorem cpuInit_x (hartid : Word) (s : State) (r : Reg) : (cpuInit hartid s).x r = 0#32 := by
  simp [State.x, cpuInit, State.reset]

theorem cpuInit_hpm (hartid : Word) (s : State) (i : Fin 29) :
    (cpuInit hartid s).csr.hpmcounters[i] = 0#64 ∧ (cpuInit hartid s).csr.hpmevents[i] = 0#32 := by
  simp [cpuInit, CsrBlock.reset]

end

-- ---- the obligations ----

/-- Settles O55: a host access leaves what its translation and its physical access leave, and neither touches `tval_next`; where it
is a quiet read both leave the state as it was. -/
theorem hostAccess : Obligations.HostAccess := by
  intro s v next n fetch hfin hnext
  obtain rfl : next = v + 4#32 := eq_of_isSum hnext (isSum_add_four v)
  refine ⟨?_, fun val noisy t h => ?_, fun h => ?_, fun h => ?_⟩
  · rw [applyHostOp_readMem hfin, hostAccessState_readMem_quiet]
  · rw [applyHostOp_readMem hfin, applyHostOp_writeMem hfin] at h
    obtain h | h := h <;> cases h
    · rw [hostAccessState_readMem_csr]
    · exact hostAccessState_writeMem_tvalNext ..
  · rw [applyHostOp_setPc hfin, cpuSetPc_of_aligned h]
  · rw [applyHostOp_setPc hfin, cpuSetPc_of_misaligned h]

/-- Settles O56: `cpu_init` gives the reset state with the memory, the platform and the schedule of before. -/
theorem initResets : Obligations.InitResets := by
  intro s hartid next hfin hnext
  obtain rfl : next = s.platform.resetPc + 4#32 := eq_of_isSum hnext (isSum_add_four _)
  exact ⟨cpuInit hartid s, applyHostOp_init hfin hartid, fun _ => rfl, cpuInit_x hartid s, cpuInit_hpm hartid s, rfl⟩

end Sys2Proof.Machine
end
